-- ==== Sys2Proof/Word.lean ====
section
/-! DEFINITION. The word types of SIKE434-CORE: what the spec treats as bits and nothing more
(00_scope R8, R9, R13; 10_state R21, R22; 30_encoding R60; 20_memory R40). -/

namespace Sys2Proof

/-- A bus word, a command word, one word of an element register: WB = 32 bits (R8). -/
abbrev Word := BitVec 32

/-- The contents of one element register: W = 14 words, 448 bits (R9, R21). -/
abbrev Elem := BitVec 448

/-- The contents of a register pair, or a double-width value: 28 words, 896 bits (R9, R22). -/
abbrev Wide := BitVec 896

/-- An element register index, 0 to 63 (R21, R61). -/
abbrev RegIx := BitVec 6

/-- A byte offset in the 8 KiB window (R40: offsets are 13 bits). -/
abbrev Offset := BitVec 13

/-- The written marks of one element register: bit w is the mark of word w (R23). -/
abbrev Marks := BitVec 14

end Sys2Proof
end

