-- ==== Sys2Proof/Machine/Field.lean ====
section
/-! DEFINITION. The arithmetic of GF(p) and GF(p²) on natural numbers, as the rules of 42 to 45 define it:
the constants of 00_scope R19, Montgomery reduction, multiplication and squaring (42_montgomery), the
inversion chain (43_inversion), the GF(p) functions (44_fp_element). Values are exact non-negative
integers (00_scope R14); no step depends on the clock or the state. -/

namespace Sys2Proof.Machine

/-! ## Constants (00_scope R10, R11, R19; 10_state R32 to R34) -/

/-- p = 2^216 * 3^137 - 1 (R11; log 13), in the digits R19 gives. -/
def primeP : Nat :=
  0x2341F271773446CFC5FD681C520567BC65C783158AEA3FDC1767AE2FFFFFFFFFFFFFFFFFFFFFFFFFFFFFFFFFFFFFFFFFFFFFFFFFFFFFF

/-- PP1 = p + 1, in the digits R19 gives: its six low words are 0 (10_state R34, 42_montgomery R94). -/
def primePP1 : Nat :=
  0x2341F271773446CFC5FD681C520567BC65C783158AEA3FDC1767AE3000000000000000000000000000000000000000000000000000000

/-- The Montgomery radix R = 2^448 (R10). -/
def montR : Nat := 2 ^ 448

/-- R2 = R^2 mod p, canonical (R19): the contents of R2_ROM. -/
def montR2 : Nat :=
  0x25A89BCDD12A69E16A61C7686D9AABCD92BF2DDE347E175CC6AF8D6C7C0BAB27973F8311688DACEC7367768798C228E55B65DCD69B30

/-- ONE_M = R mod p, the canonical Montgomery 1 (R19). -/
def montOne : Nat :=
  0xECEEA7BD2EDAE93254545F77410CD801A4FB559FACD4B90FF404FC00000000000000000000000000000000000000000000000000742C

/-- MINV = -1/p mod R (R19). -/
def montInv : Nat :=
  0x254B341F271773446CFC5FD681C520567BC65C783158AEA3FDC1767AE3000000000000000000000000000000000000000000000000000001

/-- N0 = -1/p mod 2^32 (R19). -/
def montInvWord : Nat := 1

/-! ## Montgomery reduction, multiplication, squaring (42_montgomery R91 to R96) -/

/-- Redc (R92), with no final subtraction. Products stand with their constant first: so Lean's kernel does
not count a constant down where the other factor is a variable. -/
def redc (t : Nat) : Nat :=
  (t + primeP * (montInv * t % montR)) / montR

/-- One step of the word-serial reduction (R93): clears word i of t. -/
def redcStep (t i : Nat) : Nat :=
  t + 2 ^ (32 * i) * (primeP * (montInvWord * (t / 2 ^ (32 * i) % 2 ^ 32) % 2 ^ 32))

/-- RedcWordSerial (R93): the same function, one word of the multiplier at a time. -/
def redcWordSerial (t : Nat) : Nat := (List.range 14).foldl redcStep t / montR

/-- One step of the reduction specialized to this prime (R94): N0 = 1, so the multiplier q is word i of t
itself, and q p is q (p + 1) - q. -/
def redcStepPP1 (t i : Nat) : Nat :=
  t + 2 ^ (32 * i) * (primePP1 * (t / 2 ^ (32 * i) % 2 ^ 32)) - 2 ^ (32 * i) * (t / 2 ^ (32 * i) % 2 ^ 32)

/-- The reduction specialized to this prime (R94): the same function again. -/
def redcPP1 (t : Nat) : Nat := (List.range 14).foldl redcStepPP1 t / montR

/-- MontMul (R95): Redc of the exact product (R91). -/
def montMul (a b : Nat) : Nat := redc (a * b)

/-- MontSqr (R96). -/
def montSqr (a : Nat) : Nat := redc (a * a)

/-! ## The inverter (43_inversion R100 to R104) -/

/-- The power table after its entry t (R100): the next n entries, each the one before times tt. -/
def powerTableFrom (tt t : Nat) : Nat → List Nat
  | 0 => []
  | n + 1 => montMul t tt :: powerTableFrom tt (montMul t tt) n

/-- The power table of `size` entries (at least one): the odd powers of x (R100). -/
def powerTable (size x : Nat) : List Nat := x :: powerTableFrom (montSqr x) x (size - 1)

/-- TBL, the number of entries of the table (00_scope R12, 43_inversion R100). -/
def tableSize : Nat := 20

/-- J0, the start index of the chain (R101). -/
def chainStart : Nat := 17

/-- INV_CHAIN, steps 1 to 39 (R101): square k times, then multiply by entry j. -/
def chainHead : List (Nat × Nat) :=
  [ (2, 0), (10, 15), (8, 19), (8, 11), (4, 3), (6, 6), (9, 17), (6, 12), (5, 15), (8, 11), (4, 7), (5, 5), (2, 0) ] ++
  ([ (9, 3), (6, 2), (3, 0), (11, 10), (6, 19), (5, 11), (6, 17), (7, 11), (7, 7), (7, 1), (8, 10), (5, 8), (6, 11) ] ++
  [ (4, 2), (8, 15), (5, 14), (2, 1), (10, 11), (6, 12), (5, 14), (4, 3), (8, 11), (5, 15), (5, 15), (5, 15), (5, 15) ])

/-- INV_CHAIN, steps 40 to 78 (R101). -/
def chainTail : List (Nat × Nat) :=
  [ (5, 15), (5, 15), (5, 15), (5, 15), (5, 15), (5, 15), (5, 15), (5, 15), (5, 15), (5, 15), (5, 15), (5, 15), (5, 15) ] ++
  ([ (5, 15), (5, 15), (5, 15), (5, 15), (5, 15), (5, 15), (5, 15), (5, 15), (5, 15), (5, 15), (5, 15), (5, 15), (5, 15) ] ++
  [ (5, 15), (5, 15), (5, 15), (5, 15), (5, 15), (5, 15), (5, 15), (5, 15), (5, 15), (5, 15), (5, 15), (5, 15), (3, 2) ])

/-- INV_CHAIN (R101). -/
def chainSteps : List (Nat × Nat) := chainHead ++ chainTail

/-- k squarings (R102). -/
def sqrTimes : Nat → Nat → Nat
  | 0, acc => acc
  | k + 1, acc => sqrTimes k (montSqr acc)

/-- One step of the chain (R102). -/
def chainStep (table : List Nat) (acc : Nat) (kj : Nat × Nat) : Nat :=
  montMul (sqrTimes kj.1 acc) (table.getD kj.2 0)

/-- The inversion of x by any chain (R102, R104). -/
def fpInvWith (size start : Nat) (steps : List (Nat × Nat)) (x : Nat) : Nat :=
  steps.foldl (chainStep (powerTable size x)) ((powerTable size x).getD start 0)

/-- FpInv (R102), by the chain of R101. -/
def fpInv (x : Nat) : Nat := fpInvWith tableSize chainStart chainSteps x

/-- The exponent a chain computes (R101). -/
def chainExponent (start : Nat) (steps : List (Nat × Nat)) : Nat :=
  steps.foldl (fun e kj => e * 2 ^ kj.1 + (2 * kj.2 + 1)) (2 * start + 1)

/-- A chain is admissible (R104): its indices are in the table, it squares at least once a step, and its
exponent is p - 2. -/
def chainAdmissible (size start : Nat) (steps : List (Nat × Nat)) : Bool :=
  decide (start < size) && steps.all (fun kj => decide (kj.2 < size) && decide (1 ≤ kj.1))
    && chainExponent start steps == primeP - 2

/-! ## The GF(p) functions (44_fp_element R111 to R117) -/

/-- A value is a field element: in [0, 2p) (00_scope R18). -/
def inField (a : Nat) : Bool := decide (a < 2 * primeP)

/-- FpAdd (R111): (a + b) mod 2p. -/
def fpAdd (a b : Nat) : Nat := if 2 * primeP ≤ a + b then a + b - 2 * primeP else a + b

/-- FpSub (R112): (a - b) mod 2p. -/
def fpSub (a b : Nat) : Nat := if a < b then a + 2 * primeP - b else a - b

/-- FpNeg (R113): (2p - a) mod 2p. -/
def fpNeg (a : Nat) : Nat := (2 * primeP - a) % (2 * primeP)

/-- FpDiv2 (R114): p is added when a is odd. -/
def fpDiv2 (a : Nat) : Nat := (a + primeP * (a % 2)) / 2

/-- FpCorr (R115): p is subtracted when that does not borrow. -/
def fpCorr (a : Nat) : Nat := if a < primeP then a else a - primeP

/-- TOMONT's value (R116). -/
def toMont (a : Nat) : Nat := montMul a montR2

/-- FROMMONT's value (R117). -/
def fromMont (a : Nat) : Nat := fpCorr (montMul a 1)

/-! ## The GF(p²) products (45_fp2_element R128 to R130) -/

/-- Redc of m0 - m1, with p R added where that is negative (R128). -/
def redcDiff (m0 m1 : Nat) : Nat :=
  redc (if m0 < m1 then m0 + primeP * montR - m1 else m0 - m1)

/-- c0 of FP2MUL (R128): a0 b0 - a1 b1, reduced. -/
def fp2MulLo (a0 a1 b0 b1 : Nat) : Nat := redcDiff (a0 * b0) (a1 * b1)

/-- c1 of FP2MUL (R128): Redc of (a0 + a1)(b0 + b1) - a0 b0 - a1 b1. -/
def fp2MulHi (a0 a1 b0 b1 : Nat) : Nat :=
  redc ((a0 + a1) * (b0 + b1) - a0 * b0 - a1 * b1)

/-- c0 of FP2SQR (R129): Redc of (a0 + a1)(a0 - a1 + 4p). -/
def fp2SqrLo (a0 a1 : Nat) : Nat := redc ((a0 + a1) * (a0 + 4 * primeP - a1))

/-- c1 of FP2SQR (R129): Redc of 2 a0 a1. -/
def fp2SqrHi (a0 a1 : Nat) : Nat := redc ((a0 + a0) * a1)

/-- The inverse of the norm a0^2 + a1^2 (R130). -/
def fp2NormInv (a0 a1 : Nat) : Nat := fpInv (fpAdd (montSqr a0) (montSqr a1))

end Sys2Proof.Machine
end

