-- ==== Sys2Proof/Config.lean ====
section
/-! DEFINITION. What an implementation or the platform fixes (the OPEN parameters of 00_scope R12)
and the free values: constants without a body, of which nothing can be proved but that they exist.
The parameter INV_CHAIN is a table of Machine/Field.lean, as 43_inversion R101 gives it (log 12). -/

namespace Sys2Proof

/-- LAT(OP, S) less one (70_reset_and_hazards R166: LAT is an integer >= 1). It is given the opcode
and the size bit and nothing else, since R165 lets the latency depend on these only (log 8). -/
opaque Config.latencyLessOne : BitVec 6 → BitVec 1 → Nat

/-- LAT(OP, S), the clock cycles from acceptance to completion (R166): at least 1. -/
def Config.latency (op : BitVec 6) (size : BitVec 1) : Nat := Config.latencyLessOne op size + 1

/-- The number of the 8 KiB block of the host bus the window stands at (20_memory R40, log 10). -/
opaque Config.coreBlock : Nat

/-- CORE_BASE, the bus address of the window: a multiple of 0x2000 (R40). -/
def Config.coreBase : Nat := Config.coreBlock * 0x2000

/-- IRQ_LINE, the platform's interrupt line that IRQ drives (60_exceptions R142, log 11). -/
opaque Config.irqLine : Nat

/-- A free value of one element: what a source word that was never written reads as (10_state R23),
what a destination holds after a precondition violation (30_encoding R74). It is given the draw
counter `State.draws` (logs 2, 4, 5). -/
opaque Config.freeElem : Nat → Elem

/-- A free value of one bus word: what a host read returns where 60_exceptions R140 says the spec does
not give it (logs 2, 5). -/
opaque Config.freeWord : Nat → Word

/-- A free bit: whether a host write of an element word during a command lands, and the CARRY of a
command so disturbed (60_exceptions R140; log 5). -/
opaque Config.freeBit : Nat → Bool

end Sys2Proof
end

