-- ==== Sys2Proof/Syntax.lean ====
section
/-! DEFINITION. The commands of SIKE434-CORE, one constructor per row of spec/opcode_table.json
(30_encoding R63). Register operands are indices 0 to 63; whether an index stands for an element or a
pair follows from the command and its size (R61, R64). -/

namespace Sys2Proof

/-- The size field S (30_encoding R64): `w` is S = 0, 14 words; `d` is S = 1, 28 words. -/
inductive Size where
  | w
  | d
deriving DecidableEq, Repr

/-- One command (30_encoding R63). Operands stand in the order RD, RA, RB, K of R68, after the size
where the command has one. -/
inductive Instr where
  | nop
  | mpadd (sz : Size) (rd ra rb : RegIx)
  | mpsub (sz : Size) (rd ra rb : RegIx)
  | mpshl1 (sz : Size) (rd ra : RegIx)
  | mpshr1 (sz : Size) (rd ra : RegIx)
  | mpshlk (sz : Size) (rd ra : RegIx) (k : BitVec 5)
  | copy (sz : Size) (rd ra : RegIx)
  | zero (sz : Size) (rd : RegIx)
  | fpmul (rd ra rb : RegIx)
  | fpsqr (rd ra : RegIx)
  | fpinv (rd ra : RegIx)
  | fpadd (rd ra rb : RegIx)
  | fpsub (rd ra rb : RegIx)
  | fpneg (rd ra : RegIx)
  | fpdiv2 (rd ra : RegIx)
  | fpcorr (rd ra : RegIx)
  | tomont (rd ra : RegIx)
  | frommont (rd ra : RegIx)
  | fp2add (rd ra rb : RegIx)
  | fp2sub (rd ra rb : RegIx)
  | fp2neg (rd ra : RegIx)
  | fp2div2 (rd ra : RegIx)
  | fp2corr (rd ra : RegIx)
  | fp2tomont (rd ra : RegIx)
  | fp2frommont (rd ra : RegIx)
  | fp2mul (rd ra rb : RegIx)
  | fp2sqr (rd ra : RegIx)
  | fp2inv (rd ra : RegIx)
deriving DecidableEq, Repr

end Sys2Proof
end

