-- ==== Sys2Proof/WellFormed.lean ====
section
/-! DEFINITION. Which commands are legal (30_encoding R61, R62, R70): a pair operand is not at index 63,
and the shift amount of MPSHLK is 1 to 31. Everything else R70 checks cannot be written down as a term
of Instr (an unused field has no place in it). -/

namespace Sys2Proof

/-- There is a pair at n: 0 <= n <= 62 (10_state R22). -/
def RegIx.hasPair (n : RegIx) : Bool := n != 63#6

/-- An operand of kind N at index n is legal: any index for S = 0, a pair for S = 1 (R61). -/
def Size.admits (sz : Size) (n : RegIx) : Bool :=
  match sz with
  | .w => true
  | .d => RegIx.hasPair n

/-- The command is one the core accepts (30_encoding R70's checks of K and of the pair operands). -/
def Instr.wellFormed (i : Instr) : Bool :=
  match i with
  | .nop => true
  | .mpadd sz rd ra rb => sz.admits rd && sz.admits ra && sz.admits rb
  | .mpsub sz rd ra rb => sz.admits rd && sz.admits ra && sz.admits rb
  | .mpshl1 sz rd ra => sz.admits rd && sz.admits ra
  | .mpshr1 sz rd ra => sz.admits rd && sz.admits ra
  | .mpshlk sz rd ra k => sz.admits rd && sz.admits ra && k != 0#5
  | .copy sz rd ra => sz.admits rd && sz.admits ra
  | .zero sz rd => sz.admits rd
  | .fpmul _ _ _ => true
  | .fpsqr _ _ => true
  | .fpinv _ _ => true
  | .fpadd _ _ _ => true
  | .fpsub _ _ _ => true
  | .fpneg _ _ => true
  | .fpdiv2 _ _ => true
  | .fpcorr _ _ => true
  | .tomont _ _ => true
  | .frommont _ _ => true
  | .fp2add rd ra rb => RegIx.hasPair rd && RegIx.hasPair ra && RegIx.hasPair rb
  | .fp2sub rd ra rb => RegIx.hasPair rd && RegIx.hasPair ra && RegIx.hasPair rb
  | .fp2neg rd ra => RegIx.hasPair rd && RegIx.hasPair ra
  | .fp2div2 rd ra => RegIx.hasPair rd && RegIx.hasPair ra
  | .fp2corr rd ra => RegIx.hasPair rd && RegIx.hasPair ra
  | .fp2tomont rd ra => RegIx.hasPair rd && RegIx.hasPair ra
  | .fp2frommont rd ra => RegIx.hasPair rd && RegIx.hasPair ra
  | .fp2mul rd ra rb => RegIx.hasPair rd && RegIx.hasPair ra && RegIx.hasPair rb
  | .fp2sqr rd ra => RegIx.hasPair rd && RegIx.hasPair ra
  | .fp2inv rd ra => RegIx.hasPair rd && RegIx.hasPair ra

end Sys2Proof
end

