-- ==== Sys2Proof/Decode.lean ====
section
/-! DEFINITION. The command word: its fields (30_encoding R60), the opcode map (R63), the decoder (R70)
and, after it, the encoder written from the same map. -/

namespace Sys2Proof

/-- The fields of a command word (30_encoding R60). -/
structure Fields where
  op : BitVec 6
  rd : RegIx
  ra : RegIx
  rb : RegIx
  k : BitVec 5
  s : BitVec 1
  rsv : BitVec 2
deriving DecidableEq, Repr

/-- The two errors decoding can raise, by name (60_exceptions R136). -/
inductive DecodeError where
  /-- Code 1: OP is not a row of R63. Raised by decoding; safe (the spec's own behaviour). -/
  | illegalOpcode
  /-- Code 2: RSV nonzero, an unused field nonzero, MPSHLK with K = 0, or a pair operand at index 63.
  Raised by decoding; safe (the spec's own behaviour). -/
  | illegalField
deriving DecidableEq, Repr

/-- What a command uses a register field for (the kinds of R61 and R63; `unused` is the table's "-"). -/
inductive FieldUse where
  | unused
  | elem
  | pair
  | sized
deriving DecidableEq, Repr

/-- One row of the opcode map R63. -/
structure OpRow where
  op : BitVec 6
  rd : FieldUse
  ra : FieldUse
  rb : FieldUse
  usesK : Bool
  usesS : Bool
  build : Fields → Instr

/-- The fields of a command word (30_encoding R60). -/
def fieldsOfWord (c : Word) : Fields :=
  { op := c.extractLsb' 0 6
    rd := c.extractLsb' 6 6
    ra := c.extractLsb' 12 6
    rb := c.extractLsb' 18 6
    k := c.extractLsb' 24 5
    s := c.extractLsb' 29 1
    rsv := c.extractLsb' 30 2 }

/-- The size an S field means (R64). -/
def sizeOfBit (s : BitVec 1) : Size := if s = 0#1 then .w else .d

/-- Rows 0x00 to 0x07 of R63: the multiprecision primitives. -/
def opcodeRowsMp : List OpRow :=
  [ ⟨0x00, .unused, .unused, .unused, false, false, fun _ => .nop⟩,
    ⟨0x01, .sized, .sized, .sized, false, true, fun f => .mpadd (sizeOfBit f.s) f.rd f.ra f.rb⟩,
    ⟨0x02, .sized, .sized, .sized, false, true, fun f => .mpsub (sizeOfBit f.s) f.rd f.ra f.rb⟩,
    ⟨0x03, .sized, .sized, .unused, false, true, fun f => .mpshl1 (sizeOfBit f.s) f.rd f.ra⟩,
    ⟨0x04, .sized, .sized, .unused, false, true, fun f => .mpshr1 (sizeOfBit f.s) f.rd f.ra⟩,
    ⟨0x05, .sized, .sized, .unused, true, true, fun f => .mpshlk (sizeOfBit f.s) f.rd f.ra f.k⟩,
    ⟨0x06, .sized, .sized, .unused, false, true, fun f => .copy (sizeOfBit f.s) f.rd f.ra⟩,
    ⟨0x07, .sized, .unused, .unused, false, true, fun f => .zero (sizeOfBit f.s) f.rd⟩ ]

/-- Rows 0x10 to 0x1E of R63: multiplier, squarer, inverter and the GF(p) layer. -/
def opcodeRowsFp : List OpRow :=
  [ ⟨0x10, .elem, .elem, .elem, false, false, fun f => .fpmul f.rd f.ra f.rb⟩,
    ⟨0x11, .elem, .elem, .unused, false, false, fun f => .fpsqr f.rd f.ra⟩,
    ⟨0x12, .elem, .elem, .unused, false, false, fun f => .fpinv f.rd f.ra⟩,
    ⟨0x18, .elem, .elem, .elem, false, false, fun f => .fpadd f.rd f.ra f.rb⟩,
    ⟨0x19, .elem, .elem, .elem, false, false, fun f => .fpsub f.rd f.ra f.rb⟩,
    ⟨0x1A, .elem, .elem, .unused, false, false, fun f => .fpneg f.rd f.ra⟩,
    ⟨0x1B, .elem, .elem, .unused, false, false, fun f => .fpdiv2 f.rd f.ra⟩,
    ⟨0x1C, .elem, .elem, .unused, false, false, fun f => .fpcorr f.rd f.ra⟩,
    ⟨0x1D, .elem, .elem, .unused, false, false, fun f => .tomont f.rd f.ra⟩,
    ⟨0x1E, .elem, .elem, .unused, false, false, fun f => .frommont f.rd f.ra⟩ ]

/-- Rows 0x20 to 0x2A of R63: the GF(p²) layer. -/
def opcodeRowsFp2 : List OpRow :=
  [ ⟨0x20, .pair, .pair, .pair, false, false, fun f => .fp2add f.rd f.ra f.rb⟩,
    ⟨0x21, .pair, .pair, .pair, false, false, fun f => .fp2sub f.rd f.ra f.rb⟩,
    ⟨0x22, .pair, .pair, .unused, false, false, fun f => .fp2neg f.rd f.ra⟩,
    ⟨0x23, .pair, .pair, .unused, false, false, fun f => .fp2div2 f.rd f.ra⟩,
    ⟨0x24, .pair, .pair, .unused, false, false, fun f => .fp2corr f.rd f.ra⟩,
    ⟨0x25, .pair, .pair, .unused, false, false, fun f => .fp2tomont f.rd f.ra⟩,
    ⟨0x26, .pair, .pair, .unused, false, false, fun f => .fp2frommont f.rd f.ra⟩,
    ⟨0x28, .pair, .pair, .pair, false, false, fun f => .fp2mul f.rd f.ra f.rb⟩,
    ⟨0x29, .pair, .pair, .unused, false, false, fun f => .fp2sqr f.rd f.ra⟩,
    ⟨0x2A, .pair, .pair, .unused, false, false, fun f => .fp2inv f.rd f.ra⟩ ]

/-- The opcode map (R63). -/
def opcodeRows : List OpRow := opcodeRowsMp ++ (opcodeRowsFp ++ opcodeRowsFp2)

/-- The row of an opcode; none for the illegal ones (R66). -/
def opcodeRow (op : BitVec 6) : Option OpRow := opcodeRows.find? (fun r => r.op == op)

/-- A register field may hold this value: 0 where it is unused (R65), not 63 where it names a pair
(R61, R70). -/
def FieldUse.allows (u : FieldUse) (s : BitVec 1) (n : RegIx) : Bool :=
  match u with
  | .unused => n == 0#6
  | .elem => true
  | .pair => RegIx.hasPair n
  | .sized => (sizeOfBit s).admits n

/-- Every check of R70 that raises code 2: RSV, the unused fields, K of MPSHLK, pairs past F63. -/
def OpRow.allows (r : OpRow) (f : Fields) : Bool :=
  f.rsv == 0#2
    && r.rd.allows f.s f.rd && r.ra.allows f.s f.ra && r.rb.allows f.s f.rb
    && (if r.usesK then f.k != 0#5 else f.k == 0#5)
    && (r.usesS || f.s == 0#1)

/-- Decoding of the fields of a command word (R70): code 1 before code 2 (60_exceptions R144). -/
def decodeFields (f : Fields) : Except DecodeError Instr :=
  match opcodeRow f.op with
  | none => .error .illegalOpcode
  | some r => if r.allows f then .ok (r.build f) else .error .illegalField

/-- Decoding of a command word (30_encoding R70). -/
def decode (c : Word) : Except DecodeError Instr := decodeFields (fieldsOfWord c)

/-- The command a bus word of the given bits is, in the numbering of spec/opcode_table.json. Every
command is one 32-bit word (R67), so the bits are the command word itself. -/
def decodeTableWord (_nbits w : Nat) : Option Instr :=
  match decode (BitVec.ofNat 32 w) with
  | .ok i => some i
  | .error _ => none

/-- The command word of its fields (R60). -/
def wordOfFields (f : Fields) : Word :=
  f.rsv ++ f.s ++ f.k ++ f.rb ++ f.ra ++ f.rd ++ f.op

/-- The S field of a size (R64). -/
def bitOfSize (sz : Size) : BitVec 1 :=
  match sz with
  | .w => 0#1
  | .d => 1#1

/-- The fields a command is written with: the opcode of R63, 0 in every unused field (R65). -/
def fieldsOf (i : Instr) : Fields :=
  match i with
  | .nop => ⟨0x00, 0, 0, 0, 0, 0, 0⟩
  | .mpadd sz rd ra rb => ⟨0x01, rd, ra, rb, 0, bitOfSize sz, 0⟩
  | .mpsub sz rd ra rb => ⟨0x02, rd, ra, rb, 0, bitOfSize sz, 0⟩
  | .mpshl1 sz rd ra => ⟨0x03, rd, ra, 0, 0, bitOfSize sz, 0⟩
  | .mpshr1 sz rd ra => ⟨0x04, rd, ra, 0, 0, bitOfSize sz, 0⟩
  | .mpshlk sz rd ra k => ⟨0x05, rd, ra, 0, k, bitOfSize sz, 0⟩
  | .copy sz rd ra => ⟨0x06, rd, ra, 0, 0, bitOfSize sz, 0⟩
  | .zero sz rd => ⟨0x07, rd, 0, 0, 0, bitOfSize sz, 0⟩
  | .fpmul rd ra rb => ⟨0x10, rd, ra, rb, 0, 0, 0⟩
  | .fpsqr rd ra => ⟨0x11, rd, ra, 0, 0, 0, 0⟩
  | .fpinv rd ra => ⟨0x12, rd, ra, 0, 0, 0, 0⟩
  | .fpadd rd ra rb => ⟨0x18, rd, ra, rb, 0, 0, 0⟩
  | .fpsub rd ra rb => ⟨0x19, rd, ra, rb, 0, 0, 0⟩
  | .fpneg rd ra => ⟨0x1A, rd, ra, 0, 0, 0, 0⟩
  | .fpdiv2 rd ra => ⟨0x1B, rd, ra, 0, 0, 0, 0⟩
  | .fpcorr rd ra => ⟨0x1C, rd, ra, 0, 0, 0, 0⟩
  | .tomont rd ra => ⟨0x1D, rd, ra, 0, 0, 0, 0⟩
  | .frommont rd ra => ⟨0x1E, rd, ra, 0, 0, 0, 0⟩
  | .fp2add rd ra rb => ⟨0x20, rd, ra, rb, 0, 0, 0⟩
  | .fp2sub rd ra rb => ⟨0x21, rd, ra, rb, 0, 0, 0⟩
  | .fp2neg rd ra => ⟨0x22, rd, ra, 0, 0, 0, 0⟩
  | .fp2div2 rd ra => ⟨0x23, rd, ra, 0, 0, 0, 0⟩
  | .fp2corr rd ra => ⟨0x24, rd, ra, 0, 0, 0, 0⟩
  | .fp2tomont rd ra => ⟨0x25, rd, ra, 0, 0, 0, 0⟩
  | .fp2frommont rd ra => ⟨0x26, rd, ra, 0, 0, 0, 0⟩
  | .fp2mul rd ra rb => ⟨0x28, rd, ra, rb, 0, 0, 0⟩
  | .fp2sqr rd ra => ⟨0x29, rd, ra, 0, 0, 0, 0⟩
  | .fp2inv rd ra => ⟨0x2A, rd, ra, 0, 0, 0, 0⟩

/-- The command word of a command (R60, R63). -/
def encode (i : Instr) : Word := wordOfFields (fieldsOf i)

/-- The opcode of a command (R63). -/
def Instr.opcode (i : Instr) : BitVec 6 := (fieldsOf i).op

/-- The S field of a command (R64; 0 where the command has none). -/
def Instr.sizeBit (i : Instr) : BitVec 1 := (fieldsOf i).s

end Sys2Proof
end

