-- ==== Sys2Proof/Machine/State.lean ====
section
/-! DEFINITION. The state of SIKE434-CORE as plain data (10_state R20 to R39), the reasons a step can
stop, and the state after reset. Constants (ID, P_ROM, R2_ROM, the internal tables) are no state; they
are definitions of Machine/Field.lean and Machine/Window.lean. -/

namespace Sys2Proof.Machine

/-- The width of a host access (20_memory R46). Only `bits32` is legal. -/
inductive AccessWidth where
  | bits8
  | bits16
  | bits32
  | bits64
deriving DecidableEq, Repr

/-- One host access to the window (20_memory R40, R46). The data of a write that is not 32 bits wide
never reaches the core (log 22). -/
inductive HostAccess where
  | read (width : AccessWidth) (off : Offset)
  | write (width : AccessWidth) (off : Offset) (v : Word)
deriving DecidableEq, Repr

/-- What moves next besides the core itself (60_exceptions R145; logs 7, 16): a host access, a clock
cycle without one, or RESET asserted and deasserted. -/
inductive HostEvent where
  | access (a : HostAccess)
  | cycle
  | reset
deriving DecidableEq, Repr

/-- What the bus answered to the last host access (20_memory R42, R43, R46; log 17). -/
inductive BusResponse where
  /-- No access since reset. -/
  | none
  /-- A read's data. -/
  | data (v : Word)
  /-- A write was taken (stored or ignored). -/
  | accepted
  /-- A bus error response (R46). -/
  | busError
deriving DecidableEq, Repr

/-- A record of the model-only fault set (60_exceptions R140). None of them stops the machine. -/
inductive FaultRecord where
  /-- A command or the host read word w of register n, which nothing had written (R23). -/
  | uninitRead (n : RegIx) (w : Nat)
  /-- A latched source value violates the precondition of the command with this opcode (30_encoding R74). -/
  | preconditionViolation (op : BitVec 6)
  /-- The host accessed this element-file offset while BUSY = 1 (70_reset_and_hazards R160). -/
  | hostAccessWhileBusy (off : Offset)
  /-- The host's access was not an aligned 32-bit one (20_memory R46). -/
  | hostBusFault (off : Offset) (width : AccessWidth)
deriving DecidableEq, Repr

/-- The source values a command latches at acceptance (30_encoding R72): RA's and RB's, an element
zero-extended, a pair F[n+1] : F[n]; 0 for an operand the command does not have. -/
structure Latch where
  a : Wide
  b : Wide
deriving DecidableEq, Repr

/-- The pending-command record (10_state R36). `remaining` is the remaining latency count.
`disturbed` is the model's own: the host wrote the element file while this command ran, so that its
result is not given (60_exceptions R140; log 5). -/
structure Pending where
  instr : Instr
  latch : Latch
  remaining : Nat
  disturbed : Bool
deriving DecidableEq, Repr

/-- The state of the machine. BUSY is `pending.isSome` (10_state R36; log 9); IRQ is computed
(60_exceptions R142). `draws`, `host` and `response` are the model's own (logs 3, 7, 17). -/
structure State where
  /-- F0 to F63 (R21). -/
  regs : Vector Elem 64
  /-- The written mark of every word of every register (R23). -/
  written : Vector Marks 64
  /-- CTRL.IE (R28). -/
  ie : Bool
  /-- STATUS.DONE (R29). -/
  done : Bool
  /-- STATUS.ERR (R29). -/
  err : Bool
  /-- STATUS.ERRCODE (R29). -/
  errCode : BitVec 4
  /-- STATUS.CARRY (R26). -/
  carry : Bool
  /-- CMD_LAST (R31). -/
  cmdLast : Word
  /-- The pending-command record (R36). -/
  pending : Option Pending
  /-- The model-only fault set (R38): no record twice (log 18). -/
  faults : List FaultRecord
  /-- How many free values have been drawn. -/
  draws : Nat
  /-- What the host and the clock still do, the next first. -/
  host : List HostEvent
  /-- The bus's answer to the last host access. -/
  response : BusResponse
deriving DecidableEq, Repr

/-- The reasons a step can stop with a fault: none. The core raises no trap and no exception
(60_exceptions R135); it reports command errors in STATUS, and the model-only faults of R140 are
records of the fault set after which the model goes on (R141; log 6). -/
inductive Fault where
deriving DecidableEq, Repr

/-- The reasons an instruction has no meaning here. -/
inductive Refusal where
  /-- The command has no meaning in the model yet. Raised by exec only; safe. No arm of exec raises it. -/
  | notModelled (mnemonic : String)
deriving DecidableEq, Repr

/-- The machine right after reset (10_state R39): idle, every status bit and CMD_LAST 0, every written
mark clear, no fault recorded. R39 gives the element words no value: they are 0 here (DESIGN CHOICE,
log 1), which no read shows, since every mark is clear. No host event is there (DESIGN CHOICE, log 7). -/
def State.reset : State :=
  { regs := Vector.replicate 64 0
    written := Vector.replicate 64 0
    ie := false
    done := false
    err := false
    errCode := 0
    carry := false
    cmdLast := 0
    pending := none
    faults := []
    draws := 0
    host := []
    response := .none }

end Sys2Proof.Machine
end

