-- ==== Sys2Proof/Machine/Ops.lean ====
section
/-! DEFINITION. The named operations on the state: words of an element, the element register file, the
written marks, the fault set, the free values, and what the core does about a command error. -/

namespace Sys2Proof.Machine

/-! ## Words of an element (20_memory R44) -/

/-- Word w of an element: bits 32w+31 to 32w. -/
def wordOf (v : Elem) (w : Nat) : Word := v.extractLsb' (32 * w) 32

/-- The bits of word w of an element. -/
def wordMask (w : Nat) : Elem := (BitVec.allOnes 32).setWidth 448 <<< (32 * w)

/-- An element with its word w replaced. -/
def withWord (v : Elem) (w : Nat) (x : Word) : Elem :=
  (v &&& ~~~wordMask w) ||| (x.setWidth 448 <<< (32 * w))

/-- The words whose mark is set from v, the others from f. -/
def selectWords (m : Marks) (v f : Elem) : Elem :=
  (List.range 14).foldl (fun acc w => if m.getLsbD w then acc else withWord acc w (wordOf f w)) v

/-- The low half of a pair's value: Fn of the pair (10_state R22). -/
def loHalf (v : Wide) : Elem := v.extractLsb' 0 448

/-- The high half of a pair's value: Fn+1 of the pair (10_state R22). -/
def hiHalf (v : Wide) : Elem := v.extractLsb' 448 448

/-! ## The element register file (10_state R21, R23) -/

/-- F[n] as stored (00_scope R15). -/
def State.elem (s : State) (n : RegIx) : Elem := s.regs[n.toNat]'n.isLt

/-- The written marks of Fn (R23). -/
def State.marks (s : State) (n : RegIx) : Marks := s.written[n.toNat]'n.isLt

/-- Every word of Fn has been written. -/
def State.elemWritten (s : State) (n : RegIx) : Bool := s.marks n == BitVec.allOnes 14

/-- F[n] <- v, which marks the 14 words written (R15, R23). -/
def State.writeElem (s : State) (n : RegIx) (v : Elem) : State :=
  { s with
    regs := s.regs.set n.toNat v n.isLt
    written := s.written.set n.toNat (BitVec.allOnes 14) n.isLt }

/-- EF[n][w] <- x, which marks the word written (20_memory R42). -/
def State.writeWord (s : State) (n : RegIx) (w : Nat) (x : Word) : State :=
  { s with
    regs := s.regs.set n.toNat (withWord (s.elem n) w x) n.isLt
    written := s.written.set n.toNat (s.marks n ||| (1#14 <<< w)) n.isLt }

/-- What a command reads from Fn: the stored word where it has been written, a free value where it has
not (10_state R23, 93_implementation_defined U4; log 2). `k` is the number of the draw. -/
def State.readElem (s : State) (n : RegIx) (k : Nat) : Elem :=
  selectWords (s.marks n) (s.elem n) (Config.freeElem k)

/-! ## STATUS.BUSY and the fault set -/

/-- STATUS.BUSY (10_state R29): 1 exactly while a command is pending (R36; log 9). -/
def State.busy (s : State) : Bool := s.pending.isSome

/-- Records a fault in the fault set (10_state R38: records are only added; log 18). -/
def State.record (s : State) (r : FaultRecord) : State :=
  { s with faults := if s.faults.contains r then s.faults else s.faults ++ [r] }

/-- Records each of the faults, in order. -/
def State.recordAll (s : State) (rs : List FaultRecord) : State := rs.foldl State.record s

/-- The UninitRead records a read of all of Fn raises: one for each unwritten word (60_exceptions R144). -/
def State.uninitOf (s : State) (n : RegIx) : List FaultRecord :=
  (List.range 14).filterMap
    (fun w => if (s.marks n).getLsbD w then none else some (.uninitRead n w))

/-! ## Command errors: what this hardware has in the place of exceptions (60_exceptions R135 to R139) -/

/-- Sets ERR and, if ERR was 0, ERRCODE: the first error's code is kept (R139). -/
def State.raiseError (s : State) (code : BitVec 4) : State :=
  { s with
    errCode := if s.err then s.errCode else code
    err := true }

/-- The code of a decoding error (R136). -/
def errorCode (e : DecodeError) : BitVec 4 :=
  match e with
  | .illegalOpcode => 1#4
  | .illegalField => 2#4

/-- CmdErrorResponse (R137): ERR, ERRCODE, and DONE, since nothing will run; nothing else. -/
def commandError (e : DecodeError) (s : State) : State :=
  { s.raiseError (errorCode e) with done := true }

/-- BusyReject (R138): ERR and ERRCODE; the word is discarded, the running command goes on. -/
def busyReject (s : State) : State := s.raiseError 3#4

/-- The host's write of 1 to STATUS bits (10_state R30): v[1] clears DONE, v[2] clears ERR and ERRCODE. -/
def clearStatus (v : Word) (s : State) : State :=
  { s with
    done := s.done && !v.getLsbD 1
    err := s.err && !v.getLsbD 2
    errCode := if v.getLsbD 2 then 0#4 else s.errCode }

/-- RESET asserted and deasserted (70_reset_and_hazards R155, R156): every piece of state takes its
reset value, a pending command is abandoned. What the host does afterwards and the count of free values
are no state of the core and go on (log 16). -/
def assertReset (s : State) : State := { State.reset with host := s.host, draws := s.draws }

end Sys2Proof.Machine
end

