-- ==== Sys2Proof/Machine/Operands.lean ====
section
/-! DEFINITION. Operand forms (30_encoding R61, R64; 00_scope R15): elements and pairs, how a command
reads its sources and writes its destination. -/

namespace Sys2Proof.Machine

/-- The kind of an operand (R61): E, an element, or P, a pair. -/
inductive Kind where
  | elem
  | pair
deriving DecidableEq, Repr

/-- A register operand. -/
structure Operand where
  kind : Kind
  index : RegIx
deriving DecidableEq, Repr

/-- An operand of kind E (R61). -/
def elemAt (n : RegIx) : Operand := ⟨.elem, n⟩

/-- An operand of kind P (R61). -/
def pairAt (n : RegIx) : Operand := ⟨.pair, n⟩

/-- An operand of kind N: E for S = 0, P for S = 1 (R61, R64). -/
def sizedAt (sz : Size) (n : RegIx) : Operand :=
  match sz with
  | .w => elemAt n
  | .d => pairAt n

/-- The bits of an operand of kind N: 32 times N (R64: N = 14 or 28). -/
def sizeBits (sz : Size) : Nat :=
  match sz with
  | .w => 448
  | .d => 896

/-- Src(n, N) (00_scope R15): the value of a source operand, zero-extended if it is an element. Each
element read takes one draw for its unwritten words, the first numbered `k` (log 2). -/
def State.readOperand (s : State) (o : Operand) (k : Nat) : Wide :=
  match o.kind with
  | .elem => (s.readElem o.index k).setWidth 896
  | .pair => s.readElem (o.index + 1#6) (k + 1) ++ s.readElem o.index k

/-- Src of an operand a command may lack (0 if it does). -/
def State.readSource (s : State) (o : Option Operand) (k : Nat) : Wide :=
  match o with
  | none => 0
  | some o => s.readOperand o k

/-- Dst(n, N) <- v (00_scope R15): writes the element, or Fn and Fn+1. -/
def State.writeOperand (s : State) (o : Operand) (v : Wide) : State :=
  match o.kind with
  | .elem => s.writeElem o.index (loHalf v)
  | .pair => (s.writeElem o.index (loHalf v)).writeElem (o.index + 1#6) (hiHalf v)

/-- Dst of an operand a command may lack (nothing is written if it does). -/
def State.writeDest (s : State) (o : Option Operand) (v : Wide) : State :=
  match o with
  | none => s
  | some o => s.writeOperand o v

/-- The UninitRead records of reading a source operand (30_encoding R72: one for each unwritten word). -/
def State.uninitOperand (s : State) (o : Option Operand) : List FaultRecord :=
  match o with
  | none => []
  | some o =>
    match o.kind with
    | .elem => s.uninitOf o.index
    | .pair => s.uninitOf o.index ++ s.uninitOf (o.index + 1#6)

end Sys2Proof.Machine
end

