-- ==== Sys2Proof/Machine/Command.lean ====
section
/-! DEFINITION. The life of a command after its decoding (30_encoding R72 to R74): acceptance and
completion, once for all commands. A command's own rule says only what it reads, what it writes, its
precondition and its results (the structure Command); `runCommand` is the meaning that makes of it. -/

namespace Sys2Proof.Machine

/-- What the rule of a command computes from the latched sources: the destination's value (only the
low 448 bits count for an element), and CARRY for the commands that write it (10_state R26). -/
structure Result where
  value : Wide
  carry : Option Bool
deriving DecidableEq, Repr

/-- A command as its rule in 41 to 45 gives it: operands, precondition, results. -/
structure Command where
  instr : Instr
  dst : Option Operand
  srcA : Option Operand
  srcB : Option Operand
  legal : Latch → Bool
  result : Latch → Result

/-- The draws an acceptance uses: one for each of the at most four elements latched (log 3). -/
def acceptDraws : Nat := 4

/-- The draws a completion uses: one for each of the at most two elements written (log 3). -/
def completeDraws : Nat := 2

/-- The source values at acceptance (R72; 20_memory R51). -/
def latchOf (c : Command) (s : State) : Latch :=
  { a := s.readSource c.srcA s.draws
    b := s.readSource c.srcB (s.draws + 2) }

/-- Acceptance (R72): UninitRead records, the latch, then the PreconditionViolation record (the order of
60_exceptions R144); the command becomes pending, so BUSY <- 1; DONE <- 0. No destination is written;
ERR, ERRCODE and CARRY are unchanged. -/
def accept (c : Command) (s : State) : State :=
  let latch := latchOf c s
  let s₁ := s.recordAll (s.uninitOperand c.srcA ++ s.uninitOperand c.srcB)
  let s₂ := if c.legal latch then s₁ else s₁.record (.preconditionViolation c.instr.opcode)
  { s₂ with
    pending := some
      { instr := c.instr
        latch := latch
        remaining := Config.latency c.instr.opcode c.instr.sizeBit
        disturbed := false }
    done := false
    draws := s.draws + acceptDraws }

/-- The spec gives the results of this pending command: its precondition holds (R74) and no host write
disturbed it (60_exceptions R140). -/
def resultGiven (c : Command) (p : Pending) : Bool := c.legal p.latch && !p.disturbed

/-- A free value for a destination (log 4). -/
def freeWide (k : Nat) : Wide := Config.freeElem (k + 1) ++ Config.freeElem k

/-- The results a completion writes: those of the command's rule, or free values where the spec gives
none (R74; logs 4, 5). A command that does not write CARRY does not write it then either. -/
def resultsOf (c : Command) (p : Pending) (k : Nat) : Result :=
  if resultGiven c p then c.result p.latch
  else
    { value := freeWide k
      carry := (c.result p.latch).carry.map (fun _ => Config.freeBit k) }

/-- Completion (R73), one step: the destination and its marks, CARRY where the command writes it,
BUSY <- 0, DONE <- 1. -/
def complete (c : Command) (p : Pending) (s : State) : State :=
  let r := resultsOf c p s.draws
  { s.writeDest c.dst r.value with
    carry := r.carry.getD s.carry
    pending := none
    done := true
    draws := s.draws + completeDraws }

/-- What the core does for a command c (log 15): when idle it accepts it (R72), or, for a term that is
no legal command, raises IllegalField (R70); when c is the pending command it completes it (R73); when
another command is pending c is turned away (60_exceptions R138, R144). -/
def runCommand (c : Command) (s : State) : Host.Outcome State Fault Refusal :=
  match s.pending with
  | none => if c.instr.wellFormed then .next (accept c s) else .next (commandError .illegalField s)
  | some p => if p.instr = c.instr then .next (complete c p s) else .next (busyReject s)

/-! ## The parts of a latch and the shapes of precondition and result the rules use -/

/-- F[RA], or the component a0 of a pair at RA (00_scope R15). -/
def latchA0 (l : Latch) : Nat := (loHalf l.a).toNat

/-- The component a1 of a pair at RA. -/
def latchA1 (l : Latch) : Nat := (hiHalf l.a).toNat

/-- F[RB], or the component b0 of a pair at RB. -/
def latchB0 (l : Latch) : Nat := (loHalf l.b).toNat

/-- The component b1 of a pair at RB. -/
def latchB1 (l : Latch) : Nat := (hiHalf l.b).toNat

/-- A command without a precondition (41_multiprecision: "No multiprecision command has a precondition
on its values"). -/
def noPrecondition (_ : Latch) : Bool := true

/-- Precondition of the GF(p) commands with one source (44_fp_element R110). -/
def fieldA (l : Latch) : Bool := inField (latchA0 l)

/-- Precondition of the GF(p) commands with two sources (R110). -/
def fieldAB (l : Latch) : Bool := inField (latchA0 l) && inField (latchB0 l)

/-- Precondition of the GF(p²) commands with one source (45_fp2_element R120). -/
def fieldPairA (l : Latch) : Bool := inField (latchA0 l) && inField (latchA1 l)

/-- Precondition of the GF(p²) commands with two sources (R120). -/
def fieldPairAB (l : Latch) : Bool :=
  inField (latchA0 l) && inField (latchA1 l) && inField (latchB0 l) && inField (latchB1 l)

/-- A result that leaves CARRY alone. -/
def valueResult (v : Nat) : Result := { value := BitVec.ofNat 896 v, carry := none }

/-- A result with CARRY (MPADD and MPSUB only, 10_state R26). -/
def carryResult (v : Nat) (c : Bool) : Result := { value := BitVec.ofNat 896 v, carry := some c }

/-- A GF(p²) result: c0 goes to F[RD], c1 to F[RD+1] (00_scope R15). -/
def pairResult (c0 c1 : Nat) : Result :=
  { value := BitVec.ofNat 448 c1 ++ BitVec.ofNat 448 c0, carry := none }

end Sys2Proof.Machine
end

