-- ==== Sys2Proof/Machine/Fp2Element.lean ====
section
/-! DEFINITION. The GF(p²) element layer (45_fp2_element R120 to R130). -/

namespace Sys2Proof.Machine

/-- FP2ADD (45_fp2_element R121): FpAdd of each component. -/
def fp2addCommand (rd ra rb : RegIx) : Command :=
  { instr := .fp2add rd ra rb
    dst := some (pairAt rd)
    srcA := some (pairAt ra)
    srcB := some (pairAt rb)
    legal := fieldPairAB
    result := fun l => pairResult (fpAdd (latchA0 l) (latchB0 l)) (fpAdd (latchA1 l) (latchB1 l)) }

/-- The meaning of FP2ADD. -/
def execFp2add (rd ra rb : RegIx) (s : State) : Host.Outcome State Fault Refusal :=
  runCommand (fp2addCommand rd ra rb) s

/-- FP2SUB (45_fp2_element R122): FpSub of each component. -/
def fp2subCommand (rd ra rb : RegIx) : Command :=
  { instr := .fp2sub rd ra rb
    dst := some (pairAt rd)
    srcA := some (pairAt ra)
    srcB := some (pairAt rb)
    legal := fieldPairAB
    result := fun l => pairResult (fpSub (latchA0 l) (latchB0 l)) (fpSub (latchA1 l) (latchB1 l)) }

/-- The meaning of FP2SUB. -/
def execFp2sub (rd ra rb : RegIx) (s : State) : Host.Outcome State Fault Refusal :=
  runCommand (fp2subCommand rd ra rb) s

/-- FP2NEG (45_fp2_element R123): FpNeg of each component. -/
def fp2negCommand (rd ra : RegIx) : Command :=
  { instr := .fp2neg rd ra
    dst := some (pairAt rd)
    srcA := some (pairAt ra)
    srcB := none
    legal := fieldPairA
    result := fun l => pairResult (fpNeg (latchA0 l)) (fpNeg (latchA1 l)) }

/-- The meaning of FP2NEG. -/
def execFp2neg (rd ra : RegIx) (s : State) : Host.Outcome State Fault Refusal :=
  runCommand (fp2negCommand rd ra) s

/-- FP2DIV2 (45_fp2_element R124): FpDiv2 of each component. -/
def fp2div2Command (rd ra : RegIx) : Command :=
  { instr := .fp2div2 rd ra
    dst := some (pairAt rd)
    srcA := some (pairAt ra)
    srcB := none
    legal := fieldPairA
    result := fun l => pairResult (fpDiv2 (latchA0 l)) (fpDiv2 (latchA1 l)) }

/-- The meaning of FP2DIV2. -/
def execFp2div2 (rd ra : RegIx) (s : State) : Host.Outcome State Fault Refusal :=
  runCommand (fp2div2Command rd ra) s

/-- FP2CORR (45_fp2_element R125): FpCorr of each component. -/
def fp2corrCommand (rd ra : RegIx) : Command :=
  { instr := .fp2corr rd ra
    dst := some (pairAt rd)
    srcA := some (pairAt ra)
    srcB := none
    legal := fieldPairA
    result := fun l => pairResult (fpCorr (latchA0 l)) (fpCorr (latchA1 l)) }

/-- The meaning of FP2CORR. -/
def execFp2corr (rd ra : RegIx) (s : State) : Host.Outcome State Fault Refusal :=
  runCommand (fp2corrCommand rd ra) s

/-- FP2TOMONT (45_fp2_element R126): TOMONT of each component. -/
def fp2tomontCommand (rd ra : RegIx) : Command :=
  { instr := .fp2tomont rd ra
    dst := some (pairAt rd)
    srcA := some (pairAt ra)
    srcB := none
    legal := fieldPairA
    result := fun l => pairResult (toMont (latchA0 l)) (toMont (latchA1 l)) }

/-- The meaning of FP2TOMONT. -/
def execFp2tomont (rd ra : RegIx) (s : State) : Host.Outcome State Fault Refusal :=
  runCommand (fp2tomontCommand rd ra) s

/-- FP2FROMMONT (45_fp2_element R127): FROMMONT of each component. -/
def fp2frommontCommand (rd ra : RegIx) : Command :=
  { instr := .fp2frommont rd ra
    dst := some (pairAt rd)
    srcA := some (pairAt ra)
    srcB := none
    legal := fieldPairA
    result := fun l => pairResult (fromMont (latchA0 l)) (fromMont (latchA1 l)) }

/-- The meaning of FP2FROMMONT. -/
def execFp2frommont (rd ra : RegIx) (s : State) : Host.Outcome State Fault Refusal :=
  runCommand (fp2frommontCommand rd ra) s

/-- FP2MUL (45_fp2_element R128): Karatsuba, one reduction a component. -/
def fp2mulCommand (rd ra rb : RegIx) : Command :=
  { instr := .fp2mul rd ra rb
    dst := some (pairAt rd)
    srcA := some (pairAt ra)
    srcB := some (pairAt rb)
    legal := fieldPairAB
    result := fun l => pairResult (fp2MulLo (latchA0 l) (latchA1 l) (latchB0 l) (latchB1 l))
      (fp2MulHi (latchA0 l) (latchA1 l) (latchB0 l) (latchB1 l)) }

/-- The meaning of FP2MUL. -/
def execFp2mul (rd ra rb : RegIx) (s : State) : Host.Outcome State Fault Refusal :=
  runCommand (fp2mulCommand rd ra rb) s

/-- FP2SQR (45_fp2_element R129): complex squaring. -/
def fp2sqrCommand (rd ra : RegIx) : Command :=
  { instr := .fp2sqr rd ra
    dst := some (pairAt rd)
    srcA := some (pairAt ra)
    srcB := none
    legal := fieldPairA
    result := fun l => pairResult (fp2SqrLo (latchA0 l) (latchA1 l)) (fp2SqrHi (latchA0 l) (latchA1 l)) }

/-- The meaning of FP2SQR. -/
def execFp2sqr (rd ra : RegIx) (s : State) : Host.Outcome State Fault Refusal :=
  runCommand (fp2sqrCommand rd ra) s

/-- FP2INV (45_fp2_element R130): norm, inversion, two products; the element is not 0 mod p. -/
def fp2invCommand (rd ra : RegIx) : Command :=
  { instr := .fp2inv rd ra
    dst := some (pairAt rd)
    srcA := some (pairAt ra)
    srcB := none
    legal := fun l => fieldPairA l && !(latchA0 l % primeP == 0 && latchA1 l % primeP == 0)
    result := fun l => pairResult (montMul (latchA0 l) (fp2NormInv (latchA0 l) (latchA1 l)))
      (montMul (fpNeg (latchA1 l)) (fp2NormInv (latchA0 l) (latchA1 l))) }

/-- The meaning of FP2INV. -/
def execFp2inv (rd ra : RegIx) (s : State) : Host.Outcome State Fault Refusal :=
  runCommand (fp2invCommand rd ra) s

end Sys2Proof.Machine
end

