-- ==== Sys2Proof/Machine/FpElement.lean ====
section
/-! DEFINITION. The GF(p) element layer (44_fp_element R110 to R117). -/

namespace Sys2Proof.Machine

/-- FPADD (44_fp_element R111). -/
def fpaddCommand (rd ra rb : RegIx) : Command :=
  { instr := .fpadd rd ra rb
    dst := some (elemAt rd)
    srcA := some (elemAt ra)
    srcB := some (elemAt rb)
    legal := fieldAB
    result := fun l => valueResult (fpAdd (latchA0 l) (latchB0 l)) }

/-- The meaning of FPADD. -/
def execFpadd (rd ra rb : RegIx) (s : State) : Host.Outcome State Fault Refusal :=
  runCommand (fpaddCommand rd ra rb) s

/-- FPSUB (44_fp_element R112); its borrow is not reported. -/
def fpsubCommand (rd ra rb : RegIx) : Command :=
  { instr := .fpsub rd ra rb
    dst := some (elemAt rd)
    srcA := some (elemAt ra)
    srcB := some (elemAt rb)
    legal := fieldAB
    result := fun l => valueResult (fpSub (latchA0 l) (latchB0 l)) }

/-- The meaning of FPSUB. -/
def execFpsub (rd ra rb : RegIx) (s : State) : Host.Outcome State Fault Refusal :=
  runCommand (fpsubCommand rd ra rb) s

/-- FPNEG (44_fp_element R113); 0 maps to 0. -/
def fpnegCommand (rd ra : RegIx) : Command :=
  { instr := .fpneg rd ra
    dst := some (elemAt rd)
    srcA := some (elemAt ra)
    srcB := none
    legal := fieldA
    result := fun l => valueResult (fpNeg (latchA0 l)) }

/-- The meaning of FPNEG. -/
def execFpneg (rd ra : RegIx) (s : State) : Host.Outcome State Fault Refusal :=
  runCommand (fpnegCommand rd ra) s

/-- FPDIV2 (44_fp_element R114). -/
def fpdiv2Command (rd ra : RegIx) : Command :=
  { instr := .fpdiv2 rd ra
    dst := some (elemAt rd)
    srcA := some (elemAt ra)
    srcB := none
    legal := fieldA
    result := fun l => valueResult (fpDiv2 (latchA0 l)) }

/-- The meaning of FPDIV2. -/
def execFpdiv2 (rd ra : RegIx) (s : State) : Host.Outcome State Fault Refusal :=
  runCommand (fpdiv2Command rd ra) s

/-- FPCORR (44_fp_element R115): the representative in [0, p). -/
def fpcorrCommand (rd ra : RegIx) : Command :=
  { instr := .fpcorr rd ra
    dst := some (elemAt rd)
    srcA := some (elemAt ra)
    srcB := none
    legal := fieldA
    result := fun l => valueResult (fpCorr (latchA0 l)) }

/-- The meaning of FPCORR. -/
def execFpcorr (rd ra : RegIx) (s : State) : Host.Outcome State Fault Refusal :=
  runCommand (fpcorrCommand rd ra) s

/-- TOMONT (44_fp_element R116). -/
def tomontCommand (rd ra : RegIx) : Command :=
  { instr := .tomont rd ra
    dst := some (elemAt rd)
    srcA := some (elemAt ra)
    srcB := none
    legal := fieldA
    result := fun l => valueResult (toMont (latchA0 l)) }

/-- The meaning of TOMONT. -/
def execTomont (rd ra : RegIx) (s : State) : Host.Outcome State Fault Refusal :=
  runCommand (tomontCommand rd ra) s

/-- FROMMONT (44_fp_element R117): canonical. -/
def frommontCommand (rd ra : RegIx) : Command :=
  { instr := .frommont rd ra
    dst := some (elemAt rd)
    srcA := some (elemAt ra)
    srcB := none
    legal := fieldA
    result := fun l => valueResult (fromMont (latchA0 l)) }

/-- The meaning of FROMMONT. -/
def execFrommont (rd ra : RegIx) (s : State) : Host.Outcome State Fault Refusal :=
  runCommand (frommontCommand rd ra) s

end Sys2Proof.Machine
end

