-- ==== Sys2Proof/Machine/Inversion.lean ====
section
/-! DEFINITION. The fixed-chain field inverter (43_inversion R103). -/

namespace Sys2Proof.Machine

/-- FPINV (43_inversion R103): FpInv of a field element that is not 0 mod p. -/
def fpinvCommand (rd ra : RegIx) : Command :=
  { instr := .fpinv rd ra
    dst := some (elemAt rd)
    srcA := some (elemAt ra)
    srcB := none
    legal := fun l => fieldA l && latchA0 l % primeP != 0
    result := fun l => valueResult (fpInv (latchA0 l)) }

/-- The meaning of FPINV. -/
def execFpinv (rd ra : RegIx) (s : State) : Host.Outcome State Fault Refusal :=
  runCommand (fpinvCommand rd ra) s

end Sys2Proof.Machine
end

