-- ==== Sys2Proof/Machine/Montgomery.lean ====
section
/-! DEFINITION. The Montgomery multiplier and squarer (42_montgomery R97, R98). -/

namespace Sys2Proof.Machine

/-- FPMUL (42_montgomery R97): MontMul of two field elements. -/
def fpmulCommand (rd ra rb : RegIx) : Command :=
  { instr := .fpmul rd ra rb
    dst := some (elemAt rd)
    srcA := some (elemAt ra)
    srcB := some (elemAt rb)
    legal := fieldAB
    result := fun l => valueResult (montMul (latchA0 l) (latchB0 l)) }

/-- The meaning of FPMUL. -/
def execFpmul (rd ra rb : RegIx) (s : State) : Host.Outcome State Fault Refusal :=
  runCommand (fpmulCommand rd ra rb) s

/-- FPSQR (42_montgomery R98): MontSqr of a field element. -/
def fpsqrCommand (rd ra : RegIx) : Command :=
  { instr := .fpsqr rd ra
    dst := some (elemAt rd)
    srcA := some (elemAt ra)
    srcB := none
    legal := fieldA
    result := fun l => valueResult (montSqr (latchA0 l)) }

/-- The meaning of FPSQR. -/
def execFpsqr (rd ra : RegIx) (s : State) : Host.Outcome State Fault Refusal :=
  runCommand (fpsqrCommand rd ra) s

end Sys2Proof.Machine
end

