-- ==== Sys2Proof/Machine/Flags.lean ====
section
/-! DEFINITION. The one arithmetic flag (10_state R26), the words of STATUS and CTRL (R28, R29), and the
interrupt output (60_exceptions R142). -/

namespace Sys2Proof.Machine

/-- CARRY of MPADD (41_multiprecision R80): the carry out of bit `bits` - 1, 1 exactly when
a + b >= 2^bits. -/
def carryOut (bits a b : Nat) : Bool := decide (2 ^ bits ≤ a + b)

/-- CARRY of MPSUB (41_multiprecision R81): the borrow, 1 exactly when a < b. -/
def borrowOut (a b : Nat) : Bool := decide (a < b)

/-- The word a read of STATUS returns (10_state R29): BUSY 0, DONE 1, ERR 2, CARRY 3, ERRCODE 7:4,
0 above. -/
def State.statusWord (s : State) : Word :=
  0#24 ++ s.errCode ++ BitVec.ofBool s.carry ++ BitVec.ofBool s.err
    ++ BitVec.ofBool s.done ++ BitVec.ofBool s.busy

/-- The word a read of CTRL returns (10_state R28): IE, 0 above. -/
def State.ctrlWord (s : State) : Word := (BitVec.ofBool s.ie).setWidth 32

/-- A write of CTRL (10_state R28): only bit 0 is kept. -/
def writeCtrl (v : Word) (s : State) : State := { s with ie := v.getLsbD 0 }

/-- The interrupt output IRQ (60_exceptions R142): IE and DONE. -/
def State.irq (s : State) : Bool := s.ie && s.done

/-- The level of a platform interrupt line: IRQ drives IRQ_LINE (60_exceptions R142; log 11). -/
def State.irqLevel (s : State) (line : Nat) : Bool := line == Config.irqLine && s.irq

end Sys2Proof.Machine
end

