-- ==== Sys2Proof/Machine/Multiprecision.lean ====
section
/-! DEFINITION. The multiprecision primitives (41_multiprecision R80 to R87). -/

namespace Sys2Proof.Machine

/-- NOP (41_multiprecision R87): no register, flag or storage is read or written. It is accepted and
completes like any command. -/
def nopCommand : Command :=
  { instr := .nop
    dst := none
    srcA := none
    srcB := none
    legal := noPrecondition
    result := fun _ => valueResult 0 }

/-- The meaning of NOP. -/
def execNop (s : State) : Host.Outcome State Fault Refusal :=
  runCommand (nopCommand) s

/-- MPADD (41_multiprecision R80): the sum modulo 2^(32N), CARRY the carry out of the top word. -/
def mpaddCommand (sz : Size) (rd ra rb : RegIx) : Command :=
  { instr := .mpadd sz rd ra rb
    dst := some (sizedAt sz rd)
    srcA := some (sizedAt sz ra)
    srcB := some (sizedAt sz rb)
    legal := noPrecondition
    result := fun l => carryResult ((l.a.toNat + l.b.toNat) % 2 ^ sizeBits sz)
      (carryOut (sizeBits sz) l.a.toNat l.b.toNat) }

/-- The meaning of MPADD. -/
def execMpadd (sz : Size) (rd ra rb : RegIx) (s : State) : Host.Outcome State Fault Refusal :=
  runCommand (mpaddCommand sz rd ra rb) s

/-- MPSUB (41_multiprecision R81): the difference modulo 2^(32N), CARRY the borrow. -/
def mpsubCommand (sz : Size) (rd ra rb : RegIx) : Command :=
  { instr := .mpsub sz rd ra rb
    dst := some (sizedAt sz rd)
    srcA := some (sizedAt sz ra)
    srcB := some (sizedAt sz rb)
    legal := noPrecondition
    result := fun l => carryResult ((l.a.toNat + 2 ^ sizeBits sz - l.b.toNat) % 2 ^ sizeBits sz)
      (borrowOut l.a.toNat l.b.toNat) }

/-- The meaning of MPSUB. -/
def execMpsub (sz : Size) (rd ra rb : RegIx) (s : State) : Host.Outcome State Fault Refusal :=
  runCommand (mpsubCommand sz rd ra rb) s

/-- MPSHL1 (41_multiprecision R82): left by one bit, bit 32N-1 discarded; CARRY unchanged. -/
def mpshl1Command (sz : Size) (rd ra : RegIx) : Command :=
  { instr := .mpshl1 sz rd ra
    dst := some (sizedAt sz rd)
    srcA := some (sizedAt sz ra)
    srcB := none
    legal := noPrecondition
    result := fun l => valueResult (l.a.toNat * 2 % 2 ^ sizeBits sz) }

/-- The meaning of MPSHL1. -/
def execMpshl1 (sz : Size) (rd ra : RegIx) (s : State) : Host.Outcome State Fault Refusal :=
  runCommand (mpshl1Command sz rd ra) s

/-- MPSHR1 (41_multiprecision R83): logical right by one bit; CARRY unchanged. -/
def mpshr1Command (sz : Size) (rd ra : RegIx) : Command :=
  { instr := .mpshr1 sz rd ra
    dst := some (sizedAt sz rd)
    srcA := some (sizedAt sz ra)
    srcB := none
    legal := noPrecondition
    result := fun l => valueResult (l.a.toNat / 2) }

/-- The meaning of MPSHR1. -/
def execMpshr1 (sz : Size) (rd ra : RegIx) (s : State) : Host.Outcome State Fault Refusal :=
  runCommand (mpshr1Command sz rd ra) s

/-- MPSHLK (41_multiprecision R84): left by k bits, 1 <= k <= 31, the top k bits discarded; CARRY
unchanged. K = 0 is no legal command (30_encoding R70). -/
def mpshlkCommand (sz : Size) (rd ra : RegIx) (k : BitVec 5) : Command :=
  { instr := .mpshlk sz rd ra k
    dst := some (sizedAt sz rd)
    srcA := some (sizedAt sz ra)
    srcB := none
    legal := noPrecondition
    result := fun l => valueResult (l.a.toNat * 2 ^ k.toNat % 2 ^ sizeBits sz) }

/-- The meaning of MPSHLK. -/
def execMpshlk (sz : Size) (rd ra : RegIx) (k : BitVec 5) (s : State) : Host.Outcome State Fault Refusal :=
  runCommand (mpshlkCommand sz rd ra k) s

/-- COPY (41_multiprecision R85): Dst(RD, N) <- Src(RA, N). -/
def copyCommand (sz : Size) (rd ra : RegIx) : Command :=
  { instr := .copy sz rd ra
    dst := some (sizedAt sz rd)
    srcA := some (sizedAt sz ra)
    srcB := none
    legal := noPrecondition
    result := fun l => valueResult l.a.toNat }

/-- The meaning of COPY. -/
def execCopy (sz : Size) (rd ra : RegIx) (s : State) : Host.Outcome State Fault Refusal :=
  runCommand (copyCommand sz rd ra) s

/-- ZERO (41_multiprecision R86): Dst(RD, N) <- 0; it reads no register. -/
def zeroCommand (sz : Size) (rd : RegIx) : Command :=
  { instr := .zero sz rd
    dst := some (sizedAt sz rd)
    srcA := none
    srcB := none
    legal := noPrecondition
    result := fun _ => valueResult 0 }

/-- The meaning of ZERO. -/
def execZero (sz : Size) (rd : RegIx) (s : State) : Host.Outcome State Fault Refusal :=
  runCommand (zeroCommand sz rd) s

end Sys2Proof.Machine
end

