-- ==== Sys2Proof/Machine/Dispatch.lean ====
section
/-! DEFINITION. The dispatch of a command to its meaning: one arm per constructor of Instr. -/

namespace Sys2Proof.Machine

def exec (i : Instr) (s : State) : Host.Outcome State Fault Refusal :=
  match i with
  | .nop => Sys2Proof.Machine.execNop s
  | .mpadd sz rd ra rb => Sys2Proof.Machine.execMpadd sz rd ra rb s
  | .mpsub sz rd ra rb => Sys2Proof.Machine.execMpsub sz rd ra rb s
  | .mpshl1 sz rd ra => Sys2Proof.Machine.execMpshl1 sz rd ra s
  | .mpshr1 sz rd ra => Sys2Proof.Machine.execMpshr1 sz rd ra s
  | .mpshlk sz rd ra k => Sys2Proof.Machine.execMpshlk sz rd ra k s
  | .copy sz rd ra => Sys2Proof.Machine.execCopy sz rd ra s
  | .zero sz rd => Sys2Proof.Machine.execZero sz rd s
  | .fpmul rd ra rb => Sys2Proof.Machine.execFpmul rd ra rb s
  | .fpsqr rd ra => Sys2Proof.Machine.execFpsqr rd ra s
  | .fpinv rd ra => Sys2Proof.Machine.execFpinv rd ra s
  | .fpadd rd ra rb => Sys2Proof.Machine.execFpadd rd ra rb s
  | .fpsub rd ra rb => Sys2Proof.Machine.execFpsub rd ra rb s
  | .fpneg rd ra => Sys2Proof.Machine.execFpneg rd ra s
  | .fpdiv2 rd ra => Sys2Proof.Machine.execFpdiv2 rd ra s
  | .fpcorr rd ra => Sys2Proof.Machine.execFpcorr rd ra s
  | .tomont rd ra => Sys2Proof.Machine.execTomont rd ra s
  | .frommont rd ra => Sys2Proof.Machine.execFrommont rd ra s
  | .fp2add rd ra rb => Sys2Proof.Machine.execFp2add rd ra rb s
  | .fp2sub rd ra rb => Sys2Proof.Machine.execFp2sub rd ra rb s
  | .fp2neg rd ra => Sys2Proof.Machine.execFp2neg rd ra s
  | .fp2div2 rd ra => Sys2Proof.Machine.execFp2div2 rd ra s
  | .fp2corr rd ra => Sys2Proof.Machine.execFp2corr rd ra s
  | .fp2tomont rd ra => Sys2Proof.Machine.execFp2tomont rd ra s
  | .fp2frommont rd ra => Sys2Proof.Machine.execFp2frommont rd ra s
  | .fp2mul rd ra rb => Sys2Proof.Machine.execFp2mul rd ra rb s
  | .fp2sqr rd ra => Sys2Proof.Machine.execFp2sqr rd ra s
  | .fp2inv rd ra => Sys2Proof.Machine.execFp2inv rd ra s

end Sys2Proof.Machine
end

