-- ==== Sys2Proof/Machine/Window.lean ====
section
/-! DEFINITION. The register window (20_memory R40 to R48): its address map, what a read returns and what
a write does. A write of CMD is a command and stands in Machine/Sequencer.lean. -/

namespace Sys2Proof.Machine

/-! ## The bus address (R40) and the byte lanes (R45) -/

/-- The window offset a bus address reaches; none outside the window, where the core is not accessed. -/
def windowOffset (addr : Nat) : Option Offset :=
  if Config.coreBase ≤ addr ∧ addr < Config.coreBase + 0x2000 then
    some (BitVec.ofNat 13 (addr - Config.coreBase))
  else none

/-- The access to the core that a bus access at an address is: a read, or a write of a word. -/
def busAccess (addr : Nat) (width : AccessWidth) (write : Option Word) : Option HostAccess :=
  (windowOffset addr).map (fun off =>
    match write with
    | none => .read width off
    | some v => .write width off v)

/-- The byte lane at byte address offset + i of a bus word, i = 0 to 3 (R45; log 19). -/
def byteLane (v : Word) (i : Nat) : BitVec 8 := v.extractLsb' (8 * i) 8

/-! ## The address map (R41, R42) -/

/-- What stands at a word of the window (log 14). -/
inductive Location where
  | id
  | ctrl
  | status
  | cmd
  | pRom (w : Nat)
  | r2Rom (w : Nat)
  | element (n : RegIx) (w : Nat)
  | reserved
deriving DecidableEq, Repr

/-- The location at a word-aligned offset (R41); word w of register n is at 0x1000 + 56 n + 4 w (R42). -/
def locationAt (off : Offset) : Location :=
  let o := off.toNat
  if o = 0x000 then .id
  else if o = 0x004 then .ctrl
  else if o = 0x008 then .status
  else if o = 0x00C then .cmd
  else if 0x100 ≤ o ∧ o < 0x138 then .pRom ((o - 0x100) / 4)
  else if 0x140 ≤ o ∧ o < 0x178 then .r2Rom ((o - 0x140) / 4)
  else if 0x1000 ≤ o ∧ o < 0x1E00 then
    .element (BitVec.ofNat 6 ((o - 0x1000) / 56)) ((o - 0x1000) % 56 / 4)
  else .reserved

/-- The offset of EF[n][w] (R42). -/
def elementOffset (n : RegIx) (w : Nat) : Offset := BitVec.ofNat 13 (0x1000 + 56 * n.toNat + 4 * w)

/-- The offset of CMD (10_state R31). -/
def cmdOffset : Offset := 0x00C#13

/-- An access the core takes: 32 bits at a multiple of 4 (R46). -/
def alignedWord (width : AccessWidth) (off : Offset) : Bool :=
  width == .bits32 && off.toNat % 4 == 0

/-! ## Reads (R42, R43, R48) -/

/-- The constant of ID (10_state R27). -/
def idWord : Word := 0x0E2001B2#32

/-- Word w of P_ROM (10_state R32). -/
def pRomWord (w : Nat) : Word := wordOf (BitVec.ofNat 448 primeP) w

/-- Word w of R2_ROM (10_state R33). -/
def r2RomWord (w : Nat) : Word := wordOf (BitVec.ofNat 448 montR2) w

/-- What a location holds. A read returns it, but for an element word that nothing has written or that
is read while BUSY = 1. -/
def State.wordAt (s : State) (l : Location) : Word :=
  match l with
  | .id => idWord
  | .ctrl => s.ctrlWord
  | .status => s.statusWord
  | .cmd => s.cmdLast
  | .pRom w => pRomWord w
  | .r2Rom w => r2RomWord w
  | .element n w => wordOf (s.elem n) w
  | .reserved => 0#32

/-- The bus returns this read data. -/
def respondData (v : Word) (s : State) : State := { s with response := .data v }

/-- The bus returns a free value (60_exceptions R140, R141). -/
def respondFree (s : State) : State :=
  { s with response := .data (Config.freeWord s.draws), draws := s.draws + 1 }

/-- The records a host read of EF[n][w] at this offset raises (60_exceptions R140): HostAccessWhileBusy while
BUSY = 1 (70_reset_and_hazards R160), and UninitRead if nothing has written the word (10_state R23). Where both
hold, both are recorded (DEDUCED, log 26). -/
def State.readFaults (s : State) (off : Offset) (n : RegIx) (w : Nat) : List FaultRecord :=
  (if s.busy then [.hostAccessWhileBusy off] else []) ++
    (if (s.marks n).getLsbD w then [] else [.uninitRead n w])

/-- A read of EF[n][w] at this offset: the word; or its records and a free value, where R140 raises any. -/
def readElement (off : Offset) (n : RegIx) (w : Nat) (s : State) : State :=
  if s.readFaults off n w = [] then respondData (wordOf (s.elem n) w) s
  else respondFree (s.recordAll (s.readFaults off n w))

/-- An aligned 32-bit read (R42, R43): no effect but its response and, for an element word, a record. -/
def readWindow (off : Offset) (s : State) : State :=
  match locationAt off with
  | .element n w => readElement off n w s
  | l => respondData (s.wordAt l) s

/-! ## Writes (R42, R43; 10_state R28, R30) -/

/-- The bus takes the write. -/
def respondAccepted (s : State) : State := { s with response := .accepted }

/-- The running command's result is no longer given (60_exceptions R140). -/
def disturb (s : State) : State :=
  { s with pending := s.pending.map (fun p => { p with disturbed := true }) }

/-- A write of EF[n][w] at this offset. While BUSY = 1 it is HostAccessWhileBusy: it lands or not, as a
free bit says, and the running command's result is not given (60_exceptions R140; log 5). -/
def writeElement (off : Offset) (n : RegIx) (w : Nat) (v : Word) (s : State) : State :=
  if s.busy then
    let s₁ := disturb (s.record (.hostAccessWhileBusy off))
    let s₂ := if Config.freeBit s.draws then s₁.writeWord n w v else s₁
    { s₂ with draws := s.draws + 1 }
  else s.writeWord n w v

/-- An aligned 32-bit write of anything but CMD: CTRL, STATUS (W1C) and the element file take it, all
other locations ignore it (R43). -/
def writeWindow (off : Offset) (v : Word) (s : State) : State :=
  match locationAt off with
  | .ctrl => respondAccepted (writeCtrl v s)
  | .status => respondAccepted (clearStatus v s)
  | .element n w => respondAccepted (writeElement off n w v s)
  | .id => respondAccepted s
  | .cmd => respondAccepted s
  | .pRom _ => respondAccepted s
  | .r2Rom _ => respondAccepted s
  | .reserved => respondAccepted s

/-- An access that is not an aligned 32-bit one (R46): a bus error and a HostBusFault record; nothing
else of the core changes. At an element offset too it raises no record but this one and leaves a running
command undisturbed, whether BUSY = 1 or the word is unwritten (DEDUCED, log 27). -/
def busFault (width : AccessWidth) (off : Offset) (s : State) : State :=
  { s.record (.hostBusFault off width) with response := .busError }

end Sys2Proof.Machine
end

