-- ==== Sys2Proof/Machine/Sequencer.lean ====
section
/-! DEFINITION. What one step of the machine does: the next host event or clock cycle (20_memory R50,
60_exceptions R145). `run` is the meaning of a command (exec); Machine/Step.lean supplies it. -/

namespace Sys2Proof.Machine

/-- Issue (30_encoding R71): a host write of c to CMD. BusyReject while BUSY = 1, and then c is not
recorded; else c goes to CMD_LAST, is decoded, and runs or is a command error. -/
def issue (run : Instr → State → Host.Outcome State Fault Refusal) (c : Word) (s : State) :
    Host.Outcome State Fault Refusal :=
  if s.busy then .next (busyReject s)
  else
    match decode c with
    | .error e => .next (commandError e { s with cmdLast := c })
    | .ok i => run i { s with cmdLast := c }

/-- One host access (20_memory R46, R48). R46 comes before R23 and R160: an access that is not an aligned
32-bit one reaches no location (DEDUCED, log 27). -/
def hostAccess (run : Instr → State → Host.Outcome State Fault Refusal) (a : HostAccess) (s : State) :
    Host.Outcome State Fault Refusal :=
  match a with
  | .read width off =>
    if alignedWord width off then .next (readWindow off s) else .next (busFault width off s)
  | .write width off v =>
    if alignedWord width off then
      if off = cmdOffset then issue run v (respondAccepted s) else .next (writeWindow off v s)
    else .next (busFault width off s)

/-- One clock cycle without a host access (70_reset_and_hazards R166; log 8): an idle core does nothing
(60_exceptions R154); a running command counts its latency down, and the last cycle completes it. -/
def clockCycle (run : Instr → State → Host.Outcome State Fault Refusal) (s : State) :
    Host.Outcome State Fault Refusal :=
  match s.pending with
  | none => .next s
  | some p =>
    if p.remaining ≤ 1 then run p.instr s
    else .next { s with pending := some { p with remaining := p.remaining - 1 } }

/-- The next event of the schedule; a clock cycle where there is none (logs 7, 16). -/
def nextEvent (run : Instr → State → Host.Outcome State Fault Refusal) (s : State) :
    Host.Outcome State Fault Refusal :=
  match s.host with
  | [] => clockCycle run s
  | .cycle :: rest => clockCycle run { s with host := rest }
  | .access a :: rest => hostAccess run a { s with host := rest }
  | .reset :: rest => .next (assertReset { s with host := rest })

end Sys2Proof.Machine
end

