-- ==== Sys2Proof/Machine/Step.lean ====
section
/-! DEFINITION. One step of the machine, and how a command word is put where the next step takes it. -/

namespace Sys2Proof.Machine

/-- One step: the next host event, or a clock cycle. A CMD write while idle decodes its word and runs
exec of the command on it (its acceptance, 30_encoding R72); the last clock cycle of the pending
command runs exec of it again (its completion, R73). -/
def step (s : State) : Host.Outcome State Fault Refusal := nextEvent exec s

/-- s with a CMD write of the word w as the host's next access and no command pending, so that the next
step decodes w and runs it (logs 7, 23). Every command is one 32-bit word (30_encoding R67). -/
def State.withFetchWord (s : State) (_nbits w : Nat) : State :=
  { s with
    host := .access (.write .bits32 cmdOffset (BitVec.ofNat 32 w)) :: s.host
    pending := none }

end Sys2Proof.Machine
end

