-- ==== Sys2Proof/Machine/Assembly.lean ====
section
/-! DEFINITION. The assembler syntax (30_encoding R68) and the pseudo-instructions (R69), on tokens: a
line is a mnemonic, a size suffix or none, and operands. Reading characters into tokens is
Machine/AssemblyText.lean. -/

namespace Sys2Proof.Machine

/-- An operand as written: a register `f0` to `f63`, or the number K. -/
inductive AsmOperand where
  | reg (n : Nat)
  | imm (k : Nat)
deriving DecidableEq, Repr

/-- One line of assembler (R68). The suffix is `.w` or `.d`. -/
structure AsmLine where
  mnemonic : String
  suffix : Option Size
  operands : List AsmOperand
deriving DecidableEq, Repr

/-- The mnemonics of R68 with the opcodes of R63. -/
def asmNames : List (String × BitVec 6) :=
  [ ("nop", 0x00), ("mpadd", 0x01), ("mpsub", 0x02), ("mpshl1", 0x03), ("mpshr1", 0x04),
    ("mpshlk", 0x05), ("copy", 0x06), ("zero", 0x07) ] ++
  ([ ("fpmul", 0x10), ("fpsqr", 0x11), ("fpinv", 0x12), ("fpadd", 0x18), ("fpsub", 0x19),
     ("fpneg", 0x1A), ("fpdiv2", 0x1B), ("fpcorr", 0x1C), ("tomont", 0x1D), ("frommont", 0x1E) ] ++
   [ ("fp2add", 0x20), ("fp2sub", 0x21), ("fp2neg", 0x22), ("fp2div2", 0x23), ("fp2corr", 0x24),
     ("fp2tomont", 0x25), ("fp2frommont", 0x26), ("fp2mul", 0x28), ("fp2sqr", 0x29),
     ("fp2inv", 0x2A) ])

/-- The opcode of a mnemonic. -/
def opcodeNamed (name : String) : Option (BitVec 6) :=
  (asmNames.find? (fun r => r.1 == name)).map Prod.snd

/-- The mnemonic of an opcode. -/
def nameOf (op : BitVec 6) : String :=
  ((asmNames.find? (fun r => r.2 == op)).map Prod.fst).getD ""

/-- The next operand where a register field is used: a register f0 to f63. -/
def takeReg (u : FieldUse) (ops : List AsmOperand) : Option (RegIx × List AsmOperand) :=
  match u, ops with
  | .unused, ops => some (0, ops)
  | _, .reg n :: rest => if n < 64 then some (BitVec.ofNat 6 n, rest) else none
  | _, _ => none

/-- The next operand where K is used: a number 1 to 31. -/
def takeImm (uses : Bool) (ops : List AsmOperand) : Option (BitVec 5 × List AsmOperand) :=
  match uses, ops with
  | false, ops => some (0, ops)
  | true, .imm k :: rest => if 1 ≤ k ∧ k < 32 then some (BitVec.ofNat 5 k, rest) else none
  | true, _ => none

/-- The S field of a suffix: required where the command has an S field, not allowed elsewhere. -/
def takeSuffix (uses : Bool) (suffix : Option Size) : Option (BitVec 1) :=
  match uses, suffix with
  | true, some sz => some (bitOfSize sz)
  | false, none => some 0
  | _, _ => none

/-- The command a line stands for (R68): operands in the order RD, RA, RB, K, only those it uses; none
if the line is not one of the syntax or its command is illegal. -/
def assemble (l : AsmLine) : Option Instr := do
  let op ← opcodeNamed l.mnemonic
  let row ← opcodeRow op
  let s ← takeSuffix row.usesS l.suffix
  let (rd, o₁) ← takeReg row.rd l.operands
  let (ra, o₂) ← takeReg row.ra o₁
  let (rb, o₃) ← takeReg row.rb o₂
  let (k, o₄) ← takeImm row.usesK o₃
  if o₄ = [] then
    match decodeFields ⟨op, rd, ra, rb, k, s, 0⟩ with
    | .ok i => some i
    | .error _ => none
  else none

/-- A register field as it is written, if the command uses it. -/
def showReg (u : FieldUse) (n : RegIx) : List AsmOperand :=
  match u with
  | .unused => []
  | _ => [.reg n.toNat]

/-- The line of a command (R68). -/
def disassemble (i : Instr) : AsmLine :=
  let f := fieldsOf i
  match opcodeRow f.op with
  | none => ⟨"", none, []⟩
  | some r =>
    { mnemonic := nameOf f.op
      suffix := if r.usesS then some (sizeOfBit f.s) else none
      operands := showReg r.rd f.rd ++ (showReg r.ra f.ra ++ (showReg r.rb f.rb ++
        (if r.usesK then [AsmOperand.imm f.k.toNat] else []))) }

/-- The pseudo-instructions (R69). -/
inductive Pseudo where
  | fpcopy (fD fA : RegIx)
  | fp2copy (fD fA : RegIx)
  | fpzero (fD : RegIx)
  | fp2zero (fD : RegIx)
  | mpaddfast (fD fA fB : RegIx)
  | mpsubfast (fD fA fB : RegIx)
  | mpaddfastD (fD fA fB : RegIx)
  | mpsubfastD (fD fA fB : RegIx)
deriving DecidableEq, Repr

/-- The one command a pseudo-instruction expands to (R69). -/
def expandPseudo (p : Pseudo) : Instr :=
  match p with
  | .fpcopy fD fA => .copy .w fD fA
  | .fp2copy fD fA => .copy .d fD fA
  | .fpzero fD => .zero .w fD
  | .fp2zero fD => .zero .d fD
  | .mpaddfast fD fA fB => .mpadd .w fD fA fB
  | .mpsubfast fD fA fB => .mpsub .w fD fA fB
  | .mpaddfastD fD fA fB => .mpadd .d fD fA fB
  | .mpsubfastD fD fA fB => .mpsub .d fD fA fB

end Sys2Proof.Machine
end

