-- ==== Sys2Proof/Machine/Rules.lean ====
section
/-! DEFINITION. The rules of all commands as one function, for statements and lemmas that hold of every
command: exec of a command is `runCommand` of its rule (Laws/Command.lean). -/

namespace Sys2Proof.Machine

/-- The operands, precondition and results of a command, as its rule in 41 to 45 gives them. -/
def commandOf (i : Instr) : Command :=
  match i with
  | .nop => nopCommand
  | .mpadd sz rd ra rb => mpaddCommand sz rd ra rb
  | .mpsub sz rd ra rb => mpsubCommand sz rd ra rb
  | .mpshl1 sz rd ra => mpshl1Command sz rd ra
  | .mpshr1 sz rd ra => mpshr1Command sz rd ra
  | .mpshlk sz rd ra k => mpshlkCommand sz rd ra k
  | .copy sz rd ra => copyCommand sz rd ra
  | .zero sz rd => zeroCommand sz rd
  | .fpmul rd ra rb => fpmulCommand rd ra rb
  | .fpsqr rd ra => fpsqrCommand rd ra
  | .fpinv rd ra => fpinvCommand rd ra
  | .fpadd rd ra rb => fpaddCommand rd ra rb
  | .fpsub rd ra rb => fpsubCommand rd ra rb
  | .fpneg rd ra => fpnegCommand rd ra
  | .fpdiv2 rd ra => fpdiv2Command rd ra
  | .fpcorr rd ra => fpcorrCommand rd ra
  | .tomont rd ra => tomontCommand rd ra
  | .frommont rd ra => frommontCommand rd ra
  | .fp2add rd ra rb => fp2addCommand rd ra rb
  | .fp2sub rd ra rb => fp2subCommand rd ra rb
  | .fp2neg rd ra => fp2negCommand rd ra
  | .fp2div2 rd ra => fp2div2Command rd ra
  | .fp2corr rd ra => fp2corrCommand rd ra
  | .fp2tomont rd ra => fp2tomontCommand rd ra
  | .fp2frommont rd ra => fp2frommontCommand rd ra
  | .fp2mul rd ra rb => fp2mulCommand rd ra rb
  | .fp2sqr rd ra => fp2sqrCommand rd ra
  | .fp2inv rd ra => fp2invCommand rd ra

end Sys2Proof.Machine
end

