-- ==== Sys2Proof/Safety.lean ====
section
/-! DEFINITION. What counts as a safe run, in the terms claims use: a run without a model-only fault
record; the end of a run and its observation (70_reset_and_hazards R168); the states the rules allow; and
the terms the statements of Certificates/ share. -/

namespace Sys2Proof.Machine

/-- No model-only fault has been recorded (60_exceptions R140): the spec gives every value so far. -/
def Clean (s : State) : Prop := s.faults = []

/-- The run has ended (R168): the host has performed its last access and no command is pending. -/
def RunEnded (s : State) : Prop := s.host = [] ∧ s.pending = none

/-- What a run leaves to be observed (R168). -/
structure Observation where
  /-- The words of each register; none for a word that was never written, of which R168 says nothing. -/
  words : List (List (Option Word))
  status : Word
  ctrl : Word
  cmdLast : Word
  faults : List FaultRecord
deriving DecidableEq, Repr

/-- The words of one register, none where the mark is clear. -/
def observedWords (m : Marks) (v : Elem) : List (Option Word) :=
  (List.range 14).map (fun w => if m.getLsbD w then some (wordOf v w) else none)

/-- The observation of a state (R168). -/
def observe (s : State) : Observation :=
  { words := (List.range 64).map
      (fun n => observedWords (s.marks (BitVec.ofNat 6 n)) (s.elem (BitVec.ofNat 6 n)))
    status := s.statusWord
    ctrl := s.ctrlWord
    cmdLast := s.cmdLast
    faults := s.faults }

/-- The legal values of STATUS (10_state R29): BUSY and DONE never both 1; ERRCODE 0, 1, 2 or 3, and 0
exactly when ERR = 0. -/
def StatusLegal (s : State) : Prop :=
  ¬(s.busy = true ∧ s.done = true) ∧ s.errCode.toNat ≤ 3 ∧ (s.errCode = 0#4 ↔ s.err = false)

/-- The pending record holds a legal command, the one CMD_LAST decodes to (10_state R31, R36;
60_exceptions R138), with 1 to LAT(OP, S) cycles to go (70_reset_and_hazards R166). -/
def PendingLegal (s : State) : Prop :=
  ∀ p, s.pending = some p →
    p.instr.wellFormed = true ∧ decode s.cmdLast = .ok p.instr ∧
      1 ≤ p.remaining ∧ p.remaining ≤ Config.latency p.instr.opcode p.instr.sizeBit

/-- The fault set is a set: no record stands in it twice (10_state R38). -/
def FaultsDistinct (s : State) : Prop := s.faults.Nodup

/-- Whenever the spec will not give the pending command's results, the fault set says why: a violated
precondition (30_encoding R74), or a host access to the element file during the command (60_exceptions
R140). -/
def FaultsExplain (s : State) : Prop :=
  ∀ p, s.pending = some p →
    ((commandOf p.instr).legal p.latch = false →
      FaultRecord.preconditionViolation p.instr.opcode ∈ s.faults) ∧
    (p.disturbed = true → ∃ off, FaultRecord.hostAccessWhileBusy off ∈ s.faults)

/-- The invariant of the machine: what holds at reset and after every step. -/
def Inv (s : State) : Prop :=
  StatusLegal s ∧ PendingLegal s ∧ FaultsDistinct s ∧ FaultsExplain s

/-! ## Terms of the statements -/

/-- The registers an operand names (30_encoding R61). -/
def opRegs (o : Operand) : List RegIx :=
  match o.kind with
  | .elem => [o.index]
  | .pair => [o.index, o.index + 1#6]

/-- The value an operand holds (00_scope R15): F[n], or F2[n] = F[n+1] : F[n]. -/
def opValue (s : State) (o : Operand) : Nat :=
  match o.kind with
  | .elem => (s.elem o.index).toNat
  | .pair => (s.elem o.index).toNat + (s.elem (o.index + 1#6)).toNat * montR

/-- Every word of an operand has been written (10_state R23). -/
def opWritten (s : State) (o : Operand) : Bool := (opRegs o).all (fun n => s.elemWritten n)

/-- The component a0 of a GF(p²) operand at n, or F[n] (R15). -/
def comp0 (s : State) (n : RegIx) : Nat := (s.elem n).toNat

/-- The component a1 of a GF(p²) operand at n (R15). -/
def comp1 (s : State) (n : RegIx) : Nat := (s.elem (n + 1#6)).toNat

/-- Both components of a GF(p²) operand are field elements (45_fp2_element R120). -/
def PairInField (s : State) (n : RegIx) : Prop :=
  comp0 s n < 2 * primeP ∧ comp1 s n < 2 * primeP

/-- Acceptance (30_encoding R72): the command is pending with its whole latency before it, DONE is 0,
and no register, no mark, no other status bit and nothing the host sees is changed. -/
def AcceptedAs (i : Instr) (s s₁ : State) : Prop :=
  (∃ p, s₁.pending = some p ∧ p.instr = i ∧ p.disturbed = false ∧
    p.remaining = Config.latency i.opcode i.sizeBit) ∧
  s₁.done = false ∧ s₁.regs = s.regs ∧ s₁.written = s.written ∧ s₁.ie = s.ie ∧ s₁.err = s.err ∧
  s₁.errCode = s.errCode ∧ s₁.carry = s.carry ∧ s₁.cmdLast = s.cmdLast ∧ s₁.host = s.host ∧
  s₁.response = s.response

/-- Completion (30_encoding R73), from s₁ to t: BUSY 0, DONE 1, every word of the destination registers
marked written, and nothing else changed but the destination's values, CARRY and the draw counter. -/
def CompletedInto (dst : List RegIx) (s₁ t : State) : Prop :=
  t.pending = none ∧ t.done = true ∧
  (∀ n, n ∈ dst → t.elemWritten n = true) ∧
  (∀ n, n ∉ dst → t.elem n = s₁.elem n ∧ t.marks n = s₁.marks n) ∧
  t.ie = s₁.ie ∧ t.err = s₁.err ∧ t.errCode = s₁.errCode ∧ t.cmdLast = s₁.cmdLast ∧
  t.faults = s₁.faults ∧ t.host = s₁.host ∧ t.response = s₁.response

/-- The template of every command rule of 41 to 45: operands, encoding, pseudocode, flags, exceptions.
The command i is written with the fields `f`. From every idle state it is accepted, recording UninitRead
for each unwritten source word, and then completes into the registers `dst` alone. If its sources are
written and the precondition holds, nothing is recorded and `post` relates the state before it to the
one after it; if they are written and the precondition fails, exactly PreconditionViolation is recorded.
CARRY is unchanged in every case unless the command is one that writes it. That exec is the acceptance
while idle and the completion while pending is the model's form of the two stages (log 15). Destination and sources may
overlap in any way (00_scope R17). -/
def RuleOf (i : Instr) (f : Fields) (srcs : List Operand) (dst : List RegIx) (writesCarry : Bool)
    (pre : State → Prop) (post : State → State → Prop) : Prop :=
  encode i = wordOfFields f ∧
  ∀ s : State, s.pending = none → i.wellFormed = true →
    ∃ s₁ t, exec i s = .next s₁ ∧ exec i s₁ = .next t ∧
      AcceptedAs i s s₁ ∧ CompletedInto dst s₁ t ∧
      (writesCarry = false → t.carry = s.carry) ∧
      (∀ o, o ∈ srcs → ∀ n, n ∈ opRegs o → ∀ w, w < 14 → (s.marks n).getLsbD w = false →
        FaultRecord.uninitRead n w ∈ s₁.faults) ∧
      ((∀ o, o ∈ srcs → opWritten s o = true) →
        (pre s → s₁.faults = s.faults ∧ post s t) ∧
        (¬pre s → ∀ r, r ∈ s₁.faults ↔ r ∈ s.faults ∨ r = .preconditionViolation i.opcode))

/-- A command without a precondition. -/
def NoPre (_ : State) : Prop := True

/-- The registers a command writes, as the table of 30_encoding R63 gives them. -/
def destinations (i : Instr) : List RegIx :=
  match i with
  | .nop => []
  | .mpadd sz rd _ _ => opRegs (sizedAt sz rd)
  | .mpsub sz rd _ _ => opRegs (sizedAt sz rd)
  | .mpshl1 sz rd _ => opRegs (sizedAt sz rd)
  | .mpshr1 sz rd _ => opRegs (sizedAt sz rd)
  | .mpshlk sz rd _ _ => opRegs (sizedAt sz rd)
  | .copy sz rd _ => opRegs (sizedAt sz rd)
  | .zero sz rd => opRegs (sizedAt sz rd)
  | .fpmul rd _ _ => [rd]
  | .fpsqr rd _ => [rd]
  | .fpinv rd _ => [rd]
  | .fpadd rd _ _ => [rd]
  | .fpsub rd _ _ => [rd]
  | .fpneg rd _ => [rd]
  | .fpdiv2 rd _ => [rd]
  | .fpcorr rd _ => [rd]
  | .tomont rd _ => [rd]
  | .frommont rd _ => [rd]
  | .fp2add rd _ _ => [rd, rd + 1#6]
  | .fp2sub rd _ _ => [rd, rd + 1#6]
  | .fp2neg rd _ => [rd, rd + 1#6]
  | .fp2div2 rd _ => [rd, rd + 1#6]
  | .fp2corr rd _ => [rd, rd + 1#6]
  | .fp2tomont rd _ => [rd, rd + 1#6]
  | .fp2frommont rd _ => [rd, rd + 1#6]
  | .fp2mul rd _ _ => [rd, rd + 1#6]
  | .fp2sqr rd _ => [rd, rd + 1#6]
  | .fp2inv rd _ => [rd, rd + 1#6]

/-- The commands that write CARRY (10_state R26). -/
def writesCarry (i : Instr) : Bool := i.opcode == 0x01#6 || i.opcode == 0x02#6

/-- The opcodes 30_encoding R66 lists as illegal. -/
def opcodeListedIllegal (op : Nat) : Prop :=
  (0x08 ≤ op ∧ op ≤ 0x0F) ∨ (0x13 ≤ op ∧ op ≤ 0x17) ∨ op = 0x1F ∨ op = 0x27 ∨ 0x2B ≤ op

/-- The next host event is an aligned 32-bit write of v at a byte offset. -/
def NextWrites (s : State) (off : Offset) (v : Word) (es : List HostEvent) : Prop :=
  s.host = .access (.write .bits32 off v) :: es

/-- The next host event is an aligned 32-bit read at a byte offset. -/
def NextReads (s : State) (off : Offset) (es : List HostEvent) : Prop :=
  s.host = .access (.read .bits32 off) :: es

/-- The state after the bus has taken the next event and answered it so. -/
def afterBus (s : State) (es : List HostEvent) (r : BusResponse) : State :=
  { s with host := es, response := r }

/-- Two states that agree on everything but operand values: element words, their marks, CARRY, the latched
sources, the fault set, the draws and the read data. -/
def SameControl (s s' : State) : Prop :=
  s.ie = s'.ie ∧ s.done = s'.done ∧ s.err = s'.err ∧ s.errCode = s'.errCode ∧
  s.cmdLast = s'.cmdLast ∧ s.host = s'.host ∧
  s.pending.map (fun p => (p.instr, p.remaining)) = s'.pending.map (fun p => (p.instr, p.remaining))

end Sys2Proof.Machine
end

