-- ==== Sys2Proof/Certificates/Slice0/Obligations.lean ====
section
/-! DEFINITION. The statements for the provers, from the numbered rules of spec/, one definition each; the
terms they share (RuleOf, AcceptedAs, CompletedInto, Inv, ...) stand in Sys2Proof/Safety.lean. -/

open Sys2Proof Sys2Proof.Machine

/-! ## Encoding -/

/-- Decoding the word of a command gives the command, every operand at every value (30_encoding R60, R63,
R70). -/
def Obligations.DecodeOfEncode : Prop :=
  ∀ i : Instr, i.wellFormed = true → decode (encode i) = .ok i

/-- A word the decoder accepts is the word of the one command it decodes to, which is legal: every legal
word has one reading (30_encoding R65). -/
def Obligations.AcceptedWordHasOneReading : Prop :=
  ∀ (c : Word) (i : Instr), decode c = .ok i → encode i = c ∧ i.wellFormed = true

/-- The illegal opcodes are exactly the listed ones, whatever the other fields hold (30_encoding R66;
code 1 before code 2, 60_exceptions R144). -/
def Obligations.IllegalOpcodesAreTheListedOnes : Prop :=
  ∀ c : Word, decode c = .error .illegalOpcode ↔ opcodeListedIllegal (c.extractLsb' 0 6).toNat

/-- A word with a legal opcode is refused with code 2 exactly if it is not the word of any legal command
(30_encoding R65, R70). -/
def Obligations.IllegalFieldMeansNoCommand : Prop :=
  ∀ c : Word, ¬opcodeListedIllegal (c.extractLsb' 0 6).toNat →
    (decode c = .error .illegalField ↔ ∀ i : Instr, i.wellFormed = true → encode i ≠ c)

/-- The words of 30_encoding R68's examples are the commands they are shown for. -/
def Obligations.ExampleWordsDecode : Prop :=
  decode 0x00040081#32 = .ok (.mpadd .w 2 0 1) ∧ decode 0x20040081#32 = .ok (.mpadd .d 2 0 1) ∧
  decode 0x1F004145#32 = .ok (.mpshlk .w 5 4 31) ∧ decode 0x000810D0#32 = .ok (.fpmul 3 1 2) ∧
  decode 0x001842A8#32 = .ok (.fp2mul 10 4 6) ∧ decode 0x0000A32A#32 = .ok (.fp2inv 12 10) ∧
  decode 0x200001C7#32 = .ok (.zero .d 7) ∧ decode 0x00001052#32 = .ok (.fpinv 1 1) ∧
  decode 0x00000000#32 = .ok .nop

/-- Assembling the line of a legal command gives the command (30_encoding R68). -/
def Obligations.AssembleOfDisassemble : Prop :=
  ∀ i : Instr, i.wellFormed = true → assemble (disassemble i) = some i

/-! ## Reset and the invariant -/

/-- After reset STATUS, CTRL and CMD_LAST read 0, nothing is pending, IRQ is 0, no fault is recorded and
every written mark is clear (10_state R39). -/
def Obligations.ResetIsIdle : Prop :=
  State.reset.statusWord = 0 ∧ State.reset.ctrlWord = 0 ∧ State.reset.cmdLast = 0 ∧
  State.reset.pending = none ∧ State.reset.irq = false ∧ State.reset.faults = [] ∧
  ∀ n : RegIx, State.reset.marks n = 0

/-- The invariant holds at reset. -/
def Obligations.InvariantHoldsAtReset : Prop := Inv State.reset

/-- Every step keeps the invariant (10_state R29, R36, R38; 60_exceptions R140). -/
def Obligations.EveryStepKeepsInvariant : Prop :=
  ∀ s t : State, Inv s → step s = .next t → Inv t

/-- No step and no command ends in a trap or a stop: each answers a next state (60_exceptions R135). -/
def Obligations.EveryStepAndCommandAnswersNext : Prop :=
  (∀ s : State, ∃ t, step s = .next t) ∧ ∀ (i : Instr) (s : State), ∃ t, exec i s = .next t

/-! ## Issue, acceptance, completion -/

/-- A CMD write while idle runs the command its word decodes to, with the word in CMD_LAST (30_encoding
R71): the host's event is consumed and answered, nothing else is around exec. -/
def Obligations.CmdWriteRunsDecodedCommand : Prop :=
  ∀ (s : State) (c : Word) (es : List HostEvent) (i : Instr),
    s.pending = none → NextWrites s 0x00C#13 c es → decode c = .ok i →
      step s = exec i { afterBus s es .accepted with cmdLast := c }

/-- The last cycle of the pending command's latency runs the command again, which completes it
(30_encoding R73, 70_reset_and_hazards R166). -/
def Obligations.LastCycleRunsPendingCommand : Prop :=
  ∀ (s : State) (p : Pending), s.pending = some p → p.remaining ≤ 1 →
    (s.host = [] → step s = exec p.instr s) ∧
    (∀ es, s.host = .cycle :: es → step s = exec p.instr { s with host := es })

/-- An illegal command word (60_exceptions R137): ERR and DONE are set, ERRCODE takes the code if ERR was
0, CMD_LAST takes the word, and nothing else changes. -/
def Obligations.CommandErrorIsReported : Prop :=
  ∀ (s : State) (c : Word) (es : List HostEvent) (e : DecodeError),
    s.pending = none → NextWrites s 0x00C#13 c es → decode c = .error e →
      step s = .next { afterBus s es .accepted with
        cmdLast := c, err := true, done := true,
        errCode := if s.err then s.errCode else (if e = .illegalOpcode then 1#4 else 2#4) }

/-- A CMD write while BUSY = 1 (60_exceptions R138): ERR is set, ERRCODE becomes 3 if ERR was 0, and
nothing else changes, whatever the word. -/
def Obligations.CmdWriteWhileBusyIsRejected : Prop :=
  ∀ (s : State) (c : Word) (es : List HostEvent), s.busy = true → NextWrites s 0x00C#13 c es →
    step s = .next { afterBus s es .accepted with
      err := true, errCode := if s.err then s.errCode else 3#4 }

/-- Every legal command is accepted by an idle core (30_encoding R72): its sources are latched as the rule
of the command names them, nothing but the pending record, DONE, the fault set and the draws changes, and
the fault set gains exactly an UninitRead for each unwritten source word and a PreconditionViolation if the
latch violates the precondition. -/
def Obligations.IdleCoreAcceptsEveryLegalCommand : Prop :=
  ∀ (i : Instr) (s : State), s.pending = none → i.wellFormed = true →
    ∃ t, exec i s = .next t ∧ AcceptedAs i s t ∧
      t.pending.map Pending.latch = some (latchOf (commandOf i) s) ∧
      ∀ r, r ∈ t.faults ↔ r ∈ s.faults ∨
        (∃ o n w, (some o = (commandOf i).srcA ∨ some o = (commandOf i).srcB) ∧ n ∈ opRegs o ∧
          w < 14 ∧ (s.marks n).getLsbD w = false ∧ r = .uninitRead n w) ∨
        ((commandOf i).legal (latchOf (commandOf i) s) = false ∧
          r = .preconditionViolation i.opcode)

/-- Every pending command completes, in every state, whatever was latched and however the precondition
stands (30_encoding R73, R74): BUSY 0, DONE 1, ERR kept, the destination's words marked written, every
register the command does not name unchanged, and CARRY unchanged unless the command writes it. -/
def Obligations.PendingCommandCompletesInPlace : Prop :=
  ∀ (i : Instr) (s : State) (p : Pending), s.pending = some p → p.instr = i →
    ∃ t, exec i s = .next t ∧ CompletedInto (destinations i) s t ∧
      (writesCarry i = false → t.carry = s.carry)

/-- A run of a command from its CMD write through its whole latency is its acceptance followed by its
completion (30_encoding R71 to R73): LAT(OP, S) cycles after the CMD write, and not before, the machine
is in the state exec reaches in its two stages. -/
def Obligations.RunOfCommandIsAcceptanceThenCompletion : Prop :=
  ∀ (s : State) (c : Word) (i : Instr) (es : List HostEvent) (s₁ t : State),
    s.pending = none → decode c = .ok i →
    NextWrites s 0x00C#13 c (List.replicate (Config.latency i.opcode i.sizeBit) .cycle ++ es) →
    exec i { afterBus s es .accepted with cmdLast := c } = .next s₁ → exec i s₁ = .next t →
      core.run (Config.latency i.opcode i.sizeBit + 1) s = .next t ∧
      ∀ k, k < Config.latency i.opcode i.sizeBit →
        ∃ u, core.run (k + 1) s = .next u ∧ u.busy = true

/-- A pending command completes by itself: with no further host event, after exactly its remaining latency
BUSY is 0 and DONE is 1, and before that BUSY is 1 (70_reset_and_hazards R166, R168). -/
def Obligations.PendingCommandEventuallyCompletes : Prop :=
  ∀ (s : State) (p : Pending), s.pending = some p → 1 ≤ p.remaining → s.host = [] →
    (∃ t, core.run p.remaining s = .next t ∧ t.busy = false ∧ t.done = true) ∧
    ∀ k, k < p.remaining → ∃ u, core.run k s = .next u ∧ u.busy = true

/-- In a state the machine can be in, if a completion leaves the fault set empty, the destination holds
what the command's rule computes from the latched sources, and so does CARRY (30_encoding R74, 60_exceptions
R140): without a model-only fault no result is open. The completion is taken in a clock cycle, with or without
host events still to come; for FPINV and FP2INV the rule's exact value is that of the chain the model fixes
(log 12). -/
def Obligations.CleanCompletionGivesTheRulesResult : Prop :=
  ∀ (s t : State) (p : Pending), Inv s → s.pending = some p → p.remaining ≤ 1 →
    (s.host = [] ∨ ∃ es, s.host = .cycle :: es) → step s = .next t → Clean t →
      (∀ n, (commandOf p.instr).dst = some (elemAt n) →
        t.elem n = loHalf ((commandOf p.instr).result p.latch).value) ∧
      (∀ n, (commandOf p.instr).dst = some (pairAt n) →
        t.elem n = loHalf ((commandOf p.instr).result p.latch).value ∧
        t.elem (n + 1#6) = hiHalf ((commandOf p.instr).result p.latch).value) ∧
      t.carry = ((commandOf p.instr).result p.latch).carry.getD s.carry

/-! ## The window -/

/-- The window stands at CORE_BASE, a multiple of 8 KiB, and a bus address reaches it exactly if it is one
of its 0x2000 bytes (20_memory R40). -/
def Obligations.WindowIsEightKilobytesAtCoreBase : Prop :=
  Config.coreBase % 0x2000 = 0 ∧
  (∀ off, off < 0x2000 → windowOffset (Config.coreBase + off) = some (BitVec.ofNat 13 off)) ∧
  ∀ addr, addr < Config.coreBase ∨ Config.coreBase + 0x2000 ≤ addr → windowOffset addr = none

/-- A write of STATUS (10_state R30): bit 1 clears DONE, bit 2 clears ERR and ERRCODE; nothing else, BUSY,
CARRY and a running command not either. -/
def Obligations.StatusWriteOneClears : Prop :=
  ∀ (s : State) (v : Word) (es : List HostEvent), NextWrites s 0x008#13 v es →
    step s = .next { afterBus s es .accepted with
      done := if v.getLsbD 1 then false else s.done
      err := if v.getLsbD 2 then false else s.err
      errCode := if v.getLsbD 2 then 0#4 else s.errCode }

/-- A write of CTRL keeps bit 0 as IE and nothing else, and a read of CTRL returns it with zeros above
(10_state R28). -/
def Obligations.CtrlKeepsBitZero : Prop :=
  ∀ (s : State) (es : List HostEvent),
    (∀ v, NextWrites s 0x004#13 v es →
      step s = .next { afterBus s es .accepted with ie := v.getLsbD 0 }) ∧
    (NextReads s 0x004#13 es →
      step s = .next (afterBus s es (.data (if s.ie then 1#32 else 0#32))))

/-- ID reads its constant and CMD reads CMD_LAST (10_state R27, R31); STATUS reads BUSY, DONE, ERR, CARRY,
ERRCODE at bits 0, 1, 2, 3 and 7:4 and zeros above (R29); in every state, and the read changes nothing. -/
def Obligations.IdCmdAndStatusReads : Prop :=
  ∀ (s : State) (es : List HostEvent),
    (NextReads s 0x000#13 es → step s = .next (afterBus s es (.data 0x0E2001B2#32))) ∧
    (NextReads s 0x00C#13 es → step s = .next (afterBus s es (.data s.cmdLast))) ∧
    (NextReads s 0x008#13 es → ∃ v : Word, step s = .next (afterBus s es (.data v)) ∧
      v.getLsbD 0 = s.busy ∧ v.getLsbD 1 = s.done ∧ v.getLsbD 2 = s.err ∧ v.getLsbD 3 = s.carry ∧
      v.extractLsb' 4 4 = s.errCode ∧ v.extractLsb' 8 24 = 0)

/-- P_ROM and R2_ROM read the words of p and of R² mod p, word w at base + 4 w, in every state, busy or
idle (10_state R32, R33). -/
def Obligations.RomsReadTheirConstants : Prop :=
  ∀ (s : State) (es : List HostEvent) (w : Nat), w < 14 →
    (NextReads s (BitVec.ofNat 13 (0x100 + 4 * w)) es →
      step s = .next (afterBus s es
        (.data (BitVec.ofNat 32 ((2 ^ 216 * 3 ^ 137 - 1) / 2 ^ (32 * w)))))) ∧
    (NextReads s (BitVec.ofNat 13 (0x140 + 4 * w)) es →
      step s = .next (afterBus s es
        (.data (BitVec.ofNat 32 (montR * montR % primeP / 2 ^ (32 * w))))))

/-- Reserved offsets read 0 and ignore writes; ID, P_ROM, R2_ROM ignore writes, and so do the bits of STATUS
other than DONE and ERR: a write of v acts as one of v with all bits but 1 and 2 cleared (20_memory R43). -/
def Obligations.ReservedAndReadOnlyLocations : Prop :=
  ∀ (s : State) (es : List HostEvent) (off : Offset), off.toNat % 4 = 0 →
    ((0x010 ≤ off.toNat ∧ off.toNat < 0x100) ∨ (0x138 ≤ off.toNat ∧ off.toNat < 0x140) ∨
        (0x178 ≤ off.toNat ∧ off.toNat < 0x1000) ∨ 0x1E00 ≤ off.toNat →
      NextReads s off es → step s = .next (afterBus s es (.data 0#32))) ∧
    (∀ v, (off.toNat = 0 ∨ (0x010 ≤ off.toNat ∧ off.toNat < 0x1000) ∨ 0x1E00 ≤ off.toNat) ∨
        (off.toNat = 8 ∧ v.getLsbD 1 = false ∧ v.getLsbD 2 = false) →
      NextWrites s off v es → step s = .next (afterBus s es .accepted)) ∧
    (∀ v, off.toNat = 8 → NextWrites s off v es →
      step s = step { s with host := .access (.write .bits32 off (v &&& 6#32)) :: es })

/-- Word w of Fn stands at offset 0x1000 + 56 n + 4 w (20_memory R42). While idle a host write stores it and
marks it written, and every other word and mark and all other state stay; a host read returns it if it has
been written, and changes nothing; if not, it records UninitRead and changes nothing else but the draws
(10_state R23). -/
def Obligations.HostReadsAndWritesElementWords : Prop :=
  ∀ (s : State) (es : List HostEvent) (n : RegIx) (w : Nat), w < 14 → s.busy = false →
    (∀ v, NextWrites s (BitVec.ofNat 13 (0x1000 + 56 * n.toNat + 4 * w)) v es →
      ∃ t, step s = .next t ∧
        (∀ m w', w' < 14 →
          wordOf (t.elem m) w' = if m = n ∧ w' = w then v else wordOf (s.elem m) w') ∧
        (∀ m w', w' < 14 →
          (t.marks m).getLsbD w' = (decide (m = n ∧ w' = w) || (s.marks m).getLsbD w')) ∧
        { t with regs := s.regs, written := s.written } = afterBus s es .accepted) ∧
    (NextReads s (BitVec.ofNat 13 (0x1000 + 56 * n.toNat + 4 * w)) es →
      ((s.marks n).getLsbD w = true →
        step s = .next (afterBus s es (.data (wordOf (s.elem n) w)))) ∧
      ((s.marks n).getLsbD w = false →
        ∃ t v, step s = .next t ∧ (∀ r, r ∈ t.faults ↔ r = .uninitRead n w ∨ r ∈ s.faults) ∧
          { t with faults := s.faults, draws := s.draws } = afterBus s es (.data v)))

/-- A host access that is not 32 bits wide or not at a multiple of 4 gets a bus error, is recorded as
HostBusFault, and changes no state of the core (20_memory R46). That HostBusFault is the only record, and the
running command undisturbed, also where the offset is an element's and BUSY = 1 or the word is unwritten is the
model's choice (log 27). -/
def Obligations.NarrowOrMisalignedAccessIsBusError : Prop :=
  ∀ (s : State) (es : List HostEvent) (a : HostAccess) (width : AccessWidth) (off : Offset),
    (a = .read width off ∨ ∃ v, a = .write width off v) →
    (width ≠ .bits32 ∨ off.toNat % 4 ≠ 0) → s.host = .access a :: es →
    ∃ t, step s = .next t ∧ (∀ r, r ∈ t.faults ↔ r = .hostBusFault off width ∨ r ∈ s.faults) ∧
      { t with faults := s.faults } = afterBus s es .busError

/-- A host access to an element word while BUSY = 1 is recorded as HostAccessWhileBusy (70_reset_and_hazards
R160): a read records UninitRead too if nothing has written the word (10_state R23; that both are recorded is
log 26) and changes nothing else but the draws; a write leaves every word and mark but its own, leaves its own
word and mark as they were or stores the value and sets the mark (at once: log 5), and leaves STATUS and the
running command's progress alone. -/
def Obligations.ElementAccessWhileBusyIsRecorded : Prop :=
  ∀ (s : State) (es : List HostEvent) (off : Offset) (n : RegIx) (w : Nat), w < 14 → s.busy = true →
    off = BitVec.ofNat 13 (0x1000 + 56 * n.toNat + 4 * w) →
    (NextReads s off es → ∃ t v, step s = .next t ∧
      (∀ r, r ∈ t.faults ↔ r = .hostAccessWhileBusy off ∨
        ((s.marks n).getLsbD w = false ∧ r = .uninitRead n w) ∨ r ∈ s.faults) ∧
      { t with faults := s.faults, draws := s.draws } = afterBus s es (.data v)) ∧
    (∀ v, NextWrites s off v es → ∃ t, step s = .next t ∧
      (∀ r, r ∈ t.faults ↔ r = .hostAccessWhileBusy off ∨ r ∈ s.faults) ∧
      (∀ m w', w' < 14 →
        (wordOf (t.elem m) w' = wordOf (s.elem m) w' ∧
          (t.marks m).getLsbD w' = (s.marks m).getLsbD w') ∨
        (m = n ∧ w' = w ∧ wordOf (t.elem m) w' = v ∧ (t.marks m).getLsbD w' = true)) ∧
      t.pending.map (fun p => (p.instr, p.latch, p.remaining)) =
        s.pending.map (fun p => (p.instr, p.latch, p.remaining)) ∧
      t.statusWord = s.statusWord ∧ t.ie = s.ie ∧ t.cmdLast = s.cmdLast ∧ t.host = es)

/-- RESET abandons a pending command and gives every piece of state its reset value (70_reset_and_hazards
R155, R156). That a RESET during a run is a move at all is the model's choice (log 16). -/
def Obligations.ResetAbandonsPendingCommand : Prop :=
  ∀ (s : State) (es : List HostEvent), s.host = .reset :: es →
    ∃ t, step s = .next t ∧ t.pending = none ∧ t.carry = false ∧ t.statusWord = 0 ∧ t.irq = false ∧
      t.ie = false ∧ t.cmdLast = 0 ∧ t.faults = [] ∧ (∀ n, t.marks n = 0) ∧ t.host = es

/-! ## Whole-machine rules -/

/-- CARRY is STATUS bit 3, 0 after reset, and changes only at the completion of MPADD or MPSUB, or by RESET
(10_state R26). -/
def Obligations.OnlyMpaddAndMpsubChangeCarry : Prop :=
  (∀ s : State, s.statusWord.getLsbD 3 = s.carry) ∧ State.reset.carry = false ∧
  ∀ s t : State, step s = .next t → t.carry ≠ s.carry →
    (∃ p, s.pending = some p ∧ p.remaining ≤ 1 ∧ t.pending = none ∧
      (∃ sz rd ra rb, p.instr = .mpadd sz rd ra rb ∨ p.instr = .mpsub sz rd ra rb)) ∨
    ∃ es, s.host = .reset :: es

/-- ERR is sticky: it is cleared only by a host write of STATUS with bit 2 set, which clears ERRCODE too, or by
RESET; until then ERRCODE keeps the first error's code. ERR is set only by a CMD write that is rejected (code
3) or illegal (code 1 or 2) (60_exceptions R139). -/
def Obligations.ErrIsStickyWithFirstCode : Prop :=
  ∀ s t : State, step s = .next t →
    (s.err = true →
      (t.err = true ∧ t.errCode = s.errCode) ∨
      (t.err = false ∧ t.errCode = 0#4 ∧
        ((∃ v es, NextWrites s 0x008#13 v es ∧ v.getLsbD 2 = true) ∨ ∃ es, s.host = .reset :: es))) ∧
    (s.err = false → t.err = true →
      ∃ c es, NextWrites s 0x00C#13 c es ∧
        ((s.busy = true ∧ t.errCode = 3#4) ∨
          (s.busy = false ∧ decode c = .error .illegalOpcode ∧ t.errCode = 1#4) ∨
          (s.busy = false ∧ decode c = .error .illegalField ∧ t.errCode = 2#4)))

/-- IRQ is IE and DONE, and DONE is set only by a completion or by a command error of code 1 or 2: not by a
rejected CMD write (60_exceptions R142). -/
def Obligations.DoneComesFromCompletionOrCommandError : Prop :=
  (∀ s : State, s.irq = true ↔ s.ie = true ∧ s.done = true) ∧
  ∀ s t : State, step s = .next t → s.done = false → t.done = true →
    (∃ p, s.pending = some p ∧ p.remaining ≤ 1 ∧ t.pending = none) ∨
    (∃ c es e, s.pending = none ∧ NextWrites s 0x00C#13 c es ∧ decode c = .error e)

/-- An element register changes only by a host write of one of its words, by the completion of a command
that names it as a destination, or by RESET (10_state R21). -/
def Obligations.RegistersChangeOnlyByHostOrDestination : Prop :=
  ∀ (s t : State) (n : RegIx), step s = .next t → t.elem n ≠ s.elem n →
    (∃ w v es, w < 14 ∧ NextWrites s (BitVec.ofNat 13 (0x1000 + 56 * n.toNat + 4 * w)) v es) ∨
    (∃ p, s.pending = some p ∧ p.remaining ≤ 1 ∧ n ∈ destinations p.instr ∧ t.pending = none) ∨
    ∃ es, s.host = .reset :: es

/-- Nothing but RESET removes a fault record or clears a written mark (10_state R23, R38). -/
def Obligations.FaultsAndMarksOnlyGrow : Prop :=
  ∀ s t : State, step s = .next t →
    ((∀ r, r ∈ s.faults → r ∈ t.faults) ∧
      ∀ n w, (s.marks n).getLsbD w = true → (t.marks n).getLsbD w = true) ∨
    ∃ es, s.host = .reset :: es

/-- Timing and control do not depend on operand values: from two states that differ only in these, a step
leads to two states that differ only in these (70_reset_and_hazards R165). -/
def Obligations.ControlDoesNotDependOnOperandValues : Prop :=
  ∀ s s' t t' : State, SameControl s s' → step s = .next t → step s' = .next t' → SameControl t t'

/-! ## The multiprecision primitives -/

/-- MPADD (41_multiprecision R80). -/
def Obligations.MpaddAddsWithCarryOut : Prop :=
  ∀ (sz : Size) (rd ra rb : RegIx),
    RuleOf (.mpadd sz rd ra rb) ⟨0x01, rd, ra, rb, 0, bitOfSize sz, 0⟩
      [sizedAt sz ra, sizedAt sz rb] (opRegs (sizedAt sz rd)) true NoPre (fun s t =>
        opValue t (sizedAt sz rd) =
          (opValue s (sizedAt sz ra) + opValue s (sizedAt sz rb)) % 2 ^ sizeBits sz ∧
        (t.carry = true ↔
          2 ^ sizeBits sz ≤ opValue s (sizedAt sz ra) + opValue s (sizedAt sz rb)))

/-- MPSUB (41_multiprecision R81): the destination plus the subtrahend is the minuend modulo 2^(32N). -/
def Obligations.MpsubSubtractsWithBorrow : Prop :=
  ∀ (sz : Size) (rd ra rb : RegIx),
    RuleOf (.mpsub sz rd ra rb) ⟨0x02, rd, ra, rb, 0, bitOfSize sz, 0⟩
      [sizedAt sz ra, sizedAt sz rb] (opRegs (sizedAt sz rd)) true NoPre (fun s t =>
        (opValue t (sizedAt sz rd) : Int) =
          ((opValue s (sizedAt sz ra) : Int) - opValue s (sizedAt sz rb)) % 2 ^ sizeBits sz ∧
        (t.carry = true ↔ opValue s (sizedAt sz ra) < opValue s (sizedAt sz rb)))

/-- MPSHL1, MPSHR1 and MPSHLK (41_multiprecision R82, R83, R84). -/
def Obligations.ShiftsMoveBitsAcrossWords : Prop :=
  ∀ (sz : Size) (rd ra : RegIx) (k : BitVec 5),
    RuleOf (.mpshl1 sz rd ra) ⟨0x03, rd, ra, 0, 0, bitOfSize sz, 0⟩
      [sizedAt sz ra] (opRegs (sizedAt sz rd)) false NoPre (fun s t =>
        opValue t (sizedAt sz rd) = opValue s (sizedAt sz ra) * 2 % 2 ^ sizeBits sz) ∧
    RuleOf (.mpshr1 sz rd ra) ⟨0x04, rd, ra, 0, 0, bitOfSize sz, 0⟩
      [sizedAt sz ra] (opRegs (sizedAt sz rd)) false NoPre (fun s t =>
        opValue t (sizedAt sz rd) = opValue s (sizedAt sz ra) / 2) ∧
    RuleOf (.mpshlk sz rd ra k) ⟨0x05, rd, ra, 0, k, bitOfSize sz, 0⟩
      [sizedAt sz ra] (opRegs (sizedAt sz rd)) false NoPre (fun s t =>
        opValue t (sizedAt sz rd) = opValue s (sizedAt sz ra) * 2 ^ k.toNat % 2 ^ sizeBits sz) ∧
    (encode (.mpshlk sz rd ra 0) = wordOfFields ⟨0x05, rd, ra, 0, 0, bitOfSize sz, 0⟩ ∧
      decode (encode (.mpshlk sz rd ra 0)) = .error .illegalField)

/-- COPY, ZERO and NOP (41_multiprecision R85, R86, R87). NOP's word is 0, and no other word of its opcode is
legal. -/
def Obligations.CopyZeroAndNop : Prop :=
  (∀ (sz : Size) (rd ra : RegIx),
    RuleOf (.copy sz rd ra) ⟨0x06, rd, ra, 0, 0, bitOfSize sz, 0⟩
      [sizedAt sz ra] (opRegs (sizedAt sz rd)) false NoPre (fun s t =>
        opValue t (sizedAt sz rd) = opValue s (sizedAt sz ra)) ∧
    RuleOf (.zero sz rd) ⟨0x07, rd, 0, 0, 0, bitOfSize sz, 0⟩
      [] (opRegs (sizedAt sz rd)) false NoPre (fun _ t => opValue t (sizedAt sz rd) = 0)) ∧
  RuleOf .nop ⟨0, 0, 0, 0, 0, 0, 0⟩ [] [] false NoPre (fun _ _ => True) ∧ encode .nop = 0 ∧
  ∀ c : Word, c.extractLsb' 0 6 = 0#6 → c ≠ 0 → decode c = .error .illegalField

/-- Adding and then subtracting the same value gives the first value back, with the same CARRY, and so the
other way round (41_multiprecision R88). The subtrahend must survive the first command: the destination
does not overlap it. -/
def Obligations.AddAndSubtractUndoEachOther : Prop :=
  ∀ (sz : Size) (rd ra rb : RegIx) (s s₁ s₂ s₃ t : State), s.pending = none →
    (Instr.mpadd sz rd ra rb).wellFormed = true →
    opWritten s (sizedAt sz ra) = true → opWritten s (sizedAt sz rb) = true →
    (∀ n, n ∈ opRegs (sizedAt sz rd) → n ∉ opRegs (sizedAt sz rb)) →
    ((exec (.mpadd sz rd ra rb) s = .next s₁ → exec (.mpadd sz rd ra rb) s₁ = .next s₂ →
      exec (.mpsub sz rd rd rb) s₂ = .next s₃ → exec (.mpsub sz rd rd rb) s₃ = .next t →
        opValue t (sizedAt sz rd) = opValue s (sizedAt sz ra) ∧ t.carry = s₂.carry) ∧
    (exec (.mpsub sz rd ra rb) s = .next s₁ → exec (.mpsub sz rd ra rb) s₁ = .next s₂ →
      exec (.mpadd sz rd rd rb) s₂ = .next s₃ → exec (.mpadd sz rd rd rb) s₃ = .next t →
        opValue t (sizedAt sz rd) = opValue s (sizedAt sz ra) ∧ t.carry = s₂.carry))

/-! ## Montgomery multiplier, squarer, inverter -/

/-- FPMUL and FPSQR (42_montgomery R97, R98). -/
def Obligations.FpmulAndFpsqrGiveMontgomeryProducts : Prop :=
  ∀ rd ra rb : RegIx,
    RuleOf (.fpmul rd ra rb) ⟨0x10, rd, ra, rb, 0, 0, 0⟩ [elemAt ra, elemAt rb] [rd] false
      (fun s => comp0 s ra < 2 * primeP ∧ comp0 s rb < 2 * primeP)
      (fun s t => comp0 t rd = montMul (comp0 s ra) (comp0 s rb) ∧ comp0 t rd < 2 * primeP ∧
        comp0 t rd * montR ≡ comp0 s ra * comp0 s rb [MOD primeP]) ∧
    RuleOf (.fpsqr rd ra) ⟨0x11, rd, ra, 0, 0, 0, 0⟩ [elemAt ra] [rd] false
      (fun s => comp0 s ra < 2 * primeP)
      (fun s t => comp0 t rd = montMul (comp0 s ra) (comp0 s ra) ∧ comp0 t rd < 2 * primeP)

/-- FPINV (43_inversion R103): the value of R101's chain; 0 and p violate the precondition. R104 makes
INV_CHAIN a parameter: that the exact value is R101's chain's is the model's choice (log 12). -/
def Obligations.FpinvRunsTheChain : Prop :=
  ∀ rd ra : RegIx,
    RuleOf (.fpinv rd ra) ⟨0x12, rd, ra, 0, 0, 0, 0⟩ [elemAt ra] [rd] false
      (fun s => comp0 s ra < 2 * primeP ∧ comp0 s ra % primeP ≠ 0)
      (fun s t => comp0 t rd = fpInv (comp0 s ra) ∧ comp0 t rd < 2 * primeP)

/-- MINV is -1/p mod R; Redc divides exactly, its result times R is T modulo p, and it is below 2p for
T < p R (42_montgomery R92). -/
def Obligations.RedcIsExactAndBelowTwoP : Prop :=
  (montInv < montR ∧ (primeP * montInv + 1) % montR = 0) ∧
  ∀ t : Nat, (t + (t * montInv % montR) * primeP) % montR = 0 ∧
    redc t = (t + (t * montInv % montR) * primeP) / montR ∧
    redc t * montR ≡ t [MOD primeP] ∧ (t < primeP * montR → redc t < 2 * primeP)

/-- The word-serial reduction, which clears one word a step with N0 = -1/p mod 2^32 = 1, is Redc
(42_montgomery R93), and so is the reduction with the words of PP1 = p + 1, whose six low words are 0 (R94). -/
def Obligations.WordSerialReductionIsRedc : Prop :=
  (montInvWord = 1 ∧ (primeP * montInvWord + 1) % 2 ^ 32 = 0 ∧ primePP1 = primeP + 1 ∧
    primePP1 % 2 ^ 192 = 0) ∧
  ∀ t : Nat, t < primeP * montR → redcWordSerial t = redc t ∧ redcPP1 t = redc t

/-- The laws of 42_montgomery R99: FPMUL is symmetric, FPSQR(a) is FPMUL(a, a), FPMUL(a, b) R is a b modulo
p, and FPMUL(a, ONE_M) is a modulo p. -/
def Obligations.MontgomeryProductLaws : Prop :=
  ∀ a b : Nat, a < 2 * primeP → b < 2 * primeP →
    montMul a b = montMul b a ∧ montSqr a = montMul a a ∧
    montMul a b * montR ≡ a * b [MOD primeP] ∧ montMul a (montR % primeP) ≡ a [MOD primeP] ∧
    montMul a b < 2 * primeP

/-- The chain of 43_inversion R101 has 78 steps, 428 squarings, indices within the table of 20, and computes
exactly p - 2. -/
def Obligations.ChainComputesPMinusTwo : Prop :=
  chainSteps.length = 78 ∧ (chainSteps.map Prod.fst).sum = 428 ∧
  chainAdmissible tableSize chainStart chainSteps = true ∧
  chainExponent chainStart chainSteps = primeP - 2

/-- Every chain over a table raises x to the chain's exponent e in the Montgomery sense: the result times
R^(e-1) is x^e modulo p (43_inversion R100, R105). -/
def Obligations.ChainRaisesToItsExponent : Prop :=
  ∀ (size start : Nat) (steps : List (Nat × Nat)) (x : Nat), start < size →
    (∀ kj, kj ∈ steps → kj.2 < size) →
      fpInvWith size start steps x * montR ^ (chainExponent start steps - 1)
        ≡ x ^ chainExponent start steps [MOD primeP]

/-- Every admissible chain gives FPINV's result modulo p (43_inversion R104). -/
def Obligations.AdmissibleChainsAgree : Prop :=
  ∀ (size start : Nat) (steps : List (Nat × Nat)) (x : Nat),
    chainAdmissible size start steps = true → fpInvWith size start steps x ≡ fpInv x [MOD primeP]

/-! ## The GF(p) layer -/

/-- FPADD and FPSUB (44_fp_element R111, R112). -/
def Obligations.FpaddAndFpsubReduceModTwoP : Prop :=
  ∀ rd ra rb : RegIx,
    RuleOf (.fpadd rd ra rb) ⟨0x18, rd, ra, rb, 0, 0, 0⟩ [elemAt ra, elemAt rb] [rd] false
      (fun s => comp0 s ra < 2 * primeP ∧ comp0 s rb < 2 * primeP)
      (fun s t => comp0 t rd = (comp0 s ra + comp0 s rb) % (2 * primeP)) ∧
    RuleOf (.fpsub rd ra rb) ⟨0x19, rd, ra, rb, 0, 0, 0⟩ [elemAt ra, elemAt rb] [rd] false
      (fun s => comp0 s ra < 2 * primeP ∧ comp0 s rb < 2 * primeP)
      (fun s t => (comp0 t rd : Int) = ((comp0 s ra : Int) - comp0 s rb) % (2 * primeP : Nat))

/-- FPNEG, FPDIV2 and FPCORR (44_fp_element R113, R114, R115). -/
def Obligations.FpnegFpdiv2AndFpcorr : Prop :=
  ∀ rd ra : RegIx,
    RuleOf (.fpneg rd ra) ⟨0x1A, rd, ra, 0, 0, 0, 0⟩ [elemAt ra] [rd] false
      (fun s => comp0 s ra < 2 * primeP)
      (fun s t => comp0 t rd = (2 * primeP - comp0 s ra) % (2 * primeP)) ∧
    RuleOf (.fpdiv2 rd ra) ⟨0x1B, rd, ra, 0, 0, 0, 0⟩ [elemAt ra] [rd] false
      (fun s => comp0 s ra < 2 * primeP)
      (fun s t => comp0 t rd * 2 = comp0 s ra + primeP * (comp0 s ra % 2)) ∧
    RuleOf (.fpcorr rd ra) ⟨0x1C, rd, ra, 0, 0, 0, 0⟩ [elemAt ra] [rd] false
      (fun s => comp0 s ra < 2 * primeP)
      (fun s t => comp0 t rd = comp0 s ra % primeP)

/-- TOMONT and FROMMONT (44_fp_element R116, R117). -/
def Obligations.TomontAndFrommontConvert : Prop :=
  ∀ rd ra : RegIx,
    RuleOf (.tomont rd ra) ⟨0x1D, rd, ra, 0, 0, 0, 0⟩ [elemAt ra] [rd] false
      (fun s => comp0 s ra < 2 * primeP)
      (fun s t => comp0 t rd = montMul (comp0 s ra) (montR * montR % primeP) ∧
        comp0 t rd < 2 * primeP ∧ comp0 t rd ≡ comp0 s ra * montR [MOD primeP]) ∧
    RuleOf (.frommont rd ra) ⟨0x1E, rd, ra, 0, 0, 0, 0⟩ [elemAt ra] [rd] false
      (fun s => comp0 s ra < 2 * primeP)
      (fun s t => comp0 t rd = montMul (comp0 s ra) 1 % primeP ∧
        comp0 t rd * montR ≡ comp0 s ra [MOD primeP])

/-- TOMONT and then FROMMONT, as two commands, gives a canonical value back; FPCORR's value is below p, and a
canonical value is its own correction (44_fp_element R118). -/
def Obligations.TomontThenFrommontIsIdentity : Prop :=
  (∀ a : Nat, a < 2 * primeP → fpCorr a < primeP ∧ (a < primeP → fpCorr a = a)) ∧
  ∀ (rd re ra : RegIx) (s s₁ s₂ s₃ t : State), s.pending = none → s.elemWritten ra = true →
    comp0 s ra < primeP →
    exec (.tomont rd ra) s = .next s₁ → exec (.tomont rd ra) s₁ = .next s₂ →
    exec (.frommont re rd) s₂ = .next s₃ → exec (.frommont re rd) s₃ = .next t →
      comp0 t re = comp0 s ra

/-- Every result of a GF(p) or GF(p²) command whose precondition holds is in [0, 2p), and those of the
correcting commands in [0, p) (44_fp_element R110, 45_fp2_element R120). -/
def Obligations.FieldResultsStayInRange : Prop :=
  ∀ (i : Instr) (s t : State) (p : Pending), s.pending = some p → p.instr = i →
    p.disturbed = false → (commandOf i).legal p.latch = true → 0x10 ≤ i.opcode.toNat →
    exec i s = .next t →
      (∀ n, n ∈ destinations i → (t.elem n).toNat < 2 * primeP) ∧
      (i.opcode ∈ [0x1C#6, 0x1E#6, 0x24#6, 0x26#6] →
        ∀ n, n ∈ destinations i → (t.elem n).toNat < primeP)

/-! ## The GF(p²) layer -/

/-- FP2ADD and FP2SUB (45_fp2_element R121, R122). -/
def Obligations.Fp2addAndFp2subActComponentwise : Prop :=
  ∀ rd ra rb : RegIx,
    RuleOf (.fp2add rd ra rb) ⟨0x20, rd, ra, rb, 0, 0, 0⟩ [pairAt ra, pairAt rb] [rd, rd + 1#6] false
      (fun s => PairInField s ra ∧ PairInField s rb)
      (fun s t => comp0 t rd = (comp0 s ra + comp0 s rb) % (2 * primeP) ∧
        comp1 t rd = (comp1 s ra + comp1 s rb) % (2 * primeP)) ∧
    RuleOf (.fp2sub rd ra rb) ⟨0x21, rd, ra, rb, 0, 0, 0⟩ [pairAt ra, pairAt rb] [rd, rd + 1#6] false
      (fun s => PairInField s ra ∧ PairInField s rb)
      (fun s t => (comp0 t rd : Int) = ((comp0 s ra : Int) - comp0 s rb) % (2 * primeP : Nat) ∧
        (comp1 t rd : Int) = ((comp1 s ra : Int) - comp1 s rb) % (2 * primeP : Nat))

/-- FP2NEG, FP2DIV2, FP2CORR, FP2TOMONT and FP2FROMMONT (45_fp2_element R123 to R127). -/
def Obligations.UnaryFp2CommandsActComponentwise : Prop :=
  ∀ rd ra : RegIx,
    RuleOf (.fp2neg rd ra) ⟨0x22, rd, ra, 0, 0, 0, 0⟩ [pairAt ra] [rd, rd + 1#6] false
      (fun s => PairInField s ra)
      (fun s t => comp0 t rd = (2 * primeP - comp0 s ra) % (2 * primeP) ∧
        comp1 t rd = (2 * primeP - comp1 s ra) % (2 * primeP)) ∧
    RuleOf (.fp2div2 rd ra) ⟨0x23, rd, ra, 0, 0, 0, 0⟩ [pairAt ra] [rd, rd + 1#6] false
      (fun s => PairInField s ra)
      (fun s t => comp0 t rd * 2 = comp0 s ra + primeP * (comp0 s ra % 2) ∧
        comp1 t rd * 2 = comp1 s ra + primeP * (comp1 s ra % 2)) ∧
    RuleOf (.fp2corr rd ra) ⟨0x24, rd, ra, 0, 0, 0, 0⟩ [pairAt ra] [rd, rd + 1#6] false
      (fun s => PairInField s ra)
      (fun s t => comp0 t rd = comp0 s ra % primeP ∧ comp1 t rd = comp1 s ra % primeP) ∧
    RuleOf (.fp2tomont rd ra) ⟨0x25, rd, ra, 0, 0, 0, 0⟩ [pairAt ra] [rd, rd + 1#6] false
      (fun s => PairInField s ra)
      (fun s t => comp0 t rd = montMul (comp0 s ra) (montR * montR % primeP) ∧
        comp1 t rd = montMul (comp1 s ra) (montR * montR % primeP)) ∧
    RuleOf (.fp2frommont rd ra) ⟨0x26, rd, ra, 0, 0, 0, 0⟩ [pairAt ra] [rd, rd + 1#6] false
      (fun s => PairInField s ra)
      (fun s t => comp0 t rd = montMul (comp0 s ra) 1 % primeP ∧
        comp1 t rd = montMul (comp1 s ra) 1 % primeP)

/-- FP2MUL (45_fp2_element R128): the exact Karatsuba values, and that they are the product modulo p; the
offset p R of the borrow case adds p to the result. -/
def Obligations.Fp2mulIsTheKaratsubaProduct : Prop :=
  (∀ u : Nat, redc (u + primeP * montR) = redc u + primeP) ∧ ∀ rd ra rb : RegIx,
    RuleOf (.fp2mul rd ra rb) ⟨0x28, rd, ra, rb, 0, 0, 0⟩ [pairAt ra, pairAt rb] [rd, rd + 1#6] false
      (fun s => PairInField s ra ∧ PairInField s rb)
      (fun s t => PairInField t rd ∧
        comp1 t rd = redc (comp0 s ra * comp1 s rb + comp1 s ra * comp0 s rb) ∧
        (comp1 s ra * comp1 s rb ≤ comp0 s ra * comp0 s rb →
          comp0 t rd = redc (comp0 s ra * comp0 s rb - comp1 s ra * comp1 s rb)) ∧
        (comp0 s ra * comp0 s rb < comp1 s ra * comp1 s rb →
          comp0 t rd =
            redc (comp0 s ra * comp0 s rb + primeP * montR - comp1 s ra * comp1 s rb)) ∧
        comp0 t rd * montR + comp1 s ra * comp1 s rb ≡ comp0 s ra * comp0 s rb [MOD primeP] ∧
        comp1 t rd * montR ≡ comp0 s ra * comp1 s rb + comp1 s ra * comp0 s rb [MOD primeP])

/-- FP2SQR (45_fp2_element R129): the exact values, that they are the square modulo p, and that FP2MUL(a, a)
has the same c1 and a congruent c0. -/
def Obligations.Fp2sqrIsTheComplexSquare : Prop :=
  ∀ rd ra : RegIx,
    RuleOf (.fp2sqr rd ra) ⟨0x29, rd, ra, 0, 0, 0, 0⟩ [pairAt ra] [rd, rd + 1#6] false
      (fun s => PairInField s ra)
      (fun s t => PairInField t rd ∧
        comp0 t rd =
          redc ((comp0 s ra + comp1 s ra) * (comp0 s ra + 4 * primeP - comp1 s ra)) ∧
        comp1 t rd = redc ((comp0 s ra + comp0 s ra) * comp1 s ra) ∧
        comp0 t rd * montR + comp1 s ra * comp1 s ra ≡ comp0 s ra * comp0 s ra [MOD primeP] ∧
        comp1 t rd * montR ≡ 2 * comp0 s ra * comp1 s ra [MOD primeP] ∧
        comp0 t rd ≡ fp2MulLo (comp0 s ra) (comp1 s ra) (comp0 s ra) (comp1 s ra) [MOD primeP] ∧
        comp1 t rd = fp2MulHi (comp0 s ra) (comp1 s ra) (comp0 s ra) (comp1 s ra))

/-- FP2INV (45_fp2_element R130): both components zero modulo p violate the precondition. The exact value rests
on the chain the model fixes (log 12). -/
def Obligations.Fp2invInvertsTheNorm : Prop :=
  ∀ rd ra : RegIx,
    RuleOf (.fp2inv rd ra) ⟨0x2A, rd, ra, 0, 0, 0, 0⟩ [pairAt ra] [rd, rd + 1#6] false
      (fun s => PairInField s ra ∧ ¬(comp0 s ra % primeP = 0 ∧ comp1 s ra % primeP = 0))
      (fun s t => ∃ n ni,
        n = (montMul (comp0 s ra) (comp0 s ra) + montMul (comp1 s ra) (comp1 s ra))
          % (2 * primeP) ∧
        ni = fpInv n ∧ comp0 t rd = montMul (comp0 s ra) ni ∧
        comp1 t rd = montMul ((2 * primeP - comp1 s ra) % (2 * primeP)) ni)

/-- FP2MUL is exactly commutative (45_fp2_element R131), its components are below 2p, and so are FP2SQR's
(R120). -/
def Obligations.Fp2ProductLaws : Prop :=
  ∀ a0 a1 b0 b1 : Nat, a0 < 2 * primeP → a1 < 2 * primeP → b0 < 2 * primeP → b1 < 2 * primeP →
    fp2MulLo a0 a1 b0 b1 = fp2MulLo b0 b1 a0 a1 ∧ fp2MulHi a0 a1 b0 b1 = fp2MulHi b0 b1 a0 a1 ∧
    fp2MulLo a0 a1 b0 b1 < 2 * primeP ∧ fp2MulHi a0 a1 b0 b1 < 2 * primeP ∧
    fp2SqrLo a0 a1 < 2 * primeP ∧ fp2SqrHi a0 a1 < 2 * primeP

/-- The inverse laws (43_inversion R105, 45_fp2_element R131), for the values of which Fermat's little theorem
holds (x^(p-1) is 1 modulo p; the spec takes it of every x nonzero modulo p from general knowledge): a value
times its inverse is R modulo p, the Montgomery form of 1; and a GF(p²) value times its inverse is (R, 0). -/
def Obligations.InverseTimesValueIsMontgomeryOne : Prop :=
  (∀ x : Nat, x < 2 * primeP → x ^ (primeP - 1) ≡ 1 [MOD primeP] →
    montMul x (fpInv x) ≡ montR [MOD primeP]) ∧
  ∀ a0 a1 n ni c0 c1 : Nat, a0 < 2 * primeP → a1 < 2 * primeP →
    n = fpAdd (montSqr a0) (montSqr a1) → n ^ (primeP - 1) ≡ 1 [MOD primeP] →
    ni = fpInv n → c0 = montMul a0 ni → c1 = montMul (fpNeg a1) ni →
      fp2MulLo a0 a1 c0 c1 ≡ montR [MOD primeP] ∧ fp2MulHi a0 a1 c0 c1 ≡ 0 [MOD primeP]
end

