-- ==== Sys2Proof/Laws/State.lean ====
section
/-! SUPPORT. One lemma per field per update of the state, so that no proof unfolds a record update:
the single updates by rfl, the combined ones (recordAll, writeOperand, writeDest, accept, complete)
from them. -/

namespace Sys2Proof.Machine

@[simp] theorem State.writeElem_regs (s : State) (n : RegIx) (v : Elem) : (s.writeElem n v).regs = s.regs.set n.toNat v n.isLt := rfl
@[simp] theorem State.writeElem_written (s : State) (n : RegIx) (v : Elem) : (s.writeElem n v).written = s.written.set n.toNat (BitVec.allOnes 14) n.isLt := rfl
@[simp] theorem State.writeElem_ie (s : State) (n : RegIx) (v : Elem) : (s.writeElem n v).ie = s.ie := rfl
@[simp] theorem State.writeElem_done (s : State) (n : RegIx) (v : Elem) : (s.writeElem n v).done = s.done := rfl
@[simp] theorem State.writeElem_err (s : State) (n : RegIx) (v : Elem) : (s.writeElem n v).err = s.err := rfl
@[simp] theorem State.writeElem_errCode (s : State) (n : RegIx) (v : Elem) : (s.writeElem n v).errCode = s.errCode := rfl
@[simp] theorem State.writeElem_carry (s : State) (n : RegIx) (v : Elem) : (s.writeElem n v).carry = s.carry := rfl
@[simp] theorem State.writeElem_cmdLast (s : State) (n : RegIx) (v : Elem) : (s.writeElem n v).cmdLast = s.cmdLast := rfl
@[simp] theorem State.writeElem_pending (s : State) (n : RegIx) (v : Elem) : (s.writeElem n v).pending = s.pending := rfl
@[simp] theorem State.writeElem_faults (s : State) (n : RegIx) (v : Elem) : (s.writeElem n v).faults = s.faults := rfl
@[simp] theorem State.writeElem_draws (s : State) (n : RegIx) (v : Elem) : (s.writeElem n v).draws = s.draws := rfl
@[simp] theorem State.writeElem_host (s : State) (n : RegIx) (v : Elem) : (s.writeElem n v).host = s.host := rfl
@[simp] theorem State.writeElem_response (s : State) (n : RegIx) (v : Elem) : (s.writeElem n v).response = s.response := rfl

@[simp] theorem State.writeWord_regs (s : State) (n : RegIx) (w : Nat) (x : Word) : (s.writeWord n w x).regs = s.regs.set n.toNat (withWord (s.elem n) w x) n.isLt := rfl
@[simp] theorem State.writeWord_written (s : State) (n : RegIx) (w : Nat) (x : Word) : (s.writeWord n w x).written = s.written.set n.toNat (s.marks n ||| (1#14 <<< w)) n.isLt := rfl
@[simp] theorem State.writeWord_ie (s : State) (n : RegIx) (w : Nat) (x : Word) : (s.writeWord n w x).ie = s.ie := rfl
@[simp] theorem State.writeWord_done (s : State) (n : RegIx) (w : Nat) (x : Word) : (s.writeWord n w x).done = s.done := rfl
@[simp] theorem State.writeWord_err (s : State) (n : RegIx) (w : Nat) (x : Word) : (s.writeWord n w x).err = s.err := rfl
@[simp] theorem State.writeWord_errCode (s : State) (n : RegIx) (w : Nat) (x : Word) : (s.writeWord n w x).errCode = s.errCode := rfl
@[simp] theorem State.writeWord_carry (s : State) (n : RegIx) (w : Nat) (x : Word) : (s.writeWord n w x).carry = s.carry := rfl
@[simp] theorem State.writeWord_cmdLast (s : State) (n : RegIx) (w : Nat) (x : Word) : (s.writeWord n w x).cmdLast = s.cmdLast := rfl
@[simp] theorem State.writeWord_pending (s : State) (n : RegIx) (w : Nat) (x : Word) : (s.writeWord n w x).pending = s.pending := rfl
@[simp] theorem State.writeWord_faults (s : State) (n : RegIx) (w : Nat) (x : Word) : (s.writeWord n w x).faults = s.faults := rfl
@[simp] theorem State.writeWord_draws (s : State) (n : RegIx) (w : Nat) (x : Word) : (s.writeWord n w x).draws = s.draws := rfl
@[simp] theorem State.writeWord_host (s : State) (n : RegIx) (w : Nat) (x : Word) : (s.writeWord n w x).host = s.host := rfl
@[simp] theorem State.writeWord_response (s : State) (n : RegIx) (w : Nat) (x : Word) : (s.writeWord n w x).response = s.response := rfl

@[simp] theorem State.record_regs (s : State) (r : FaultRecord) : (s.record r).regs = s.regs := rfl
@[simp] theorem State.record_written (s : State) (r : FaultRecord) : (s.record r).written = s.written := rfl
@[simp] theorem State.record_ie (s : State) (r : FaultRecord) : (s.record r).ie = s.ie := rfl
@[simp] theorem State.record_done (s : State) (r : FaultRecord) : (s.record r).done = s.done := rfl
@[simp] theorem State.record_err (s : State) (r : FaultRecord) : (s.record r).err = s.err := rfl
@[simp] theorem State.record_errCode (s : State) (r : FaultRecord) : (s.record r).errCode = s.errCode := rfl
@[simp] theorem State.record_carry (s : State) (r : FaultRecord) : (s.record r).carry = s.carry := rfl
@[simp] theorem State.record_cmdLast (s : State) (r : FaultRecord) : (s.record r).cmdLast = s.cmdLast := rfl
@[simp] theorem State.record_pending (s : State) (r : FaultRecord) : (s.record r).pending = s.pending := rfl
@[simp] theorem State.record_faults (s : State) (r : FaultRecord) : (s.record r).faults = if s.faults.contains r then s.faults else s.faults ++ [r] := rfl
@[simp] theorem State.record_draws (s : State) (r : FaultRecord) : (s.record r).draws = s.draws := rfl
@[simp] theorem State.record_host (s : State) (r : FaultRecord) : (s.record r).host = s.host := rfl
@[simp] theorem State.record_response (s : State) (r : FaultRecord) : (s.record r).response = s.response := rfl

@[simp] theorem State.raiseError_regs (s : State) (c : BitVec 4) : (s.raiseError c).regs = s.regs := rfl
@[simp] theorem State.raiseError_written (s : State) (c : BitVec 4) : (s.raiseError c).written = s.written := rfl
@[simp] theorem State.raiseError_ie (s : State) (c : BitVec 4) : (s.raiseError c).ie = s.ie := rfl
@[simp] theorem State.raiseError_done (s : State) (c : BitVec 4) : (s.raiseError c).done = s.done := rfl
@[simp] theorem State.raiseError_err (s : State) (c : BitVec 4) : (s.raiseError c).err = true := rfl
@[simp] theorem State.raiseError_errCode (s : State) (c : BitVec 4) : (s.raiseError c).errCode = if s.err then s.errCode else c := rfl
@[simp] theorem State.raiseError_carry (s : State) (c : BitVec 4) : (s.raiseError c).carry = s.carry := rfl
@[simp] theorem State.raiseError_cmdLast (s : State) (c : BitVec 4) : (s.raiseError c).cmdLast = s.cmdLast := rfl
@[simp] theorem State.raiseError_pending (s : State) (c : BitVec 4) : (s.raiseError c).pending = s.pending := rfl
@[simp] theorem State.raiseError_faults (s : State) (c : BitVec 4) : (s.raiseError c).faults = s.faults := rfl
@[simp] theorem State.raiseError_draws (s : State) (c : BitVec 4) : (s.raiseError c).draws = s.draws := rfl
@[simp] theorem State.raiseError_host (s : State) (c : BitVec 4) : (s.raiseError c).host = s.host := rfl
@[simp] theorem State.raiseError_response (s : State) (c : BitVec 4) : (s.raiseError c).response = s.response := rfl

@[simp] theorem commandError_regs (e : DecodeError) (s : State) : (commandError e s).regs = s.regs := rfl
@[simp] theorem commandError_written (e : DecodeError) (s : State) : (commandError e s).written = s.written := rfl
@[simp] theorem commandError_ie (e : DecodeError) (s : State) : (commandError e s).ie = s.ie := rfl
@[simp] theorem commandError_done (e : DecodeError) (s : State) : (commandError e s).done = true := rfl
@[simp] theorem commandError_err (e : DecodeError) (s : State) : (commandError e s).err = true := rfl
@[simp] theorem commandError_errCode (e : DecodeError) (s : State) : (commandError e s).errCode = if s.err then s.errCode else errorCode e := rfl
@[simp] theorem commandError_carry (e : DecodeError) (s : State) : (commandError e s).carry = s.carry := rfl
@[simp] theorem commandError_cmdLast (e : DecodeError) (s : State) : (commandError e s).cmdLast = s.cmdLast := rfl
@[simp] theorem commandError_pending (e : DecodeError) (s : State) : (commandError e s).pending = s.pending := rfl
@[simp] theorem commandError_faults (e : DecodeError) (s : State) : (commandError e s).faults = s.faults := rfl
@[simp] theorem commandError_draws (e : DecodeError) (s : State) : (commandError e s).draws = s.draws := rfl
@[simp] theorem commandError_host (e : DecodeError) (s : State) : (commandError e s).host = s.host := rfl
@[simp] theorem commandError_response (e : DecodeError) (s : State) : (commandError e s).response = s.response := rfl

@[simp] theorem busyReject_regs (s : State) : (busyReject s).regs = s.regs := rfl
@[simp] theorem busyReject_written (s : State) : (busyReject s).written = s.written := rfl
@[simp] theorem busyReject_ie (s : State) : (busyReject s).ie = s.ie := rfl
@[simp] theorem busyReject_done (s : State) : (busyReject s).done = s.done := rfl
@[simp] theorem busyReject_err (s : State) : (busyReject s).err = true := rfl
@[simp] theorem busyReject_errCode (s : State) : (busyReject s).errCode = if s.err then s.errCode else 3#4 := rfl
@[simp] theorem busyReject_carry (s : State) : (busyReject s).carry = s.carry := rfl
@[simp] theorem busyReject_cmdLast (s : State) : (busyReject s).cmdLast = s.cmdLast := rfl
@[simp] theorem busyReject_pending (s : State) : (busyReject s).pending = s.pending := rfl
@[simp] theorem busyReject_faults (s : State) : (busyReject s).faults = s.faults := rfl
@[simp] theorem busyReject_draws (s : State) : (busyReject s).draws = s.draws := rfl
@[simp] theorem busyReject_host (s : State) : (busyReject s).host = s.host := rfl
@[simp] theorem busyReject_response (s : State) : (busyReject s).response = s.response := rfl

@[simp] theorem clearStatus_regs (v : Word) (s : State) : (clearStatus v s).regs = s.regs := rfl
@[simp] theorem clearStatus_written (v : Word) (s : State) : (clearStatus v s).written = s.written := rfl
@[simp] theorem clearStatus_ie (v : Word) (s : State) : (clearStatus v s).ie = s.ie := rfl
@[simp] theorem clearStatus_done (v : Word) (s : State) : (clearStatus v s).done = (s.done && !v.getLsbD 1) := rfl
@[simp] theorem clearStatus_err (v : Word) (s : State) : (clearStatus v s).err = (s.err && !v.getLsbD 2) := rfl
@[simp] theorem clearStatus_errCode (v : Word) (s : State) : (clearStatus v s).errCode = if v.getLsbD 2 then 0#4 else s.errCode := rfl
@[simp] theorem clearStatus_carry (v : Word) (s : State) : (clearStatus v s).carry = s.carry := rfl
@[simp] theorem clearStatus_cmdLast (v : Word) (s : State) : (clearStatus v s).cmdLast = s.cmdLast := rfl
@[simp] theorem clearStatus_pending (v : Word) (s : State) : (clearStatus v s).pending = s.pending := rfl
@[simp] theorem clearStatus_faults (v : Word) (s : State) : (clearStatus v s).faults = s.faults := rfl
@[simp] theorem clearStatus_draws (v : Word) (s : State) : (clearStatus v s).draws = s.draws := rfl
@[simp] theorem clearStatus_host (v : Word) (s : State) : (clearStatus v s).host = s.host := rfl
@[simp] theorem clearStatus_response (v : Word) (s : State) : (clearStatus v s).response = s.response := rfl

@[simp] theorem writeCtrl_regs (v : Word) (s : State) : (writeCtrl v s).regs = s.regs := rfl
@[simp] theorem writeCtrl_written (v : Word) (s : State) : (writeCtrl v s).written = s.written := rfl
@[simp] theorem writeCtrl_ie (v : Word) (s : State) : (writeCtrl v s).ie = v.getLsbD 0 := rfl
@[simp] theorem writeCtrl_done (v : Word) (s : State) : (writeCtrl v s).done = s.done := rfl
@[simp] theorem writeCtrl_err (v : Word) (s : State) : (writeCtrl v s).err = s.err := rfl
@[simp] theorem writeCtrl_errCode (v : Word) (s : State) : (writeCtrl v s).errCode = s.errCode := rfl
@[simp] theorem writeCtrl_carry (v : Word) (s : State) : (writeCtrl v s).carry = s.carry := rfl
@[simp] theorem writeCtrl_cmdLast (v : Word) (s : State) : (writeCtrl v s).cmdLast = s.cmdLast := rfl
@[simp] theorem writeCtrl_pending (v : Word) (s : State) : (writeCtrl v s).pending = s.pending := rfl
@[simp] theorem writeCtrl_faults (v : Word) (s : State) : (writeCtrl v s).faults = s.faults := rfl
@[simp] theorem writeCtrl_draws (v : Word) (s : State) : (writeCtrl v s).draws = s.draws := rfl
@[simp] theorem writeCtrl_host (v : Word) (s : State) : (writeCtrl v s).host = s.host := rfl
@[simp] theorem writeCtrl_response (v : Word) (s : State) : (writeCtrl v s).response = s.response := rfl

@[simp] theorem respondData_regs (v : Word) (s : State) : (respondData v s).regs = s.regs := rfl
@[simp] theorem respondData_written (v : Word) (s : State) : (respondData v s).written = s.written := rfl
@[simp] theorem respondData_ie (v : Word) (s : State) : (respondData v s).ie = s.ie := rfl
@[simp] theorem respondData_done (v : Word) (s : State) : (respondData v s).done = s.done := rfl
@[simp] theorem respondData_err (v : Word) (s : State) : (respondData v s).err = s.err := rfl
@[simp] theorem respondData_errCode (v : Word) (s : State) : (respondData v s).errCode = s.errCode := rfl
@[simp] theorem respondData_carry (v : Word) (s : State) : (respondData v s).carry = s.carry := rfl
@[simp] theorem respondData_cmdLast (v : Word) (s : State) : (respondData v s).cmdLast = s.cmdLast := rfl
@[simp] theorem respondData_pending (v : Word) (s : State) : (respondData v s).pending = s.pending := rfl
@[simp] theorem respondData_faults (v : Word) (s : State) : (respondData v s).faults = s.faults := rfl
@[simp] theorem respondData_draws (v : Word) (s : State) : (respondData v s).draws = s.draws := rfl
@[simp] theorem respondData_host (v : Word) (s : State) : (respondData v s).host = s.host := rfl
@[simp] theorem respondData_response (v : Word) (s : State) : (respondData v s).response = .data v := rfl

@[simp] theorem respondFree_regs (s : State) : (respondFree s).regs = s.regs := rfl
@[simp] theorem respondFree_written (s : State) : (respondFree s).written = s.written := rfl
@[simp] theorem respondFree_ie (s : State) : (respondFree s).ie = s.ie := rfl
@[simp] theorem respondFree_done (s : State) : (respondFree s).done = s.done := rfl
@[simp] theorem respondFree_err (s : State) : (respondFree s).err = s.err := rfl
@[simp] theorem respondFree_errCode (s : State) : (respondFree s).errCode = s.errCode := rfl
@[simp] theorem respondFree_carry (s : State) : (respondFree s).carry = s.carry := rfl
@[simp] theorem respondFree_cmdLast (s : State) : (respondFree s).cmdLast = s.cmdLast := rfl
@[simp] theorem respondFree_pending (s : State) : (respondFree s).pending = s.pending := rfl
@[simp] theorem respondFree_faults (s : State) : (respondFree s).faults = s.faults := rfl
@[simp] theorem respondFree_draws (s : State) : (respondFree s).draws = s.draws + 1 := rfl
@[simp] theorem respondFree_host (s : State) : (respondFree s).host = s.host := rfl
@[simp] theorem respondFree_response (s : State) : (respondFree s).response = .data (Config.freeWord s.draws) := rfl

@[simp] theorem respondAccepted_regs (s : State) : (respondAccepted s).regs = s.regs := rfl
@[simp] theorem respondAccepted_written (s : State) : (respondAccepted s).written = s.written := rfl
@[simp] theorem respondAccepted_ie (s : State) : (respondAccepted s).ie = s.ie := rfl
@[simp] theorem respondAccepted_done (s : State) : (respondAccepted s).done = s.done := rfl
@[simp] theorem respondAccepted_err (s : State) : (respondAccepted s).err = s.err := rfl
@[simp] theorem respondAccepted_errCode (s : State) : (respondAccepted s).errCode = s.errCode := rfl
@[simp] theorem respondAccepted_carry (s : State) : (respondAccepted s).carry = s.carry := rfl
@[simp] theorem respondAccepted_cmdLast (s : State) : (respondAccepted s).cmdLast = s.cmdLast := rfl
@[simp] theorem respondAccepted_pending (s : State) : (respondAccepted s).pending = s.pending := rfl
@[simp] theorem respondAccepted_faults (s : State) : (respondAccepted s).faults = s.faults := rfl
@[simp] theorem respondAccepted_draws (s : State) : (respondAccepted s).draws = s.draws := rfl
@[simp] theorem respondAccepted_host (s : State) : (respondAccepted s).host = s.host := rfl
@[simp] theorem respondAccepted_response (s : State) : (respondAccepted s).response = .accepted := rfl

@[simp] theorem disturb_regs (s : State) : (disturb s).regs = s.regs := rfl
@[simp] theorem disturb_written (s : State) : (disturb s).written = s.written := rfl
@[simp] theorem disturb_ie (s : State) : (disturb s).ie = s.ie := rfl
@[simp] theorem disturb_done (s : State) : (disturb s).done = s.done := rfl
@[simp] theorem disturb_err (s : State) : (disturb s).err = s.err := rfl
@[simp] theorem disturb_errCode (s : State) : (disturb s).errCode = s.errCode := rfl
@[simp] theorem disturb_carry (s : State) : (disturb s).carry = s.carry := rfl
@[simp] theorem disturb_cmdLast (s : State) : (disturb s).cmdLast = s.cmdLast := rfl
@[simp] theorem disturb_pending (s : State) : (disturb s).pending = s.pending.map (fun p => { p with disturbed := true }) := rfl
@[simp] theorem disturb_faults (s : State) : (disturb s).faults = s.faults := rfl
@[simp] theorem disturb_draws (s : State) : (disturb s).draws = s.draws := rfl
@[simp] theorem disturb_host (s : State) : (disturb s).host = s.host := rfl
@[simp] theorem disturb_response (s : State) : (disturb s).response = s.response := rfl

@[simp] theorem busFault_regs (wd : AccessWidth) (off : Offset) (s : State) : (busFault wd off s).regs = s.regs := rfl
@[simp] theorem busFault_written (wd : AccessWidth) (off : Offset) (s : State) : (busFault wd off s).written = s.written := rfl
@[simp] theorem busFault_ie (wd : AccessWidth) (off : Offset) (s : State) : (busFault wd off s).ie = s.ie := rfl
@[simp] theorem busFault_done (wd : AccessWidth) (off : Offset) (s : State) : (busFault wd off s).done = s.done := rfl
@[simp] theorem busFault_err (wd : AccessWidth) (off : Offset) (s : State) : (busFault wd off s).err = s.err := rfl
@[simp] theorem busFault_errCode (wd : AccessWidth) (off : Offset) (s : State) : (busFault wd off s).errCode = s.errCode := rfl
@[simp] theorem busFault_carry (wd : AccessWidth) (off : Offset) (s : State) : (busFault wd off s).carry = s.carry := rfl
@[simp] theorem busFault_cmdLast (wd : AccessWidth) (off : Offset) (s : State) : (busFault wd off s).cmdLast = s.cmdLast := rfl
@[simp] theorem busFault_pending (wd : AccessWidth) (off : Offset) (s : State) : (busFault wd off s).pending = s.pending := rfl
@[simp] theorem busFault_faults (wd : AccessWidth) (off : Offset) (s : State) : (busFault wd off s).faults = (s.record (.hostBusFault off wd)).faults := rfl
@[simp] theorem busFault_draws (wd : AccessWidth) (off : Offset) (s : State) : (busFault wd off s).draws = s.draws := rfl
@[simp] theorem busFault_host (wd : AccessWidth) (off : Offset) (s : State) : (busFault wd off s).host = s.host := rfl
@[simp] theorem busFault_response (wd : AccessWidth) (off : Offset) (s : State) : (busFault wd off s).response = .busError := rfl

@[simp] theorem assertReset_regs (s : State) : (assertReset s).regs = State.reset.regs := rfl
@[simp] theorem assertReset_written (s : State) : (assertReset s).written = State.reset.written := rfl
@[simp] theorem assertReset_ie (s : State) : (assertReset s).ie = State.reset.ie := rfl
@[simp] theorem assertReset_done (s : State) : (assertReset s).done = State.reset.done := rfl
@[simp] theorem assertReset_err (s : State) : (assertReset s).err = State.reset.err := rfl
@[simp] theorem assertReset_errCode (s : State) : (assertReset s).errCode = State.reset.errCode := rfl
@[simp] theorem assertReset_carry (s : State) : (assertReset s).carry = State.reset.carry := rfl
@[simp] theorem assertReset_cmdLast (s : State) : (assertReset s).cmdLast = State.reset.cmdLast := rfl
@[simp] theorem assertReset_pending (s : State) : (assertReset s).pending = State.reset.pending := rfl
@[simp] theorem assertReset_faults (s : State) : (assertReset s).faults = State.reset.faults := rfl
@[simp] theorem assertReset_draws (s : State) : (assertReset s).draws = s.draws := rfl
@[simp] theorem assertReset_host (s : State) : (assertReset s).host = s.host := rfl
@[simp] theorem assertReset_response (s : State) : (assertReset s).response = State.reset.response := rfl

theorem State.recordAll_nil (s : State) : s.recordAll [] = s := rfl

theorem State.recordAll_cons (s : State) (r : FaultRecord) (rs : List FaultRecord) :
    s.recordAll (r :: rs) = (s.record r).recordAll rs := rfl

@[simp] theorem State.recordAll_regs (s : State) (rs : List FaultRecord) : (s.recordAll rs).regs = s.regs := by
  induction rs generalizing s with
  | nil => rfl
  | cons r rs ih => rw [State.recordAll_cons, ih, State.record_regs]

@[simp] theorem State.recordAll_written (s : State) (rs : List FaultRecord) : (s.recordAll rs).written = s.written := by
  induction rs generalizing s with
  | nil => rfl
  | cons r rs ih => rw [State.recordAll_cons, ih, State.record_written]

@[simp] theorem State.recordAll_ie (s : State) (rs : List FaultRecord) : (s.recordAll rs).ie = s.ie := by
  induction rs generalizing s with
  | nil => rfl
  | cons r rs ih => rw [State.recordAll_cons, ih, State.record_ie]

@[simp] theorem State.recordAll_done (s : State) (rs : List FaultRecord) : (s.recordAll rs).done = s.done := by
  induction rs generalizing s with
  | nil => rfl
  | cons r rs ih => rw [State.recordAll_cons, ih, State.record_done]

@[simp] theorem State.recordAll_err (s : State) (rs : List FaultRecord) : (s.recordAll rs).err = s.err := by
  induction rs generalizing s with
  | nil => rfl
  | cons r rs ih => rw [State.recordAll_cons, ih, State.record_err]

@[simp] theorem State.recordAll_errCode (s : State) (rs : List FaultRecord) : (s.recordAll rs).errCode = s.errCode := by
  induction rs generalizing s with
  | nil => rfl
  | cons r rs ih => rw [State.recordAll_cons, ih, State.record_errCode]

@[simp] theorem State.recordAll_carry (s : State) (rs : List FaultRecord) : (s.recordAll rs).carry = s.carry := by
  induction rs generalizing s with
  | nil => rfl
  | cons r rs ih => rw [State.recordAll_cons, ih, State.record_carry]

@[simp] theorem State.recordAll_cmdLast (s : State) (rs : List FaultRecord) : (s.recordAll rs).cmdLast = s.cmdLast := by
  induction rs generalizing s with
  | nil => rfl
  | cons r rs ih => rw [State.recordAll_cons, ih, State.record_cmdLast]

@[simp] theorem State.recordAll_pending (s : State) (rs : List FaultRecord) : (s.recordAll rs).pending = s.pending := by
  induction rs generalizing s with
  | nil => rfl
  | cons r rs ih => rw [State.recordAll_cons, ih, State.record_pending]

@[simp] theorem State.recordAll_draws (s : State) (rs : List FaultRecord) : (s.recordAll rs).draws = s.draws := by
  induction rs generalizing s with
  | nil => rfl
  | cons r rs ih => rw [State.recordAll_cons, ih, State.record_draws]

@[simp] theorem State.recordAll_host (s : State) (rs : List FaultRecord) : (s.recordAll rs).host = s.host := by
  induction rs generalizing s with
  | nil => rfl
  | cons r rs ih => rw [State.recordAll_cons, ih, State.record_host]

@[simp] theorem State.recordAll_response (s : State) (rs : List FaultRecord) : (s.recordAll rs).response = s.response := by
  induction rs generalizing s with
  | nil => rfl
  | cons r rs ih => rw [State.recordAll_cons, ih, State.record_response]

@[simp] theorem State.writeOperand_ie (s : State) (o : Operand) (v : Wide) : (s.writeOperand o v).ie = s.ie := by
  obtain ⟨k, n⟩ := o; cases k <;> rfl

@[simp] theorem State.writeDest_ie (s : State) (o : Option Operand) (v : Wide) : (s.writeDest o v).ie = s.ie := by
  cases o with
  | none => rfl
  | some o => exact s.writeOperand_ie o v

@[simp] theorem State.writeOperand_done (s : State) (o : Operand) (v : Wide) : (s.writeOperand o v).done = s.done := by
  obtain ⟨k, n⟩ := o; cases k <;> rfl

@[simp] theorem State.writeDest_done (s : State) (o : Option Operand) (v : Wide) : (s.writeDest o v).done = s.done := by
  cases o with
  | none => rfl
  | some o => exact s.writeOperand_done o v

@[simp] theorem State.writeOperand_err (s : State) (o : Operand) (v : Wide) : (s.writeOperand o v).err = s.err := by
  obtain ⟨k, n⟩ := o; cases k <;> rfl

@[simp] theorem State.writeDest_err (s : State) (o : Option Operand) (v : Wide) : (s.writeDest o v).err = s.err := by
  cases o with
  | none => rfl
  | some o => exact s.writeOperand_err o v

@[simp] theorem State.writeOperand_errCode (s : State) (o : Operand) (v : Wide) : (s.writeOperand o v).errCode = s.errCode := by
  obtain ⟨k, n⟩ := o; cases k <;> rfl

@[simp] theorem State.writeDest_errCode (s : State) (o : Option Operand) (v : Wide) : (s.writeDest o v).errCode = s.errCode := by
  cases o with
  | none => rfl
  | some o => exact s.writeOperand_errCode o v

@[simp] theorem State.writeOperand_carry (s : State) (o : Operand) (v : Wide) : (s.writeOperand o v).carry = s.carry := by
  obtain ⟨k, n⟩ := o; cases k <;> rfl

@[simp] theorem State.writeDest_carry (s : State) (o : Option Operand) (v : Wide) : (s.writeDest o v).carry = s.carry := by
  cases o with
  | none => rfl
  | some o => exact s.writeOperand_carry o v

@[simp] theorem State.writeOperand_cmdLast (s : State) (o : Operand) (v : Wide) : (s.writeOperand o v).cmdLast = s.cmdLast := by
  obtain ⟨k, n⟩ := o; cases k <;> rfl

@[simp] theorem State.writeDest_cmdLast (s : State) (o : Option Operand) (v : Wide) : (s.writeDest o v).cmdLast = s.cmdLast := by
  cases o with
  | none => rfl
  | some o => exact s.writeOperand_cmdLast o v

@[simp] theorem State.writeOperand_pending (s : State) (o : Operand) (v : Wide) : (s.writeOperand o v).pending = s.pending := by
  obtain ⟨k, n⟩ := o; cases k <;> rfl

@[simp] theorem State.writeDest_pending (s : State) (o : Option Operand) (v : Wide) : (s.writeDest o v).pending = s.pending := by
  cases o with
  | none => rfl
  | some o => exact s.writeOperand_pending o v

@[simp] theorem State.writeOperand_faults (s : State) (o : Operand) (v : Wide) : (s.writeOperand o v).faults = s.faults := by
  obtain ⟨k, n⟩ := o; cases k <;> rfl

@[simp] theorem State.writeDest_faults (s : State) (o : Option Operand) (v : Wide) : (s.writeDest o v).faults = s.faults := by
  cases o with
  | none => rfl
  | some o => exact s.writeOperand_faults o v

@[simp] theorem State.writeOperand_draws (s : State) (o : Operand) (v : Wide) : (s.writeOperand o v).draws = s.draws := by
  obtain ⟨k, n⟩ := o; cases k <;> rfl

@[simp] theorem State.writeDest_draws (s : State) (o : Option Operand) (v : Wide) : (s.writeDest o v).draws = s.draws := by
  cases o with
  | none => rfl
  | some o => exact s.writeOperand_draws o v

@[simp] theorem State.writeOperand_host (s : State) (o : Operand) (v : Wide) : (s.writeOperand o v).host = s.host := by
  obtain ⟨k, n⟩ := o; cases k <;> rfl

@[simp] theorem State.writeDest_host (s : State) (o : Option Operand) (v : Wide) : (s.writeDest o v).host = s.host := by
  cases o with
  | none => rfl
  | some o => exact s.writeOperand_host o v

@[simp] theorem State.writeOperand_response (s : State) (o : Operand) (v : Wide) : (s.writeOperand o v).response = s.response := by
  obtain ⟨k, n⟩ := o; cases k <;> rfl

@[simp] theorem State.writeDest_response (s : State) (o : Option Operand) (v : Wide) : (s.writeDest o v).response = s.response := by
  cases o with
  | none => rfl
  | some o => exact s.writeOperand_response o v

@[simp] theorem accept_regs (c : Command) (s : State) : (accept c s).regs = s.regs := by
  simp only [accept]; split <;> simp

@[simp] theorem accept_written (c : Command) (s : State) : (accept c s).written = s.written := by
  simp only [accept]; split <;> simp

@[simp] theorem accept_ie (c : Command) (s : State) : (accept c s).ie = s.ie := by
  simp only [accept]; split <;> simp

@[simp] theorem accept_done (c : Command) (s : State) : (accept c s).done = false := rfl

@[simp] theorem accept_err (c : Command) (s : State) : (accept c s).err = s.err := by
  simp only [accept]; split <;> simp

@[simp] theorem accept_errCode (c : Command) (s : State) : (accept c s).errCode = s.errCode := by
  simp only [accept]; split <;> simp

@[simp] theorem accept_carry (c : Command) (s : State) : (accept c s).carry = s.carry := by
  simp only [accept]; split <;> simp

@[simp] theorem accept_cmdLast (c : Command) (s : State) : (accept c s).cmdLast = s.cmdLast := by
  simp only [accept]; split <;> simp

@[simp] theorem accept_pending (c : Command) (s : State) : (accept c s).pending = some
      { instr := c.instr
        latch := latchOf c s
        remaining := Config.latency c.instr.opcode c.instr.sizeBit
        disturbed := false } := rfl

@[simp] theorem accept_draws (c : Command) (s : State) : (accept c s).draws = s.draws + acceptDraws := rfl

@[simp] theorem accept_host (c : Command) (s : State) : (accept c s).host = s.host := by
  simp only [accept]; split <;> simp

@[simp] theorem accept_response (c : Command) (s : State) : (accept c s).response = s.response := by
  simp only [accept]; split <;> simp

theorem accept_faults (c : Command) (s : State) :
    (accept c s).faults =
      (if c.legal (latchOf c s) then
        s.recordAll (s.uninitOperand c.srcA ++ s.uninitOperand c.srcB)
      else
        (s.recordAll (s.uninitOperand c.srcA ++ s.uninitOperand c.srcB)).record
          (.preconditionViolation c.instr.opcode)).faults := rfl

@[simp] theorem complete_regs (c : Command) (p : Pending) (s : State) :
    (complete c p s).regs = (s.writeDest c.dst (resultsOf c p s.draws).value).regs := rfl

@[simp] theorem complete_written (c : Command) (p : Pending) (s : State) :
    (complete c p s).written = (s.writeDest c.dst (resultsOf c p s.draws).value).written := rfl

@[simp] theorem complete_ie (c : Command) (p : Pending) (s : State) :
    (complete c p s).ie = s.ie := by
  simp [complete]

@[simp] theorem complete_done (c : Command) (p : Pending) (s : State) :
    (complete c p s).done = true := rfl

@[simp] theorem complete_err (c : Command) (p : Pending) (s : State) :
    (complete c p s).err = s.err := by
  simp [complete]

@[simp] theorem complete_errCode (c : Command) (p : Pending) (s : State) :
    (complete c p s).errCode = s.errCode := by
  simp [complete]

@[simp] theorem complete_carry (c : Command) (p : Pending) (s : State) :
    (complete c p s).carry = (resultsOf c p s.draws).carry.getD s.carry := rfl

@[simp] theorem complete_cmdLast (c : Command) (p : Pending) (s : State) :
    (complete c p s).cmdLast = s.cmdLast := by
  simp [complete]

@[simp] theorem complete_pending (c : Command) (p : Pending) (s : State) :
    (complete c p s).pending = none := rfl

@[simp] theorem complete_faults (c : Command) (p : Pending) (s : State) :
    (complete c p s).faults = s.faults := by
  simp [complete]

@[simp] theorem complete_draws (c : Command) (p : Pending) (s : State) :
    (complete c p s).draws = s.draws + completeDraws := rfl

@[simp] theorem complete_host (c : Command) (p : Pending) (s : State) :
    (complete c p s).host = s.host := by
  simp [complete]

@[simp] theorem complete_response (c : Command) (p : Pending) (s : State) :
    (complete c p s).response = s.response := by
  simp [complete]

end Sys2Proof.Machine
end

