-- ==== Sys2Proof/Laws/Registers.lean ====
section
/-! SUPPORT. Reading after writing in the element register file: words of an element, elements, written
marks, what a command reads and writes through its operands. -/

namespace Sys2Proof.Machine

/-! ## Words of an element -/

theorem getLsbD_wordMask (w i : Nat) :
    (wordMask w).getLsbD i = (decide (i < 448) && decide (32 * w ≤ i) && decide (i < 32 * w + 32)) := by
  simp only [wordMask, BitVec.getLsbD_shiftLeft, BitVec.getLsbD_setWidth, BitVec.getLsbD_allOnes]
  by_cases h1 : i < 448 <;> by_cases h2 : i < 32 * w
  · simp [h1, h2]
  · have h3 : i - 32 * w < 448 := by omega
    have h4 : (i - 32 * w < 32) ↔ (i < 32 * w + 32) := by omega
    simp [h1, h2, h3, h4, Nat.le_of_not_lt h2]
  · simp [h1]
  · simp [h1]

theorem getLsbD_withWord (v : Elem) (w : Nat) (x : Word) (i : Nat) (h : i < 448) :
    (withWord v w x).getLsbD i
      = if 32 * w ≤ i ∧ i < 32 * w + 32 then x.getLsbD (i - 32 * w) else v.getLsbD i := by
  simp only [withWord, BitVec.getLsbD_or, BitVec.getLsbD_and, BitVec.getLsbD_not, getLsbD_wordMask,
    BitVec.getLsbD_shiftLeft, BitVec.getLsbD_setWidth, h]
  by_cases h1 : 32 * w ≤ i
  · by_cases h2 : i < 32 * w + 32
    · have : i - 32 * w < 448 := by omega
      simp [h1, h2, this]
    · have hx : x.getLsbD (i - 32 * w) = false := BitVec.getLsbD_of_ge _ _ (by omega)
      simp [h1, h2, hx]
  · simp [h1, show i < 32 * w by omega]

theorem getLsbD_wordOf (v : Elem) (w i : Nat) :
    (wordOf v w).getLsbD i = (decide (i < 32) && v.getLsbD (32 * w + i)) := by
  simp [wordOf]

theorem wordOf_withWord_same (v : Elem) (w : Nat) (x : Word) (h : w < 14) :
    wordOf (withWord v w x) w = x := by
  apply BitVec.eq_of_getLsbD_eq
  intro i hi
  rw [getLsbD_wordOf, getLsbD_withWord _ _ _ _ (by omega)]
  simp [hi]

theorem wordOf_withWord_other (v : Elem) (w w' : Nat) (x : Word) (h : w' < 14) (hne : w' ≠ w) :
    wordOf (withWord v w x) w' = wordOf v w' := by
  apply BitVec.eq_of_getLsbD_eq
  intro i hi
  rw [getLsbD_wordOf, getLsbD_wordOf, getLsbD_withWord _ _ _ _ (by omega)]
  have : ¬(32 * w ≤ 32 * w' + i ∧ 32 * w' + i < 32 * w + 32) := by omega
  simp [this]

/-- Two elements with the same fourteen words are equal. -/
theorem elem_ext (u v : Elem) (h : ∀ w, w < 14 → wordOf u w = wordOf v w) : u = v := by
  apply BitVec.eq_of_getLsbD_eq
  intro i hi
  have := congrArg (fun x : Word => x.getLsbD (i % 32)) (h (i / 32) (by omega))
  simp only [getLsbD_wordOf, Nat.div_add_mod, Nat.mod_lt i (show 32 > 0 by decide)] at this
  simpa using this

/-- The selection over the first n words. -/
theorem wordOf_selectWords_range (m : Marks) (v f : Elem) (n w : Nat) (hn : n ≤ 14) (h : w < 14) :
    wordOf ((List.range n).foldl
        (fun acc w => if m.getLsbD w then acc else withWord acc w (wordOf f w)) v) w
      = if w < n ∧ m.getLsbD w = false then wordOf f w else wordOf v w := by
  induction n with
  | zero => simp
  | succ n ih =>
    rw [List.range_succ, List.foldl_append]
    simp only [List.foldl_cons, List.foldl_nil]
    by_cases hm : m.getLsbD n = true
    · rw [if_pos hm, ih (by omega)]
      by_cases hw : w = n
      · subst hw; simp [hm]
      · have : (w < n + 1) ↔ (w < n) := by omega
        simp only [this]
    · rw [if_neg hm]
      by_cases hw : w = n
      · subst hw
        rw [wordOf_withWord_same _ _ _ h]
        simp at hm; simp [hm]
      · rw [wordOf_withWord_other _ _ _ _ h hw, ih (by omega)]
        have : (w < n + 1) ↔ (w < n) := by omega
        simp only [this]

/-- A word of a selection: the stored one where the mark is set, else the free one. -/
theorem wordOf_selectWords (m : Marks) (v f : Elem) (w : Nat) (h : w < 14) :
    wordOf (selectWords m v f) w = if m.getLsbD w then wordOf v w else wordOf f w := by
  rw [selectWords, wordOf_selectWords_range m v f 14 w (Nat.le_refl _) h]
  cases m.getLsbD w <;> simp [h]

theorem selectWords_written (v f : Elem) : selectWords (BitVec.allOnes 14) v f = v := by
  apply elem_ext
  intro w h
  rw [wordOf_selectWords _ _ _ _ h, BitVec.getLsbD_allOnes, decide_eq_true h, if_pos rfl]

/-! ## Elements and their marks -/

@[simp] theorem elem_writeElem_same (s : State) (n : RegIx) (v : Elem) :
    (s.writeElem n v).elem n = v := by
  simp [State.elem]

theorem elem_writeElem_other (s : State) (n m : RegIx) (v : Elem) (h : m ≠ n) :
    (s.writeElem n v).elem m = s.elem m := by
  have : n.toNat ≠ m.toNat := fun e => h (BitVec.eq_of_toNat_eq e.symm)
  simp [State.elem, this]

theorem elem_writeElem (s : State) (n m : RegIx) (v : Elem) :
    (s.writeElem n v).elem m = if m = n then v else s.elem m := by
  split
  · next h => subst h; simp
  · next h => exact elem_writeElem_other s n m v h

@[simp] theorem marks_writeElem_same (s : State) (n : RegIx) (v : Elem) :
    (s.writeElem n v).marks n = BitVec.allOnes 14 := by
  simp [State.marks]

theorem marks_writeElem_other (s : State) (n m : RegIx) (v : Elem) (h : m ≠ n) :
    (s.writeElem n v).marks m = s.marks m := by
  have : n.toNat ≠ m.toNat := fun e => h (BitVec.eq_of_toNat_eq e.symm)
  simp [State.marks, this]

theorem elem_writeWord (s : State) (n m : RegIx) (w : Nat) (x : Word) :
    (s.writeWord n w x).elem m = if m = n then withWord (s.elem n) w x else s.elem m := by
  split
  · next h => subst h; simp [State.elem]
  · next h =>
    have : n.toNat ≠ m.toNat := fun e => h (BitVec.eq_of_toNat_eq e.symm)
    simp [State.elem, this]

theorem marks_writeWord (s : State) (n m : RegIx) (w : Nat) (x : Word) :
    (s.writeWord n w x).marks m = if m = n then s.marks n ||| (1#14 <<< w) else s.marks m := by
  split
  · next h => subst h; simp [State.marks]
  · next h =>
    have : n.toNat ≠ m.toNat := fun e => h (BitVec.eq_of_toNat_eq e.symm)
    simp [State.marks, this]

/-- An element all of whose words are written reads as it is stored. -/
theorem readElem_of_written (s : State) (n : RegIx) (k : Nat) (h : s.elemWritten n = true) :
    s.readElem n k = s.elem n := by
  have : s.marks n = BitVec.allOnes 14 := by simpa [State.elemWritten] using h
  rw [State.readElem, this, selectWords_written]

/-- An element all of whose words are written raises no UninitRead. -/
theorem uninitOf_of_written (s : State) (n : RegIx) (h : s.elemWritten n = true) :
    s.uninitOf n = [] := by
  have h' : s.marks n = BitVec.allOnes 14 := by simpa [State.elemWritten] using h
  rw [State.uninitOf, h', List.filterMap_eq_nil_iff]
  intro w hw
  rw [BitVec.getLsbD_allOnes, decide_eq_true (List.mem_range.mp hw), if_pos rfl]

/-! ## Equal register files -/

/-- A read depends on the register file and the marks only. -/
theorem readElem_congr (s t : State) (hr : t.regs = s.regs) (hw : t.written = s.written) (n : RegIx)
    (k : Nat) : t.readElem n k = s.readElem n k := by
  simp [State.readElem, State.elem, State.marks, hr, hw]

theorem elem_congr (s t : State) (hr : t.regs = s.regs) (n : RegIx) : t.elem n = s.elem n := by
  simp [State.elem, hr]

theorem marks_congr (s t : State) (hw : t.written = s.written) (n : RegIx) :
    t.marks n = s.marks n := by
  simp [State.marks, hw]

/-! ## Halves of a pair -/

@[simp] theorem loHalf_append (hi lo : Elem) : loHalf (hi ++ lo) = lo := by
  apply BitVec.eq_of_getLsbD_eq
  intro i h
  rw [loHalf, BitVec.getLsbD_extractLsb', BitVec.getLsbD_append]
  simp [h]

@[simp] theorem hiHalf_append (hi lo : Elem) : hiHalf (hi ++ lo) = hi := by
  apply BitVec.eq_of_getLsbD_eq
  intro i h
  rw [hiHalf, BitVec.getLsbD_extractLsb', BitVec.getLsbD_append]
  simp [h]

@[simp] theorem loHalf_setWidth (v : Elem) : loHalf (v.setWidth 896) = v := by
  apply BitVec.eq_of_getLsbD_eq
  intro i h
  simp [loHalf, h]; omega

theorem loHalf_toNat (v : Wide) : (loHalf v).toNat = v.toNat % 2 ^ 448 :=
  (BitVec.extractLsb'_toNat 0 448 v).trans
    (congrArg (fun x => x % 2 ^ 448) (Nat.shiftRight_zero (n := v.toNat)))

theorem two_pow_896 : (2 : Nat) ^ 896 = 2 ^ 448 * 2 ^ 448 := by decide +kernel

theorem hiHalf_toNat (v : Wide) : (hiHalf v).toNat = v.toNat / 2 ^ 448 := by
  have h := v.isLt
  rw [two_pow_896] at h
  rw [hiHalf, BitVec.extractLsb'_toNat, Nat.shiftRight_eq_div_pow]
  exact Nat.mod_eq_of_lt (Nat.div_lt_of_lt_mul h)

/-! ## Operands -/

theorem readOperand_elem (s : State) (n : RegIx) (k : Nat) :
    s.readOperand (elemAt n) k = (s.readElem n k).setWidth 896 := rfl

theorem readOperand_pair (s : State) (n : RegIx) (k : Nat) :
    s.readOperand (pairAt n) k = s.readElem (n + 1#6) (k + 1) ++ s.readElem n k := rfl

theorem writeOperand_elem (s : State) (n : RegIx) (v : Wide) :
    s.writeOperand (elemAt n) v = s.writeElem n (loHalf v) := rfl

theorem writeOperand_pair (s : State) (n : RegIx) (v : Wide) :
    s.writeOperand (pairAt n) v = (s.writeElem n (loHalf v)).writeElem (n + 1#6) (hiHalf v) := rfl

/-- The registers a destination names. -/
def destRegs (o : Option Operand) : List RegIx :=
  match o with
  | none => []
  | some o =>
    match o.kind with
    | .elem => [o.index]
    | .pair => [o.index, o.index + 1#6]

/-- A write of a destination leaves every register it does not name as it was. -/
theorem elem_writeDest_other (s : State) (o : Option Operand) (v : Wide) (m : RegIx)
    (h : m ∉ destRegs o) : (s.writeDest o v).elem m = s.elem m := by
  cases o with
  | none => rfl
  | some o =>
    obtain ⟨k, n⟩ := o
    cases k <;> simp [destRegs] at h
    · exact elem_writeElem_other s n m _ h
    · simp only [State.writeDest, State.writeOperand]
      rw [elem_writeElem_other _ _ _ _ h.2, elem_writeElem_other _ _ _ _ h.1]

/-- A write of a destination leaves the marks of every register it does not name as they were. -/
theorem marks_writeDest_other (s : State) (o : Option Operand) (v : Wide) (m : RegIx)
    (h : m ∉ destRegs o) : (s.writeDest o v).marks m = s.marks m := by
  cases o with
  | none => rfl
  | some o =>
    obtain ⟨k, n⟩ := o
    cases k <;> simp [destRegs] at h
    · exact marks_writeElem_other s n m _ h
    · simp only [State.writeDest, State.writeOperand]
      rw [marks_writeElem_other _ _ _ _ h.2, marks_writeElem_other _ _ _ _ h.1]

/-- A write of a destination marks every word of the registers it names. -/
theorem marks_writeDest (s : State) (o : Option Operand) (v : Wide) (m : RegIx)
    (h : m ∈ destRegs o) : (s.writeDest o v).marks m = BitVec.allOnes 14 := by
  cases o with
  | none => simp [destRegs] at h
  | some o =>
    obtain ⟨k, n⟩ := o
    cases k <;> simp [destRegs] at h
    · subst h; exact marks_writeElem_same s m _
    · simp only [State.writeDest, State.writeOperand]
      by_cases e : m = n + 1#6
      · subst e; exact marks_writeElem_same _ _ _
      · rw [marks_writeElem_other _ _ _ _ e]
        rcases h with rfl | h
        · exact marks_writeElem_same s m _
        · exact absurd h e

theorem regIx_succ_ne (n : RegIx) : n + 1#6 ≠ n := by
  intro h
  have : (n + 1#6) - n = n - n := by rw [h]
  rw [BitVec.sub_self, BitVec.add_comm, BitVec.add_sub_cancel] at this
  exact absurd this (by decide)

/-! ## The fault set -/

theorem mem_record (s : State) (r r' : FaultRecord) :
    r' ∈ (s.record r).faults ↔ r' = r ∨ r' ∈ s.faults := by
  simp only [State.record_faults]
  split
  · next h =>
    simp at h
    constructor
    · exact Or.inr
    · rintro (rfl | h') <;> assumption
  · simp [or_comm]

theorem mem_recordAll (s : State) (rs : List FaultRecord) (r' : FaultRecord) :
    r' ∈ (s.recordAll rs).faults ↔ r' ∈ rs ∨ r' ∈ s.faults := by
  induction rs generalizing s with
  | nil => simp [State.recordAll_nil]
  | cons r rs ih =>
    rw [State.recordAll_cons, ih, mem_record]
    simp only [List.mem_cons]
    tauto

theorem nodup_record (s : State) (r : FaultRecord) (h : s.faults.Nodup) :
    (s.record r).faults.Nodup := by
  simp only [State.record_faults]
  split
  · exact h
  · next hc =>
    simp at hc
    rw [List.nodup_append]
    exact ⟨h, by simp, by rintro a ha b hb rfl; simp at hb; exact hc (hb ▸ ha)⟩

theorem nodup_recordAll (s : State) (rs : List FaultRecord) (h : s.faults.Nodup) :
    (s.recordAll rs).faults.Nodup := by
  induction rs generalizing s with
  | nil => exact h
  | cons r rs ih => exact ih _ (nodup_record s r h)

end Sys2Proof.Machine
end

