-- ==== Sys2Proof/Laws/Command.lean ====
section
/-! SUPPORT. What a command can do, said once: exec of a command is runCommand of its rule, and
runCommand answers one of four next states. -/

namespace Sys2Proof.Machine

@[simp] theorem commandOf_instr (i : Instr) : (commandOf i).instr = i := by
  cases i <;> rfl

/-- exec is runCommand of the command's rule, for every command. -/
theorem exec_eq_runCommand (i : Instr) (s : State) : exec i s = runCommand (commandOf i) s := by
  cases i <;> rfl

theorem runCommand_idle (c : Command) (s : State) (hp : s.pending = none)
    (hw : c.instr.wellFormed = true) : runCommand c s = .next (accept c s) := by
  simp [runCommand, hp, hw]

theorem runCommand_illFormed (c : Command) (s : State) (hp : s.pending = none)
    (hw : c.instr.wellFormed = false) : runCommand c s = .next (commandError .illegalField s) := by
  simp [runCommand, hp, hw]

theorem runCommand_pending (c : Command) (s : State) (p : Pending) (hp : s.pending = some p)
    (hi : p.instr = c.instr) : runCommand c s = .next (complete c p s) := by
  simp [runCommand, hp, hi]

theorem runCommand_other (c : Command) (s : State) (p : Pending) (hp : s.pending = some p)
    (hi : p.instr ≠ c.instr) : runCommand c s = .next (busyReject s) := by
  simp [runCommand, hp, hi]

theorem exec_idle (i : Instr) (s : State) (hp : s.pending = none) (hw : i.wellFormed = true) :
    exec i s = .next (accept (commandOf i) s) := by
  rw [exec_eq_runCommand, runCommand_idle _ _ hp (by simpa using hw)]

theorem exec_illFormed (i : Instr) (s : State) (hp : s.pending = none) (hw : i.wellFormed = false) :
    exec i s = .next (commandError .illegalField s) := by
  rw [exec_eq_runCommand, runCommand_illFormed _ _ hp (by simpa using hw)]

theorem exec_pending (i : Instr) (s : State) (p : Pending) (hp : s.pending = some p)
    (hi : p.instr = i) : exec i s = .next (complete (commandOf i) p s) := by
  rw [exec_eq_runCommand, runCommand_pending _ _ p hp (by simpa using hi)]

theorem exec_other (i : Instr) (s : State) (p : Pending) (hp : s.pending = some p)
    (hi : p.instr ≠ i) : exec i s = .next (busyReject s) := by
  rw [exec_eq_runCommand, runCommand_other _ _ p hp (by simpa using hi)]

/-- The one inversion of exec: whatever it answers is the acceptance, a command error, the completion or
a rejection. -/
theorem exec_cases (i : Instr) (s : State) :
    (s.pending = none ∧ i.wellFormed = true ∧ exec i s = .next (accept (commandOf i) s)) ∨
    (s.pending = none ∧ i.wellFormed = false ∧ exec i s = .next (commandError .illegalField s)) ∨
    (∃ p, s.pending = some p ∧ p.instr = i ∧ exec i s = .next (complete (commandOf i) p s)) ∨
    (∃ p, s.pending = some p ∧ p.instr ≠ i ∧ exec i s = .next (busyReject s)) := by
  cases hp : s.pending with
  | none =>
    cases hw : i.wellFormed with
    | true => exact .inl ⟨rfl, rfl, exec_idle i s hp hw⟩
    | false => exact .inr (.inl ⟨rfl, rfl, exec_illFormed i s hp hw⟩)
  | some p =>
    by_cases hi : p.instr = i
    · exact .inr (.inr (.inl ⟨p, rfl, hi, exec_pending i s p hp hi⟩))
    · exact .inr (.inr (.inr ⟨p, rfl, hi, exec_other i s p hp hi⟩))

/-! ## Results -/

theorem resultsOf_given (c : Command) (p : Pending) (k : Nat) (hl : c.legal p.latch = true)
    (hd : p.disturbed = false) : resultsOf c p k = c.result p.latch := by
  simp [resultsOf, resultGiven, hl, hd]

theorem resultsOf_free (c : Command) (p : Pending) (k : Nat)
    (h : c.legal p.latch = false ∨ p.disturbed = true) :
    resultsOf c p k =
      { value := freeWide k, carry := (c.result p.latch).carry.map (fun _ => Config.freeBit k) } := by
  rcases h with h | h <;> simp [resultsOf, resultGiven, h]

/-- A completion writes CARRY only where the rule gives a CARRY. -/
theorem complete_carry_none (c : Command) (p : Pending) (s : State)
    (h : (c.result p.latch).carry = none) : (complete c p s).carry = s.carry := by
  rw [complete_carry, resultsOf]
  split <;> simp [h]

/-- A completion leaves every register its destination does not name as it was. -/
theorem elem_complete_other (c : Command) (p : Pending) (s : State) (m : RegIx)
    (h : m ∉ destRegs c.dst) : (complete c p s).elem m = s.elem m := by
  rw [elem_congr _ _ (complete_regs c p s), elem_writeDest_other _ _ _ _ h]

theorem marks_complete_other (c : Command) (p : Pending) (s : State) (m : RegIx)
    (h : m ∉ destRegs c.dst) : (complete c p s).marks m = s.marks m := by
  rw [marks_congr _ _ (complete_written c p s), marks_writeDest_other _ _ _ _ h]

theorem marks_complete (c : Command) (p : Pending) (s : State) (m : RegIx)
    (h : m ∈ destRegs c.dst) : (complete c p s).marks m = BitVec.allOnes 14 := by
  rw [marks_congr _ _ (complete_written c p s), marks_writeDest _ _ _ _ h]

theorem elem_complete_elem (c : Command) (p : Pending) (s : State) (n : RegIx)
    (h : c.dst = some (elemAt n)) :
    (complete c p s).elem n = loHalf (resultsOf c p s.draws).value := by
  rw [elem_congr _ _ (complete_regs c p s), h]
  exact elem_writeElem_same s n _

theorem elem_complete_pair (c : Command) (p : Pending) (s : State) (n : RegIx)
    (h : c.dst = some (pairAt n)) :
    (complete c p s).elem n = loHalf (resultsOf c p s.draws).value ∧
      (complete c p s).elem (n + 1#6) = hiHalf (resultsOf c p s.draws).value := by
  constructor
  · rw [elem_congr _ _ (complete_regs c p s), h]
    simp only [State.writeDest, writeOperand_pair]
    rw [elem_writeElem_other _ _ _ _ (regIx_succ_ne n).symm]
    exact elem_writeElem_same s n _
  · rw [elem_congr _ _ (complete_regs c p s), h]
    exact elem_writeElem_same _ _ _

/-! ## The faults an acceptance records -/

theorem mem_accept_faults (c : Command) (s : State) (r : FaultRecord) :
    r ∈ (accept c s).faults ↔
      (c.legal (latchOf c s) = false ∧ r = .preconditionViolation c.instr.opcode) ∨
        r ∈ s.uninitOperand c.srcA ++ s.uninitOperand c.srcB ∨ r ∈ s.faults := by
  rw [accept_faults]
  split
  · next h => simp [mem_recordAll, h]
  · next h =>
    rw [mem_record, mem_recordAll]
    simp [h]

theorem nodup_accept (c : Command) (s : State) (h : s.faults.Nodup) : (accept c s).faults.Nodup := by
  rw [accept_faults]
  split
  · exact nodup_recordAll s _ h
  · exact nodup_record _ _ (nodup_recordAll s _ h)

end Sys2Proof.Machine
end

