-- ==== Sys2Proof/Laws/Decode.lean ====
section
/-! SUPPORT. Fields and words: the two are the same data; what an accepted word's row says. -/

namespace Sys2Proof

theorem fieldsOfWord_wordOfFields (f : Fields) : fieldsOfWord (wordOfFields f) = f := by
  obtain ⟨op, rd, ra, rb, k, s, rsv⟩ := f
  simp only [fieldsOfWord, wordOfFields, Fields.mk.injEq]
  refine ⟨?_, ?_, ?_, ?_, ?_, ?_, ?_⟩ <;>
    (apply BitVec.eq_of_getLsbD_eq
     intro i hi
     simp only [BitVec.getLsbD_extractLsb', BitVec.getLsbD_append, hi, decide_true, Bool.true_and]
     repeat' split
     all_goals first | omega | (congr 1; omega))

theorem wordOfFields_fieldsOfWord (c : Word) : wordOfFields (fieldsOfWord c) = c := by
  simp only [fieldsOfWord, wordOfFields]
  apply BitVec.eq_of_getLsbD_eq
  intro i hi
  simp only [BitVec.getLsbD_extractLsb', BitVec.getLsbD_append]
  repeat' split
  all_goals
    rw [decide_eq_true (by omega), Bool.true_and]
    congr 1
    omega

theorem decode_wordOfFields (f : Fields) : decode (wordOfFields f) = decodeFields f := by
  rw [decode, fieldsOfWord_wordOfFields]

@[simp] theorem sizeOfBit_bitOfSize (sz : Size) : sizeOfBit (bitOfSize sz) = sz := by
  cases sz <;> rfl

theorem bitOfSize_sizeOfBit (b : BitVec 1) : bitOfSize (sizeOfBit b) = b := by
  revert b; decide

/-- Decoding is the row's: no row is code 1, a row that does not allow the fields code 2. -/
theorem decodeFields_eq (f : Fields) (r : OpRow) (h : opcodeRow f.op = some r) :
    decodeFields f = if r.allows f then .ok (r.build f) else .error .illegalField := by
  simp [decodeFields, h]

theorem decodeFields_illegal (f : Fields) (h : opcodeRow f.op = none) :
    decodeFields f = .error .illegalOpcode := by
  simp [decodeFields, h]

end Sys2Proof
end

