-- ==== Sys2Proof/Laws/Field.lean ====
section
/-! SUPPORT. The constants of 00_scope R19 against their definitions, and the one fact all Montgomery
arithmetic rests on: Redc divides exactly (42_montgomery R92). -/

namespace Sys2Proof.Machine

theorem primeP_eq : primeP = 2 ^ 216 * 3 ^ 137 - 1 := by decide +kernel

theorem primePP1_eq : primePP1 = primeP + 1 := by decide +kernel

/-- The six low words of PP1 are 0 (42_montgomery R94). -/
theorem primePP1_low : primePP1 % 2 ^ 192 = 0 := by decide +kernel

theorem montR2_eq : montR2 = montR * montR % primeP := by decide +kernel

theorem montOne_eq : montOne = montR % primeP := by decide +kernel

theorem primeP_pos : 0 < primeP := by decide +kernel

theorem montR_pos : 0 < montR := by decide +kernel

/-- MINV is -1/p mod R (R19). -/
theorem primeP_mul_montInv : primeP * montInv % montR = montR - 1 := by decide +kernel

/-- N0 is -1/p mod 2^32 (R19). -/
theorem primeP_mul_montInvWord : primeP * montInvWord % 2 ^ 32 = 2 ^ 32 - 1 := by decide +kernel

theorem montInv_mod : montInv % 2 ^ 32 = montInvWord := by decide +kernel

/-- 4p < R (42_montgomery R95: 4p < 2^436). -/
theorem four_primeP_lt : 4 * primeP < montR := by decide +kernel

/-- 24 p < R: the arguments of FP2SQR's reductions are below p R (45_fp2_element R129). -/
theorem twentyfour_primeP_lt : 24 * primeP < montR := by decide +kernel

theorem primeP_coprime_montR : Nat.Coprime primeP montR := by decide +kernel

theorem primeP_odd : primeP % 2 = 1 := by decide +kernel

/-- R is 2^448, spelled for the values of elements. -/
theorem elem_toNat_lt (v : Elem) : v.toNat < montR := by
  have h := v.isLt
  rw [montR]
  exact_mod_cast h

/-- The quantity Redc divides is a multiple of R (R92). -/
theorem montR_dvd_redc (t : Nat) : montR ∣ t + primeP * (montInv * t % montR) := by
  apply Nat.dvd_of_mod_eq_zero
  have h : primeP * (montInv * t % montR) % montR = (montR - 1) * t % montR := by
    rw [Nat.mul_mod_mod, ← Nat.mul_assoc, Nat.mul_mod, primeP_mul_montInv, Nat.mul_mod_mod]
  rw [Nat.add_mod, h, ← Nat.add_mod]
  have e : t + (montR - 1) * t = montR * t := by
    rw [← one_add_mul, Nat.add_sub_cancel' (show 1 ≤ montR from montR_pos)]
  rw [e, Nat.mul_mod_right]

/-- Redc loses nothing: Redc(T) R = T + m p for the m of R92. -/
theorem redc_mul (t : Nat) :
    redc t * montR = t + primeP * (montInv * t % montR) :=
  Nat.div_mul_cancel (montR_dvd_redc t)

/-- MontSqr(a) is MontMul(a, a) (R96). -/
theorem montSqr_eq (a : Nat) : montSqr a = montMul a a := rfl

end Sys2Proof.Machine
end

