-- ==== Sys2Proof/Laws/PerInstr.lean ====
section
/-! SUPPORT. Per command: the encoder writes the fields of the command's own row of 30_encoding R63. -/

namespace Sys2Proof.Laws.FieldsFit

/-- The opcode of i has a row, the row rebuilds i from the fields i is written with, and it allows these
fields exactly if i is well formed. -/
def Statement (i : Instr) : Prop :=
  ∃ r, opcodeRow (fieldsOf i).op = some r ∧ r.build (fieldsOf i) = i ∧
    r.allows (fieldsOf i) = i.wellFormed

theorem nop : Statement (.nop) := by
  refine ⟨_, rfl, ?_, ?_⟩ <;>
    simp [fieldsOf, OpRow.allows, FieldUse.allows, Instr.wellFormed]

theorem mpadd (sz : Size) (rd : RegIx) (ra : RegIx) (rb : RegIx) : Statement (.mpadd sz rd ra rb) := by
  refine ⟨_, rfl, ?_, ?_⟩ <;>
    simp [fieldsOf, OpRow.allows, FieldUse.allows, Instr.wellFormed, Bool.and_assoc]

theorem mpsub (sz : Size) (rd : RegIx) (ra : RegIx) (rb : RegIx) : Statement (.mpsub sz rd ra rb) := by
  refine ⟨_, rfl, ?_, ?_⟩ <;>
    simp [fieldsOf, OpRow.allows, FieldUse.allows, Instr.wellFormed, Bool.and_assoc]

theorem mpshl1 (sz : Size) (rd : RegIx) (ra : RegIx) : Statement (.mpshl1 sz rd ra) := by
  refine ⟨_, rfl, ?_, ?_⟩ <;>
    simp [fieldsOf, OpRow.allows, FieldUse.allows, Instr.wellFormed]

theorem mpshr1 (sz : Size) (rd : RegIx) (ra : RegIx) : Statement (.mpshr1 sz rd ra) := by
  refine ⟨_, rfl, ?_, ?_⟩ <;>
    simp [fieldsOf, OpRow.allows, FieldUse.allows, Instr.wellFormed]

theorem mpshlk (sz : Size) (rd : RegIx) (ra : RegIx) (k : BitVec 5) : Statement (.mpshlk sz rd ra k) := by
  refine ⟨_, rfl, ?_, ?_⟩ <;>
    simp [fieldsOf, OpRow.allows, FieldUse.allows, Instr.wellFormed, Bool.and_assoc]

theorem copy (sz : Size) (rd : RegIx) (ra : RegIx) : Statement (.copy sz rd ra) := by
  refine ⟨_, rfl, ?_, ?_⟩ <;>
    simp [fieldsOf, OpRow.allows, FieldUse.allows, Instr.wellFormed]

theorem zero (sz : Size) (rd : RegIx) : Statement (.zero sz rd) := by
  refine ⟨_, rfl, ?_, ?_⟩ <;>
    simp [fieldsOf, OpRow.allows, FieldUse.allows, Instr.wellFormed]

theorem fpmul (rd : RegIx) (ra : RegIx) (rb : RegIx) : Statement (.fpmul rd ra rb) := by
  refine ⟨_, rfl, ?_, ?_⟩ <;>
    simp [fieldsOf, OpRow.allows, FieldUse.allows, Instr.wellFormed]

theorem fpsqr (rd : RegIx) (ra : RegIx) : Statement (.fpsqr rd ra) := by
  refine ⟨_, rfl, ?_, ?_⟩ <;>
    simp [fieldsOf, OpRow.allows, FieldUse.allows, Instr.wellFormed]

theorem fpinv (rd : RegIx) (ra : RegIx) : Statement (.fpinv rd ra) := by
  refine ⟨_, rfl, ?_, ?_⟩ <;>
    simp [fieldsOf, OpRow.allows, FieldUse.allows, Instr.wellFormed]

theorem fpadd (rd : RegIx) (ra : RegIx) (rb : RegIx) : Statement (.fpadd rd ra rb) := by
  refine ⟨_, rfl, ?_, ?_⟩ <;>
    simp [fieldsOf, OpRow.allows, FieldUse.allows, Instr.wellFormed]

theorem fpsub (rd : RegIx) (ra : RegIx) (rb : RegIx) : Statement (.fpsub rd ra rb) := by
  refine ⟨_, rfl, ?_, ?_⟩ <;>
    simp [fieldsOf, OpRow.allows, FieldUse.allows, Instr.wellFormed]

theorem fpneg (rd : RegIx) (ra : RegIx) : Statement (.fpneg rd ra) := by
  refine ⟨_, rfl, ?_, ?_⟩ <;>
    simp [fieldsOf, OpRow.allows, FieldUse.allows, Instr.wellFormed]

theorem fpdiv2 (rd : RegIx) (ra : RegIx) : Statement (.fpdiv2 rd ra) := by
  refine ⟨_, rfl, ?_, ?_⟩ <;>
    simp [fieldsOf, OpRow.allows, FieldUse.allows, Instr.wellFormed]

theorem fpcorr (rd : RegIx) (ra : RegIx) : Statement (.fpcorr rd ra) := by
  refine ⟨_, rfl, ?_, ?_⟩ <;>
    simp [fieldsOf, OpRow.allows, FieldUse.allows, Instr.wellFormed]

theorem tomont (rd : RegIx) (ra : RegIx) : Statement (.tomont rd ra) := by
  refine ⟨_, rfl, ?_, ?_⟩ <;>
    simp [fieldsOf, OpRow.allows, FieldUse.allows, Instr.wellFormed]

theorem frommont (rd : RegIx) (ra : RegIx) : Statement (.frommont rd ra) := by
  refine ⟨_, rfl, ?_, ?_⟩ <;>
    simp [fieldsOf, OpRow.allows, FieldUse.allows, Instr.wellFormed]

theorem fp2add (rd : RegIx) (ra : RegIx) (rb : RegIx) : Statement (.fp2add rd ra rb) := by
  refine ⟨_, rfl, ?_, ?_⟩ <;>
    simp [fieldsOf, OpRow.allows, FieldUse.allows, Instr.wellFormed, Bool.and_assoc]

theorem fp2sub (rd : RegIx) (ra : RegIx) (rb : RegIx) : Statement (.fp2sub rd ra rb) := by
  refine ⟨_, rfl, ?_, ?_⟩ <;>
    simp [fieldsOf, OpRow.allows, FieldUse.allows, Instr.wellFormed, Bool.and_assoc]

theorem fp2neg (rd : RegIx) (ra : RegIx) : Statement (.fp2neg rd ra) := by
  refine ⟨_, rfl, ?_, ?_⟩ <;>
    simp [fieldsOf, OpRow.allows, FieldUse.allows, Instr.wellFormed]

theorem fp2div2 (rd : RegIx) (ra : RegIx) : Statement (.fp2div2 rd ra) := by
  refine ⟨_, rfl, ?_, ?_⟩ <;>
    simp [fieldsOf, OpRow.allows, FieldUse.allows, Instr.wellFormed]

theorem fp2corr (rd : RegIx) (ra : RegIx) : Statement (.fp2corr rd ra) := by
  refine ⟨_, rfl, ?_, ?_⟩ <;>
    simp [fieldsOf, OpRow.allows, FieldUse.allows, Instr.wellFormed]

theorem fp2tomont (rd : RegIx) (ra : RegIx) : Statement (.fp2tomont rd ra) := by
  refine ⟨_, rfl, ?_, ?_⟩ <;>
    simp [fieldsOf, OpRow.allows, FieldUse.allows, Instr.wellFormed]

theorem fp2frommont (rd : RegIx) (ra : RegIx) : Statement (.fp2frommont rd ra) := by
  refine ⟨_, rfl, ?_, ?_⟩ <;>
    simp [fieldsOf, OpRow.allows, FieldUse.allows, Instr.wellFormed]

theorem fp2mul (rd : RegIx) (ra : RegIx) (rb : RegIx) : Statement (.fp2mul rd ra rb) := by
  refine ⟨_, rfl, ?_, ?_⟩ <;>
    simp [fieldsOf, OpRow.allows, FieldUse.allows, Instr.wellFormed, Bool.and_assoc]

theorem fp2sqr (rd : RegIx) (ra : RegIx) : Statement (.fp2sqr rd ra) := by
  refine ⟨_, rfl, ?_, ?_⟩ <;>
    simp [fieldsOf, OpRow.allows, FieldUse.allows, Instr.wellFormed]

theorem fp2inv (rd : RegIx) (ra : RegIx) : Statement (.fp2inv rd ra) := by
  refine ⟨_, rfl, ?_, ?_⟩ <;>
    simp [fieldsOf, OpRow.allows, FieldUse.allows, Instr.wellFormed]

end Sys2Proof.Laws.FieldsFit
end

