-- ==== Sys2Proof/Laws/Step.lean ====
section
/-! SUPPORT. What a step can do, said once per kind of event. -/

namespace Sys2Proof.Machine

theorem step_noEvent (s : State) (h : s.host = []) : step s = clockCycle exec s := by
  simp [step, nextEvent, h]

theorem step_cycle (s : State) (es : List HostEvent) (h : s.host = .cycle :: es) :
    step s = clockCycle exec { s with host := es } := by
  simp [step, nextEvent, h]

theorem step_access (s : State) (a : HostAccess) (es : List HostEvent) (h : s.host = .access a :: es) :
    step s = hostAccess exec a { s with host := es } := by
  simp [step, nextEvent, h]

theorem step_reset (s : State) (es : List HostEvent) (h : s.host = .reset :: es) :
    step s = .next (assertReset { s with host := es }) := by
  simp [step, nextEvent, h]

/-- A run goes on from the state its first step answers. -/
theorem run_succ (k : Nat) (s t : State) (h : step s = .next t) : core.run (k + 1) s = core.run k t := by
  have h' : core.step s = .next t := h
  simp only [Host.Core.run, h']

theorem clockCycle_idle (s : State) (h : s.pending = none) : clockCycle exec s = .next s := by
  simp [clockCycle, h]

theorem clockCycle_count (s : State) (p : Pending) (h : s.pending = some p) (hr : 1 < p.remaining) :
    clockCycle exec s = .next { s with pending := some { p with remaining := p.remaining - 1 } } := by
  simp [clockCycle, h, Nat.not_le.mpr hr]

theorem clockCycle_complete (s : State) (p : Pending) (h : s.pending = some p) (hr : p.remaining ≤ 1) :
    clockCycle exec s = .next (complete (commandOf p.instr) p s) := by
  simp only [clockCycle, h, hr, if_true]
  exact exec_pending p.instr s p h rfl

/-- A clock cycle is idle, a count, or the completion. -/
theorem clockCycle_cases (s : State) :
    (s.pending = none ∧ clockCycle exec s = .next s) ∨
    (∃ p, s.pending = some p ∧ 1 < p.remaining ∧
      clockCycle exec s = .next { s with pending := some { p with remaining := p.remaining - 1 } }) ∨
    (∃ p, s.pending = some p ∧ p.remaining ≤ 1 ∧
      clockCycle exec s = .next (complete (commandOf p.instr) p s)) := by
  cases h : s.pending with
  | none => exact .inl ⟨rfl, clockCycle_idle s h⟩
  | some p =>
    by_cases hr : p.remaining ≤ 1
    · exact .inr (.inr ⟨p, rfl, hr, clockCycle_complete s p h hr⟩)
    · exact .inr (.inl ⟨p, rfl, by omega, clockCycle_count s p h (by omega)⟩)

/-- A CMD write is rejected, a command error, or an acceptance. -/
theorem issue_cases (c : Word) (s : State) :
    (s.busy = true ∧ issue exec c s = .next (busyReject s)) ∨
    (s.busy = false ∧ ∃ e, decode c = .error e ∧
      issue exec c s = .next (commandError e { s with cmdLast := c })) ∨
    (s.busy = false ∧ ∃ i, decode c = .ok i ∧ issue exec c s = exec i { s with cmdLast := c }) := by
  cases hb : s.busy with
  | true => exact .inl ⟨rfl, by simp [issue, hb]⟩
  | false =>
    cases hd : decode c with
    | error e => exact .inr (.inl ⟨rfl, e, rfl, by simp [issue, hb, hd]⟩)
    | ok i => exact .inr (.inr ⟨rfl, i, rfl, by simp [issue, hb, hd]⟩)

/-- A host access is a bus fault, a read, a CMD write, or another write. -/
theorem hostAccess_cases (a : HostAccess) (s : State) :
    (∃ w off, hostAccess exec a s = .next (busFault w off s)) ∨
    (∃ off, hostAccess exec a s = .next (readWindow off s)) ∨
    (∃ c, hostAccess exec a s = issue exec c (respondAccepted s)) ∨
    (∃ off v, hostAccess exec a s = .next (writeWindow off v s)) := by
  cases a with
  | read w off =>
    by_cases h : alignedWord w off = true
    · exact .inr (.inl ⟨off, by simp [hostAccess, h]⟩)
    · exact .inl ⟨w, off, by simp [hostAccess, h]⟩
  | write w off v =>
    by_cases h : alignedWord w off = true
    · by_cases hc : off = cmdOffset
      · exact .inr (.inr (.inl ⟨v, by subst hc; simp only [hostAccess, h, if_true]⟩))
      · exact .inr (.inr (.inr ⟨off, v, by simp [hostAccess, h, hc]⟩))
    · exact .inl ⟨w, off, by simp [hostAccess, h]⟩

end Sys2Proof.Machine
end

