-- ==== Sys2Proof/Laws/Rules.lean ====
section
/-! SUPPORT. From the rule of a command (commandOf) to the template its statement has (RuleOf): what a
written source latches, what an acceptance and a completion are in the terms of Safety.lean. -/

namespace Sys2Proof.Machine

/-! ## Written sources -/

theorem opWritten_elem (s : State) (n : RegIx) : opWritten s (elemAt n) = s.elemWritten n := by
  simp [opWritten, opRegs, elemAt]

theorem opWritten_pair (s : State) (n : RegIx) :
    opWritten s (pairAt n) = (s.elemWritten n && s.elemWritten (n + 1#6)) := by
  simp [opWritten, opRegs, pairAt]

theorem destRegs_some (o : Operand) : destRegs (some o) = opRegs o := by
  obtain ⟨k, n⟩ := o; cases k <;> rfl

/-- A written element source latches its value. -/
theorem readSource_elem (s : State) (n : RegIx) (k : Nat) (h : opWritten s (elemAt n) = true) :
    s.readSource (some (elemAt n)) k = (s.elem n).setWidth 896 := by
  rw [opWritten_elem] at h
  rw [State.readSource, readOperand_elem, readElem_of_written _ _ _ h]

/-- A written pair source latches its value. -/
theorem readSource_pair (s : State) (n : RegIx) (k : Nat) (h : opWritten s (pairAt n) = true) :
    s.readSource (some (pairAt n)) k = s.elem (n + 1#6) ++ s.elem n := by
  rw [opWritten_pair, Bool.and_eq_true] at h
  rw [State.readSource, readOperand_pair, readElem_of_written _ _ _ h.1, readElem_of_written _ _ _ h.2]

/-- A written source of kind N latches its value, as a number. -/
theorem readSource_sized_toNat (s : State) (sz : Size) (n : RegIx) (k : Nat)
    (h : opWritten s (sizedAt sz n) = true) :
    (s.readSource (some (sizedAt sz n)) k).toNat = opValue s (sizedAt sz n) := by
  cases sz
  · change (s.readSource (some (elemAt n)) k).toNat = (s.elem n).toNat
    rw [readSource_elem s n k h]
    simp only [BitVec.toNat_setWidth]
    exact Nat.mod_eq_of_lt (Nat.lt_of_lt_of_le (s.elem n).isLt (by decide +kernel))
  · change (s.readSource (some (pairAt n)) k).toNat = (s.elem n).toNat + (s.elem (n + 1#6)).toNat * montR
    rw [readSource_pair s n k h, BitVec.toNat_append, ← Nat.shiftLeft_add_eq_or_of_lt (s.elem n).isLt,
      Nat.shiftLeft_eq, montR, Nat.add_comm]

/-- Written sources record no UninitRead. -/
theorem uninitOperand_written (s : State) (o : Operand) (h : opWritten s o = true) :
    s.uninitOperand (some o) = [] := by
  obtain ⟨k, n⟩ := o
  cases k
  · exact uninitOf_of_written s n (by rw [← opWritten_elem]; exact h)
  · have h' : (s.elemWritten n && s.elemWritten (n + 1#6)) = true := by
      rw [← opWritten_pair]; exact h
    rw [Bool.and_eq_true] at h'
    simp only [State.uninitOperand]
    rw [uninitOf_of_written s n h'.1, uninitOf_of_written s _ h'.2]
    rfl

/-- The records of a source are those of its unwritten words. -/
theorem mem_uninitOperand (s : State) (o : Operand) (r : FaultRecord) :
    r ∈ s.uninitOperand (some o) ↔
      ∃ n w, n ∈ opRegs o ∧ w < 14 ∧ (s.marks n).getLsbD w = false ∧ r = .uninitRead n w := by
  have base : ∀ n, r ∈ s.uninitOf n ↔
      ∃ w, w < 14 ∧ (s.marks n).getLsbD w = false ∧ r = .uninitRead n w := by
    intro n
    simp only [State.uninitOf, List.mem_filterMap, List.mem_range]
    constructor
    · rintro ⟨w, hw, h⟩
      split at h
      · cases h
      · next hm => exact ⟨w, hw, by simpa using hm, (Option.some.inj h).symm⟩
    · rintro ⟨w, hw, hm, rfl⟩
      exact ⟨w, hw, by simp [hm]⟩
  obtain ⟨k, n⟩ := o
  cases k
  · simp only [State.uninitOperand, base, opRegs, List.mem_singleton]
    constructor
    · rintro ⟨w, h⟩; exact ⟨n, w, rfl, h⟩
    · rintro ⟨_, w, rfl, h⟩; exact ⟨w, h⟩
  · simp only [State.uninitOperand, List.mem_append, base, opRegs, List.mem_cons, List.not_mem_nil,
      or_false]
    constructor
    · rintro (⟨w, h⟩ | ⟨w, h⟩)
      · exact ⟨n, w, .inl rfl, h⟩
      · exact ⟨_, w, .inr rfl, h⟩
    · rintro ⟨_, w, rfl | rfl, h⟩
      · exact .inl ⟨w, h⟩
      · exact .inr ⟨w, h⟩

/-! ## Acceptance and completion in the terms of the statements -/

theorem acceptedAs_accept (i : Instr) (s : State) : AcceptedAs i s (accept (commandOf i) s) := by
  refine ⟨⟨_, accept_pending _ _, ?_, rfl, ?_⟩, ?_⟩
  · simp
  · simp
  · simp

theorem completedInto_complete (c : Command) (p : Pending) (s : State) :
    CompletedInto (destRegs c.dst) s (complete c p s) := by
  refine ⟨rfl, rfl, ?_, ?_, ?_⟩
  · intro n h
    simp only [State.elemWritten, marks_complete c p s n h, beq_self_eq_true]
  · intro n h
    exact ⟨elem_complete_other c p s n h, marks_complete_other c p s n h⟩
  · simp

/-- The sources of a command, as a list. -/
def sourcesOf (c : Command) : List Operand := c.srcA.toList ++ c.srcB.toList

theorem mem_sourcesOf (c : Command) (o : Operand) :
    o ∈ sourcesOf c ↔ some o = c.srcA ∨ some o = c.srcB := by
  simp [sourcesOf, eq_comm]

theorem uninit_of_written (c : Command) (s : State)
    (h : ∀ o, o ∈ sourcesOf c → opWritten s o = true) :
    s.uninitOperand c.srcA ++ s.uninitOperand c.srcB = [] := by
  have one : ∀ x : Option Operand, (∀ o, some o = x → opWritten s o = true) →
      s.uninitOperand x = [] := by
    intro x hx
    cases x with
    | none => rfl
    | some o => exact uninitOperand_written s o (hx o rfl)
  rw [one c.srcA fun o ho => h o ((mem_sourcesOf c o).mpr (.inl ho)),
    one c.srcB fun o ho => h o ((mem_sourcesOf c o).mpr (.inr ho))]
  rfl

/-! ## What a written source latches, as numbers -/

theorem latchA_sized (c : Command) (s : State) (sz : Size) (n : RegIx) (hc : c.srcA = some (sizedAt sz n))
    (h : opWritten s (sizedAt sz n) = true) : (latchOf c s).a.toNat = opValue s (sizedAt sz n) := by
  simp only [latchOf, hc]
  exact readSource_sized_toNat s sz n _ h

theorem latchB_sized (c : Command) (s : State) (sz : Size) (n : RegIx) (hc : c.srcB = some (sizedAt sz n))
    (h : opWritten s (sizedAt sz n) = true) : (latchOf c s).b.toNat = opValue s (sizedAt sz n) := by
  simp only [latchOf, hc]
  exact readSource_sized_toNat s sz n _ h

theorem latchA0_elem (c : Command) (s : State) (n : RegIx) (hc : c.srcA = some (elemAt n))
    (h : opWritten s (elemAt n) = true) : latchA0 (latchOf c s) = comp0 s n := by
  simp only [latchA0, latchOf, hc, readSource_elem s n _ h, loHalf_setWidth, comp0]

theorem latchB0_elem (c : Command) (s : State) (n : RegIx) (hc : c.srcB = some (elemAt n))
    (h : opWritten s (elemAt n) = true) : latchB0 (latchOf c s) = comp0 s n := by
  simp only [latchB0, latchOf, hc, readSource_elem s n _ h, loHalf_setWidth, comp0]

theorem latchA_pair (c : Command) (s : State) (n : RegIx) (hc : c.srcA = some (pairAt n))
    (h : opWritten s (pairAt n) = true) :
    latchA0 (latchOf c s) = comp0 s n ∧ latchA1 (latchOf c s) = comp1 s n := by
  simp only [latchA0, latchA1, latchOf, hc, readSource_pair s n _ h, loHalf_append, hiHalf_append,
    comp0, comp1, and_self]

theorem latchB_pair (c : Command) (s : State) (n : RegIx) (hc : c.srcB = some (pairAt n))
    (h : opWritten s (pairAt n) = true) :
    latchB0 (latchOf c s) = comp0 s n ∧ latchB1 (latchOf c s) = comp1 s n := by
  simp only [latchB0, latchB1, latchOf, hc, readSource_pair s n _ h, loHalf_append, hiHalf_append,
    comp0, comp1, and_self]

/-- An operand of kind N is below 2^(32N). -/
theorem opValue_lt (s : State) (sz : Size) (n : RegIx) :
    opValue s (sizedAt sz n) < 2 ^ sizeBits sz := by
  cases sz
  · exact (s.elem n).isLt
  · change (s.elem n).toNat + (s.elem (n + 1#6)).toNat * montR < 2 ^ 896
    have h1 : (s.elem n).toNat < montR := (s.elem n).isLt
    have h2 : (s.elem (n + 1#6)).toNat < montR := (s.elem (n + 1#6)).isLt
    rw [two_pow_896]
    change _ < montR * montR
    nlinarith

/-- The state a command leaves that is accepted in s and completes at once. -/
def afterCommand (c : Command) (s : State) : State :=
  complete c
    { instr := c.instr
      latch := latchOf c s
      remaining := Config.latency c.instr.opcode c.instr.sizeBit
      disturbed := false } (accept c s)

theorem exec_accepted (i : Instr) (s : State) (_hp : s.pending = none) :
    exec i (accept (commandOf i) s) = .next (afterCommand (commandOf i) s) :=
  exec_pending i _ _ (accept_pending _ s) (commandOf_instr i)

/-- The results of a command that runs on a legal latch, undisturbed, are its rule's. -/
theorem afterCommand_regs (c : Command) (s : State) (h : c.legal (latchOf c s) = true) (n : RegIx) :
    (afterCommand c s).elem n = (s.writeDest c.dst (c.result (latchOf c s)).value).elem n := by
  have hr : (accept c s).regs = s.regs := accept_regs c s
  have e : (afterCommand c s).elem n
      = ((accept c s).writeDest c.dst (c.result (latchOf c s)).value).elem n := by
    rw [afterCommand, elem_congr _ _ (complete_regs _ _ _), resultsOf_given _ _ _ h rfl]
  rw [e]
  cases hd : c.dst with
  | none => exact elem_congr _ _ hr n
  | some o =>
    obtain ⟨k, m⟩ := o
    cases k
    · simp only [State.writeDest, State.writeOperand, elem_writeElem, elem_congr _ _ hr]
    · simp only [State.writeDest, State.writeOperand, elem_writeElem, elem_congr _ _ hr]

theorem afterCommand_carry (c : Command) (s : State) (h : c.legal (latchOf c s) = true) :
    (afterCommand c s).carry = (c.result (latchOf c s)).carry.getD s.carry := by
  rw [afterCommand, complete_carry, resultsOf_given _ _ _ h rfl, accept_carry]

/-- The value a command with an element destination leaves. -/
theorem afterCommand_comp0 (c : Command) (s : State) (n : RegIx) (v : Nat) (hd : c.dst = some (elemAt n))
    (h : c.legal (latchOf c s) = true) (hv : c.result (latchOf c s) = valueResult v) (hlt : v < montR) :
    comp0 (afterCommand c s) n = v := by
  rw [comp0, afterCommand_regs c s h, hd, hv]
  simp only [State.writeDest, writeOperand_elem, elem_writeElem_same, loHalf_toNat, valueResult,
    BitVec.toNat_ofNat]
  have h2 : v < 2 ^ 448 := hlt
  rw [Nat.mod_eq_of_lt (Nat.lt_of_lt_of_le h2 (by decide +kernel)), Nat.mod_eq_of_lt h2]

/-- The components a command with a pair destination leaves. -/
theorem afterCommand_comps (c : Command) (s : State) (n : RegIx) (c0 c1 : Nat)
    (hd : c.dst = some (pairAt n)) (h : c.legal (latchOf c s) = true)
    (hv : c.result (latchOf c s) = pairResult c0 c1) (h0 : c0 < montR) (h1 : c1 < montR) :
    comp0 (afterCommand c s) n = c0 ∧ comp1 (afterCommand c s) n = c1 := by
  have h0' : c0 < 2 ^ 448 := h0
  have h1' : c1 < 2 ^ 448 := h1
  rw [comp0, comp1, afterCommand_regs c s h, afterCommand_regs c s h, hd, hv]
  simp only [State.writeDest, writeOperand_pair, elem_writeElem_same, pairResult, loHalf_append,
    hiHalf_append, elem_writeElem_other _ _ _ _ (regIx_succ_ne n).symm, BitVec.toNat_ofNat]
  exact ⟨Nat.mod_eq_of_lt h0', Nat.mod_eq_of_lt h1'⟩

/-- The value a command with a destination of kind N leaves. -/
theorem afterCommand_opValue (c : Command) (s : State) (sz : Size) (n : RegIx) (v : Nat)
    (hd : c.dst = some (sizedAt sz n)) (h : c.legal (latchOf c s) = true)
    (hv : (c.result (latchOf c s)).value = BitVec.ofNat 896 v) (hlt : v < 2 ^ sizeBits sz) :
    opValue (afterCommand c s) (sizedAt sz n) = v := by
  cases sz
  · have h2 : v < 2 ^ 448 := hlt
    change ((afterCommand c s).elem n).toNat = v
    rw [afterCommand_regs c s h, hd, hv]
    simp only [State.writeDest, sizedAt, writeOperand_elem, elem_writeElem_same, loHalf_toNat,
      BitVec.toNat_ofNat]
    rw [Nat.mod_eq_of_lt (Nat.lt_of_lt_of_le h2 (by decide +kernel)), Nat.mod_eq_of_lt h2]
  · have h2 : v < 2 ^ 896 := hlt
    change ((afterCommand c s).elem n).toNat + ((afterCommand c s).elem (n + 1#6)).toNat * montR = v
    rw [afterCommand_regs c s h, afterCommand_regs c s h, hd, hv]
    simp only [State.writeDest, sizedAt, writeOperand_pair, elem_writeElem_same, loHalf_toNat,
      hiHalf_toNat, elem_writeElem_other _ _ _ _ (regIx_succ_ne n).symm, BitVec.toNat_ofNat]
    rw [Nat.mod_eq_of_lt h2, montR]
    exact Nat.mod_add_div' v (2 ^ 448)

/-- The template of a command's statement, from facts about its rule alone. -/
theorem ruleOf_command (i : Instr) (f : Fields) (srcs : List Operand) (dst : List RegIx) (wc : Bool)
    (pre : State → Prop) (post : State → State → Prop)
    (hf : fieldsOf i = f) (hs : sourcesOf (commandOf i) = srcs) (hd : destRegs (commandOf i).dst = dst)
    (hc : wc = false → ∀ l, ((commandOf i).result l).carry = none)
    (hpre : ∀ s, (∀ o, o ∈ srcs → opWritten s o = true) →
      (pre s ↔ (commandOf i).legal (latchOf (commandOf i) s) = true))
    (hpost : ∀ s, i.wellFormed = true → (∀ o, o ∈ srcs → opWritten s o = true) → pre s →
      post s (afterCommand (commandOf i) s)) :
    RuleOf i f srcs dst wc pre post := by
  subst hf hs hd
  refine ⟨rfl, fun s hp hw => ⟨accept (commandOf i) s, afterCommand (commandOf i) s,
    exec_idle i s hp hw, exec_accepted i s hp, acceptedAs_accept i s, completedInto_complete _ _ _,
    ?_, ?_, ?_⟩⟩
  · intro h
    rw [afterCommand, complete_carry_none _ _ _ (hc h _), accept_carry]
  · intro o ho n hn w hw' hm
    rw [mem_accept_faults]
    refine .inr (.inl ?_)
    rw [List.mem_append]
    rcases (mem_sourcesOf _ _).mp ho with h | h
    · exact .inl (h ▸ (mem_uninitOperand s o _).mpr ⟨n, w, hn, hw', hm, rfl⟩)
    · exact .inr (h ▸ (mem_uninitOperand s o _).mpr ⟨n, w, hn, hw', hm, rfl⟩)
  · intro hwr
    constructor
    · intro h
      refine ⟨?_, hpost s hw hwr h⟩
      rw [accept_faults, if_pos ((hpre s hwr).mp h), uninit_of_written _ _ hwr]
      rfl
    · intro h r
      have hl : (commandOf i).legal (latchOf (commandOf i) s) = false := by
        cases hb : (commandOf i).legal (latchOf (commandOf i) s)
        · rfl
        · exact absurd ((hpre s hwr).mpr hb) h
      rw [mem_accept_faults, uninit_of_written _ _ hwr, hl, commandOf_instr]
      simp only [true_and, List.not_mem_nil, false_or]
      exact or_comm

end Sys2Proof.Machine
end

