-- ==== Sys2Proof/Laws/Window.lean ====
section
/-! SUPPORT. What a read and a write of the window can do, and where the element words stand
(20_memory R41 to R43). -/

namespace Sys2Proof.Machine

/-- The location at the offset of EF[n][w] (R42). -/
theorem locationAt_element (n : RegIx) (w : Nat) (h : w < 14) :
    locationAt (BitVec.ofNat 13 (0x1000 + 56 * n.toNat + 4 * w)) = .element n w := by
  have hn : n.toNat < 64 := n.isLt
  have e : (BitVec.ofNat 13 (0x1000 + 56 * n.toNat + 4 * w)).toNat = 0x1000 + 56 * n.toNat + 4 * w := by
    rw [BitVec.toNat_ofNat]; omega
  unfold locationAt
  simp only [e]
  rw [if_neg (by omega), if_neg (by omega), if_neg (by omega), if_neg (by omega), if_neg (by omega),
    if_neg (by omega), if_pos (by omega)]
  have h1 : (0x1000 + 56 * n.toNat + 4 * w - 0x1000) / 56 = n.toNat := by omega
  have h2 : (0x1000 + 56 * n.toNat + 4 * w - 0x1000) % 56 / 4 = w := by omega
  rw [h1, h2, BitVec.ofNat_toNat, BitVec.setWidth_eq]

/-- The offset of EF[n][w] is a multiple of 4, and not CMD's. -/
theorem element_offset_aligned (n : RegIx) (w : Nat) (h : w < 14) :
    alignedWord .bits32 (BitVec.ofNat 13 (0x1000 + 56 * n.toNat + 4 * w)) = true ∧
    BitVec.ofNat 13 (0x1000 + 56 * n.toNat + 4 * w) ≠ cmdOffset := by
  have hn : n.toNat < 64 := n.isLt
  have e : (BitVec.ofNat 13 (0x1000 + 56 * n.toNat + 4 * w)).toNat = 0x1000 + 56 * n.toNat + 4 * w := by
    rw [BitVec.toNat_ofNat]; omega
  constructor
  · simp only [alignedWord, e, beq_self_eq_true, Bool.true_and, beq_iff_eq]; omega
  · intro h'
    have := congrArg BitVec.toNat h'
    rw [e] at this
    simp [cmdOffset] at this
    omega

/-- Where an aligned offset holds an element word, it is that word's offset (R42). -/
theorem element_of_locationAt (off : Offset) (n : RegIx) (w : Nat) (h : locationAt off = .element n w)
    (ha : off.toNat % 4 = 0) : w < 14 ∧ off = BitVec.ofNat 13 (0x1000 + 56 * n.toNat + 4 * w) := by
  unfold locationAt at h
  simp only [] at h
  repeat' split at h
  all_goals try cases h
  rename_i hr
  have hlt : (off.toNat - 0x1000) / 56 < 64 := by omega
  refine ⟨by omega, ?_⟩
  apply BitVec.eq_of_toNat_eq
  rw [BitVec.toNat_ofNat, BitVec.toNat_ofNat, Nat.mod_eq_of_lt hlt]
  omega

theorem mem_readFaults (s : State) (off : Offset) (n : RegIx) (w : Nat) (r : FaultRecord) :
    r ∈ s.readFaults off n w ↔ (s.busy = true ∧ r = .hostAccessWhileBusy off) ∨
      ((s.marks n).getLsbD w = false ∧ r = .uninitRead n w) := by
  unfold State.readFaults
  cases s.busy <;> cases (s.marks n).getLsbD w <;> simp

/-- A read of an element word in every case: its records, and the word or a free value (R23, R42, R160). -/
theorem readElement_cases (off : Offset) (n : RegIx) (w : Nat) (s : State) :
    (s.busy = false ∧ (s.marks n).getLsbD w = true ∧
      readElement off n w s = respondData (wordOf (s.elem n) w) s) ∨
    ((s.busy = true ∨ (s.marks n).getLsbD w = false) ∧
      readElement off n w s = respondFree (s.recordAll (s.readFaults off n w))) := by
  unfold readElement State.readFaults
  cases s.busy <;> cases (s.marks n).getLsbD w <;> simp

/-- A read changes nothing but the fault set, the draws and the response; it only adds records. -/
theorem readWindow_effect (off : Offset) (s : State) :
    { readWindow off s with faults := s.faults, draws := s.draws, response := s.response } = s ∧
    ∃ rs, (readWindow off s).faults = (s.recordAll rs).faults := by
  have keep (t : State) (rs : List FaultRecord) (h : t = respondFree (s.recordAll rs)) :
      { t with faults := s.faults, draws := s.draws, response := s.response } = s ∧
      ∃ rs, t.faults = (s.recordAll rs).faults := by
    subst h
    refine ⟨?_, rs, rfl⟩
    cases s
    simp [respondFree]
  unfold readWindow
  cases locationAt off with
  | element n w =>
    rcases readElement_cases off n w s with ⟨_, _, e⟩ | ⟨_, e⟩
    · simp only [e]; exact ⟨rfl, [], rfl⟩
    · simp only [e]; exact keep _ _ rfl
  | _ => exact ⟨rfl, [], rfl⟩

/-- What an aligned write of anything but CMD does (R43). -/
theorem writeWindow_cases (off : Offset) (v : Word) (s : State) :
    (locationAt off = .ctrl ∧ writeWindow off v s = respondAccepted (writeCtrl v s)) ∨
    (locationAt off = .status ∧ writeWindow off v s = respondAccepted (clearStatus v s)) ∨
    (∃ n w, locationAt off = .element n w ∧
      writeWindow off v s = respondAccepted (writeElement off n w v s)) ∨
    writeWindow off v s = respondAccepted s := by
  unfold writeWindow
  cases h : locationAt off with
  | ctrl => exact .inl ⟨rfl, rfl⟩
  | status => exact .inr (.inl ⟨rfl, rfl⟩)
  | element n w => exact .inr (.inr (.inl ⟨n, w, rfl, rfl⟩))
  | _ => exact .inr (.inr (.inr rfl))

/-- A write of an element word (R42): stored while idle; while busy a record, a disturbed command, and the
word stored or not. -/
theorem writeElement_cases (off : Offset) (n : RegIx) (w : Nat) (v : Word) (s : State) :
    (s.busy = false ∧ writeElement off n w v s = s.writeWord n w v) ∨
    (s.busy = true ∧ ∃ s₁, (s₁ = disturb (s.record (.hostAccessWhileBusy off)) ∨
        s₁ = (disturb (s.record (.hostAccessWhileBusy off))).writeWord n w v) ∧
      writeElement off n w v s = { s₁ with draws := s.draws + 1 }) := by
  cases hb : s.busy with
  | false => exact .inl ⟨rfl, by simp [writeElement, hb]⟩
  | true =>
    refine .inr ⟨rfl, if Config.freeBit s.draws then
      (disturb (s.record (.hostAccessWhileBusy off))).writeWord n w v
      else disturb (s.record (.hostAccessWhileBusy off)), ?_, ?_⟩
    · split
      · exact .inr rfl
      · exact .inl rfl
    · simp only [writeElement, hb, if_true]

end Sys2Proof.Machine
end

