-- ==== Sys2Proof/Laws/StepCases.lean ====
section
/-! SUPPORT. The one inversion of a step: every invariant of the machine is a case analysis over it. -/

namespace Sys2Proof.Machine

/-- The state a step's event acts on: the event is taken off the schedule. -/
def State.pop (s : State) : State := { s with host := s.host.tail }

/-- The state a CMD write of c acts on while idle: answered, with c in CMD_LAST. -/
def State.issuing (s : State) (c : Word) : State := { respondAccepted s.pop with cmdLast := c }

/-- What a step does, by the event and the pending record (the one inversion of step). -/
inductive StepCase (s : State) : State → Prop where
  | reset (es : List HostEvent) (h : s.host = .reset :: es) : StepCase s (assertReset s.pop)
  | idle (hp : s.pending = none) : StepCase s s.pop
  | count (p : Pending) (hp : s.pending = some p) (hr : 1 < p.remaining) :
      StepCase s { s.pop with pending := some { p with remaining := p.remaining - 1 } }
  | completes (p : Pending) (hp : s.pending = some p) (hr : p.remaining ≤ 1) :
      StepCase s (complete (commandOf p.instr) p s.pop)
  | busError (w : AccessWidth) (off : Offset) : StepCase s (busFault w off s.pop)
  | reads (off : Offset) (es : List HostEvent) (h : NextReads s off es) (ha : off.toNat % 4 = 0) :
      StepCase s (readWindow off s.pop)
  | writes (off : Offset) (v : Word) (es : List HostEvent) (h : NextWrites s off v es)
      (ha : off.toNat % 4 = 0) (hc : off ≠ cmdOffset) : StepCase s (writeWindow off v s.pop)
  | rejects (c : Word) (es : List HostEvent) (h : NextWrites s cmdOffset c es) (hb : s.busy = true) :
      StepCase s (busyReject (respondAccepted s.pop))
  | illegal (c : Word) (es : List HostEvent) (h : NextWrites s cmdOffset c es) (hp : s.pending = none)
      (e : DecodeError) (hd : decode c = .error e) :
      StepCase s (commandError e (s.issuing c))
  | issues (c : Word) (es : List HostEvent) (h : NextWrites s cmdOffset c es) (hp : s.pending = none)
      (i : Instr) (hd : decode c = .ok i) (t : State)
      (ht : exec i (s.issuing c) = .next t) : StepCase s t

theorem none_of_idle (s : State) (h : (respondAccepted s.pop).busy = false) : s.pending = none := by
  cases hq : s.pending with
  | none => rfl
  | some p => simp [State.busy, State.pop, hq] at h

theorem step_cases (s t : State) (h : step s = .next t) : StepCase s t := by
  have clock : clockCycle exec s.pop = .next t → StepCase s t := by
    intro hc
    rcases clockCycle_cases s.pop with ⟨hp, e⟩ | ⟨p, hp, hr, e⟩ | ⟨p, hp, hr, e⟩
    · rw [e] at hc; cases hc; exact .idle hp
    · rw [e] at hc; cases hc; exact .count p hp hr
    · rw [e] at hc; cases hc; exact .completes p hp hr
  match hh : s.host with
  | [] =>
    refine clock ?_
    rw [step_noEvent s hh] at h
    have : s.pop = s := by rw [State.pop, hh, List.tail_nil, ← hh]
    rw [this, h]
  | .cycle :: es =>
    refine clock ?_
    rw [step_cycle s es hh] at h
    rw [State.pop, hh, List.tail_cons, h]
  | .reset :: es =>
    rw [step_reset s es hh] at h
    cases h
    have : ({ s with host := es } : State) = s.pop := by rw [State.pop, hh, List.tail_cons]
    rw [this]
    exact .reset es hh
  | .access a :: es =>
    rw [step_access s a es hh] at h
    have hpop : ({ s with host := es } : State) = s.pop := by rw [State.pop, hh, List.tail_cons]
    rw [hpop] at h
    cases a with
    | read w off =>
      rw [hostAccess] at h
      split at h
      · next hal =>
        cases h
        simp only [alignedWord, Bool.and_eq_true, beq_iff_eq] at hal
        obtain ⟨rfl, hal⟩ := hal
        exact .reads off es hh hal
      · cases h; exact .busError w off
    | write w off v =>
      rw [hostAccess] at h
      split at h
      · next hal =>
        simp only [alignedWord, Bool.and_eq_true, beq_iff_eq] at hal
        obtain ⟨rfl, hal⟩ := hal
        split at h
        · next hc =>
          subst hc
          rcases issue_cases v (respondAccepted s.pop) with ⟨hb, e⟩ | ⟨hb, d, hd, e⟩ | ⟨hb, i, hd, e⟩
          · rw [e] at h; cases h; exact .rejects v es hh hb
          · rw [e] at h; cases h
            exact .illegal v es hh (none_of_idle s hb) d hd
          · rw [e] at h
            exact .issues v es hh (none_of_idle s hb) i hd t h
        · next hc => cases h; exact .writes off v es hh hal hc
      · cases h; exact .busError w off

end Sys2Proof.Machine
end

