-- ==== Sys2Proof/Machine/AssemblyText.lean ====
section
/-! DEFINITION. A line of assembler as characters (30_encoding R68, R69): reading it into the tokens of
Machine/Assembly.lean, the pseudo-instructions by name, and the command of a line. R68 gives the parts of a
line and shows blanks and commas in its examples only; where blanks may stand is log 24. -/

namespace Sys2Proof.Machine

/-- A blank. -/
def isBlank (c : Char) : Bool := c == ' ' || c == '\t'

/-- The characters after the leading blanks. -/
def skipBlanks : List Char → List Char
  | [] => []
  | c :: cs => if isBlank c then skipBlanks cs else c :: cs

/-- The characters without leading and trailing blanks. -/
def trimBlanks (cs : List Char) : List Char := (skipBlanks (skipBlanks cs).reverse).reverse

/-- A character of a mnemonic: a lower-case letter or a digit. -/
def isNameChar (c : Char) : Bool := c.isLower || c.isDigit

/-- The parts between commas. -/
def splitCommas : List Char → List (List Char)
  | [] => [[]]
  | c :: cs =>
    match splitCommas cs with
    | [] => []
    | p :: ps => if c == ',' then [] :: p :: ps else (c :: p) :: ps

/-- The value of a digit in a base up to 16. -/
def digitValue (base : Nat) (c : Char) : Option Nat :=
  let v :=
    if c.isDigit then c.toNat - '0'.toNat
    else if 'a' ≤ c ∧ c ≤ 'f' then c.toNat - 'a'.toNat + 10
    else if 'A' ≤ c ∧ c ≤ 'F' then c.toNat - 'A'.toNat + 10
    else 16
  if v < base then some v else none

/-- The number digits spell after those that spell acc. -/
def readDigits (base acc : Nat) : List Char → Option Nat
  | [] => some acc
  | c :: cs =>
    match digitValue base c with
    | none => none
    | some d => readDigits base (acc * base + d) cs

/-- The number at least one digit spells. -/
def readNumber (base : Nat) (cs : List Char) : Option Nat :=
  if cs = [] then none else readDigits base 0 cs

/-- An operand as written (R68): `f` and a register number without leading zeros, or K in decimal or,
after `0x`, in hexadecimal. -/
def readOperandText (cs : List Char) : Option AsmOperand :=
  match cs with
  | 'f' :: ['0'] => some (.reg 0)
  | 'f' :: '0' :: _ => none
  | 'f' :: ds => (readNumber 10 ds).map .reg
  | '0' :: 'x' :: hs => (readNumber 16 hs).map .imm
  | ds => (readNumber 10 ds).map .imm

/-- Each part read as an operand. -/
def readOperands : List (List Char) → Option (List AsmOperand)
  | [] => some []
  | p :: ps =>
    match readOperandText (trimBlanks p), readOperands ps with
    | some o, some os => some (o :: os)
    | _, _ => none

/-- The size suffix after the mnemonic, and what follows it (R68). -/
def readSuffix (cs : List Char) : Option Size × List Char :=
  match cs with
  | '.' :: 'w' :: rest => (some .w, rest)
  | '.' :: 'd' :: rest => (some .d, rest)
  | rest => (none, rest)

/-- The operands after mnemonic and suffix: none, or a blank and the operands between commas. -/
def readOperandList (cs : List Char) : Option (List AsmOperand) :=
  if skipBlanks cs = [] then some []
  else
    match cs with
    | c :: _ => if isBlank c then readOperands (splitCommas cs) else none
    | [] => some []

/-- A line read into its tokens (R68). -/
def readLine (cs : List Char) : Option AsmLine :=
  let start := skipBlanks cs
  let name := start.takeWhile isNameChar
  let rest := readSuffix (start.dropWhile isNameChar)
  (readOperandList rest.2).map (fun ops => ⟨String.ofList name, rest.1, ops⟩)

/-- The pseudo-instructions (R69): name and suffix as written, name and suffix of the expansion. -/
def pseudoNames : List ((String × Option Size) × (String × Size)) :=
  [ (("fpcopy", none), ("copy", .w)), (("fp2copy", none), ("copy", .d)),
    (("fpzero", none), ("zero", .w)), (("fp2zero", none), ("zero", .d)),
    (("mpaddfast", none), ("mpadd", .w)), (("mpsubfast", none), ("mpsub", .w)),
    (("mpaddfast", some .d), ("mpadd", .d)), (("mpsubfast", some .d), ("mpsub", .d)) ]

/-- A line with its pseudo-instruction expanded (R69); any other line as it is. -/
def expandLine (l : AsmLine) : AsmLine :=
  match pseudoNames.find? (fun r => r.1 == (l.mnemonic, l.suffix)) with
  | none => l
  | some r => { l with mnemonic := r.2.1, suffix := some r.2.2 }

/-- The command a line of text stands for (R68, R69); none if it is no line of the syntax or its command
is illegal. -/
def assembleText (cs : List Char) : Option Instr :=
  match readLine cs with
  | none => none
  | some l => assemble (expandLine l)

end Sys2Proof.Machine
end

