-- ==== Sys2Proof/Tests/Slice0.lean ====
section
/-! SUPPORT. Tests: ill-formed commands, words written out from the encodings, the vectors of
spec/95_test_vectors.md (the ids stand in the comments), and a witness for the hypotheses of each statement
of Certificates/Slice0/Obligations.lean. -/

namespace Sys2Proof.Tests

open Sys2Proof Sys2Proof.Machine

/- One theorem after another: in parallel the kernel evaluations hold too many threads at once. -/
set_option Elab.async false

/-! ## Helpers -/

/-- The state an outcome answers. -/
def nextOf (o : Host.Outcome State Fault Refusal) : State :=
  match o with
  | .next s => s
  | .fault _ => State.reset
  | .refused _ => State.reset

/-- The reset state with these registers written. -/
def withRegs (l : List (RegIx × Nat)) : State :=
  l.foldl (fun s nv => s.writeElem nv.1 (BitVec.ofNat 448 nv.2)) State.reset

/-- A command pending, accepted with these registers written. -/
def pend (i : Instr) (l : List (RegIx × Nat)) : State := nextOf (exec i (withRegs l))

/-- The completion of a command that was accepted with these registers written. -/
def fin (i : Instr) (l : List (RegIx × Nat)) : State := nextOf (exec i (pend i l))

/-- What a one-register command leaves in its destination F3, from F1 and F2. -/
def f3 (i : Instr) (a b : Nat) : Nat := comp0 (fin i [(1, a), (2, b)]) 3

/-- What a pair command leaves in the pair at F8, from the pairs at F0 and F2. -/
def f8 (i : Instr) (a b : Nat × Nat) : Nat × Nat :=
  let t := fin i [(0, a.1), (1, a.2), (2, b.1), (3, b.2)]
  (comp0 t 8, comp1 t 8)

/-- One host write of a window word. -/
def wr (off : Offset) (v : Word) (s : State) : State :=
  nextOf (step { s with host := [.access (.write .bits32 off v)] })

/-- One host read of a window word. -/
def rd (off : Offset) (s : State) : State :=
  nextOf (step { s with host := [.access (.read .bits32 off)] })

/-- Montgomery forms the vectors use (95_test_vectors L2.4, L2.5). -/
def mont2 : Nat := 0x1D9DD4F7A5DB5D264A8A8BEEE8219B00349F6AB3F59A9721FE809F800000000000000000000000000000000000000000000000000E858
def montMinusOne : Nat := 0x147307F5A446983CA0B82224DDF49A3C4B77CDBB901CF44B18275E6FFFFFFFFFFFFFFFFFFFFFFFFFFFFFFFFFFFFFFFFFFFFFFFFFF8BD3
def mont4 : Nat := 0x17F9B77DD482737CCF17AFC17E3DCE4403775252604AEE67E59990D00000000000000000000000000000000000000000000000001D0B1
/-- Redc(1) (vector RD2, MM1). -/
def redcOne : Nat := 0x522E38A1D16293CF1FE083BBE7642370CABDC39A28779291C2D54004791B46445AB96AF6359A5732CA2221C664B96C55F373D2CDCA41

/-! ## WellFormed: an ill-formed term for each check (30_encoding R61, R62, R70) -/

theorem test_illFormed_rd :
    (Instr.mpadd .d 63 0 0).wellFormed = false ∧ (Instr.mpsub .d 63 0 0).wellFormed = false ∧
    (Instr.mpshl1 .d 63 0).wellFormed = false ∧ (Instr.mpshr1 .d 63 0).wellFormed = false ∧
    (Instr.mpshlk .d 63 0 1).wellFormed = false ∧ (Instr.copy .d 63 0).wellFormed = false ∧
    (Instr.zero .d 63).wellFormed = false ∧ (Instr.fp2add 63 0 0).wellFormed = false ∧
    (Instr.fp2sub 63 0 0).wellFormed = false ∧ (Instr.fp2neg 63 0).wellFormed = false ∧
    (Instr.fp2div2 63 0).wellFormed = false ∧ (Instr.fp2corr 63 0).wellFormed = false ∧
    (Instr.fp2tomont 63 0).wellFormed = false ∧ (Instr.fp2frommont 63 0).wellFormed = false ∧
    (Instr.fp2mul 63 0 0).wellFormed = false ∧ (Instr.fp2sqr 63 0).wellFormed = false ∧
    (Instr.fp2inv 63 0).wellFormed = false := by decide

theorem test_illFormed_ra :
    (Instr.mpadd .d 0 63 0).wellFormed = false ∧ (Instr.mpsub .d 0 63 0).wellFormed = false ∧
    (Instr.mpshl1 .d 0 63).wellFormed = false ∧ (Instr.mpshr1 .d 0 63).wellFormed = false ∧
    (Instr.mpshlk .d 0 63 1).wellFormed = false ∧ (Instr.copy .d 0 63).wellFormed = false ∧
    (Instr.fp2add 0 63 0).wellFormed = false ∧ (Instr.fp2sub 0 63 0).wellFormed = false ∧
    (Instr.fp2neg 0 63).wellFormed = false ∧ (Instr.fp2div2 0 63).wellFormed = false ∧
    (Instr.fp2corr 0 63).wellFormed = false ∧ (Instr.fp2tomont 0 63).wellFormed = false ∧
    (Instr.fp2frommont 0 63).wellFormed = false ∧ (Instr.fp2mul 0 63 0).wellFormed = false ∧
    (Instr.fp2sqr 0 63).wellFormed = false ∧ (Instr.fp2inv 0 63).wellFormed = false := by decide

theorem test_illFormed_rb :
    (Instr.mpadd .d 0 0 63).wellFormed = false ∧ (Instr.mpsub .d 0 0 63).wellFormed = false ∧
    (Instr.fp2add 0 0 63).wellFormed = false ∧ (Instr.fp2sub 0 0 63).wellFormed = false ∧
    (Instr.fp2mul 0 0 63).wellFormed = false := by decide

theorem test_illFormed_k :
    (Instr.mpshlk .w 0 0 0).wellFormed = false ∧ (Instr.mpshlk .d 0 0 0).wellFormed = false ∧
    (Instr.mpshlk .w 63 63 1).wellFormed = true ∧ (Instr.mpshlk .d 62 62 31).wellFormed = true := by decide

/-! ## Decoding: words written out bit by bit from R60 and R63 (fields RSV S K RB RA RD OP), one for every
constructor -/

theorem test_decode_mp :
    decode 0b00000000000000000000000000000000 = .ok .nop ∧
    decode 0b00000000000001000000000010000001 = .ok (.mpadd .w 2 0 1) ∧
    decode 0b00100000111110111101111110000010 = .ok (.mpsub .d 62 61 62) ∧
    decode 0b00000000000000111111000001000011 = .ok (.mpshl1 .w 1 63) ∧
    decode 0b00100000000000000000000010000100 = .ok (.mpshr1 .d 2 0) ∧
    decode 0b00011111000000000100000101000101 = .ok (.mpshlk .w 5 4 31) ∧
    decode 0b00100000000000000100001000000110 = .ok (.copy .d 8 4) ∧
    decode 0b00100000000000000000000111000111 = .ok (.zero .d 7) := by decide

theorem test_decode_fp :
    decode 0b00000000000010000001000011010000 = .ok (.fpmul 3 1 2) ∧
    decode 0b00000000000000111111000000010001 = .ok (.fpsqr 0 63) ∧
    decode 0b00000000000000000001000001010010 = .ok (.fpinv 1 1) ∧
    decode 0b00000000000001000000000010011000 = .ok (.fpadd 2 0 1) ∧
    decode 0b00000000000001000000000010011001 = .ok (.fpsub 2 0 1) ∧
    decode 0b00000000000000000000000001011010 = .ok (.fpneg 1 0) ∧
    decode 0b00000000000000000000000001011011 = .ok (.fpdiv2 1 0) ∧
    decode 0b00000000000000000000000001011100 = .ok (.fpcorr 1 0) ∧
    decode 0b00000000000000000000000010011101 = .ok (.tomont 2 0) ∧
    decode 0b00000000000000000100000101011110 = .ok (.frommont 5 4) := by decide

theorem test_decode_fp2 :
    decode 0b00000000000010000000000100100000 = .ok (.fp2add 4 0 2) ∧
    decode 0b00000000000010000000000100100001 = .ok (.fp2sub 4 0 2) ∧
    decode 0b00000000000000000000000010100010 = .ok (.fp2neg 2 0) ∧
    decode 0b00000000000000000000000010100011 = .ok (.fp2div2 2 0) ∧
    decode 0b00000000000000000000000010100100 = .ok (.fp2corr 2 0) ∧
    decode 0b00000000000000000000000010100101 = .ok (.fp2tomont 2 0) ∧
    decode 0b00000000000000000110001000100110 = .ok (.fp2frommont 8 6) ∧
    decode 0b00000000000110000100001010101000 = .ok (.fp2mul 10 4 6) ∧
    decode 0b00000000000000111110111110101001 = .ok (.fp2sqr 62 62) ∧
    decode 0b00000000000000001010001100101010 = .ok (.fp2inv 12 10) := by decide

/-- The illegal words of 95_test_vectors L2.6. -/
theorem test_decode_illegal :
    decode 0x20000FC1 = .error .illegalField ∧ decode 0x00000FE0 = .error .illegalField ∧
    decode 0x00000FE8 = .error .illegalField ∧ decode 0x00000008 = .error .illegalOpcode ∧
    decode 0x0000003F = .error .illegalOpcode ∧ decode 0x00000027 = .error .illegalOpcode ∧
    decode 0x80000000 = .error .illegalField ∧ decode 0x00000040 = .error .illegalField ∧
    decode 0x20000010 = .error .illegalField ∧ decode 0x01000010 = .error .illegalField ∧
    decode 0x00004145 = .error .illegalField ∧ decode 0x00040083 = .error .illegalField ∧
    decode 0x000011C7 = .error .illegalField ∧ decode 0xC0000008 = .error .illegalOpcode := by decide

theorem test_decode_edges :
    decode 0x00FFFFD0 = .ok (.fpmul 63 63 63) ∧ decode 0x00000FC1 = .ok (.mpadd .w 63 0 0) ∧
    decodeTableWord 32 0x00000000 = some .nop ∧ decodeTableWord 32 0x08 = none := by decide

/-- The examples of R68, assembled; a pair at f63, a missing and a wrong suffix, K = 0 and a register f64
are no commands. -/
theorem test_assemble :
    assemble ⟨"mpadd", some .w, [.reg 2, .reg 0, .reg 1]⟩ = some (.mpadd .w 2 0 1) ∧
    assemble ⟨"mpshlk", some .w, [.reg 5, .reg 4, .imm 31]⟩ = some (.mpshlk .w 5 4 31) ∧
    assemble ⟨"fp2mul", none, [.reg 10, .reg 4, .reg 6]⟩ = some (.fp2mul 10 4 6) ∧
    assemble ⟨"zero", some .d, [.reg 7]⟩ = some (.zero .d 7) ∧
    assemble ⟨"nop", none, []⟩ = some .nop ∧
    assemble ⟨"fp2mul", none, [.reg 63, .reg 4, .reg 6]⟩ = none ∧
    assemble ⟨"mpadd", none, [.reg 2, .reg 0, .reg 1]⟩ = none ∧
    assemble ⟨"fpmul", some .w, [.reg 2, .reg 0, .reg 1]⟩ = none ∧
    assemble ⟨"mpshlk", some .w, [.reg 5, .reg 4, .imm 0]⟩ = none ∧
    assemble ⟨"fpneg", none, [.reg 64, .reg 4]⟩ = none := by decide +kernel

/-- The examples of R68 and R69's names as text; a missing comma, capitals, f64, f01, a suffix on a
pseudo-instruction and an empty line are no lines. -/
theorem test_assembleText :
    assembleText "mpadd.w f2, f0, f1".toList = some (.mpadd .w 2 0 1) ∧
    assembleText "mpshlk.w f5, f4, 31".toList = some (.mpshlk .w 5 4 31) ∧
    assembleText "mpshlk.d f5, f4, 0x1F".toList = some (.mpshlk .d 5 4 31) ∧
    assembleText "fp2mul f10, f4, f6".toList = some (.fp2mul 10 4 6) ∧
    assembleText "zero.d f7".toList = some (.zero .d 7) ∧
    assembleText "  nop ".toList = some .nop ∧
    assembleText "fp2zero f7".toList = some (.zero .d 7) ∧
    assembleText "mpaddfast.d f2, f0, f1".toList = some (.mpadd .d 2 0 1) ∧
    assembleText "fpinv f1,f1".toList = some (.fpinv 1 1) ∧
    assembleText "fpinv f1 f1".toList = none ∧ assembleText "FPINV f1, f1".toList = none ∧
    assembleText "fpinv f64, f1".toList = none ∧ assembleText "fpinv f01, f1".toList = none ∧
    assembleText "fpcopy.w f1, f1".toList = none ∧ assembleText "".toList = none := by decide +kernel

/-- R69. -/
theorem test_pseudo :
    encode (expandPseudo (.fp2zero 7)) = 0x200001C7 ∧
    encode (expandPseudo (.mpaddfast 2 0 1)) = 0x00040081 ∧
    encode (expandPseudo (.mpaddfastD 2 0 1)) = 0x20040081 := by decide

/-! ## The multiprecision primitives (L2.1) -/

/-- MP1, MP2, MP3. -/
theorem test_mpadd_w :
    (let t := fin (.mpadd .w 2 0 1) [(0, 2 ^ 448 - 1), (1, 1)]
     comp0 t 2 = 0 ∧ t.carry = true ∧ t.statusWord = 0x0A ∧ t.faults = []) ∧
    (let t := fin (.mpadd .w 2 0 1) [(0, primeP), (1, primeP)]
     comp0 t 2 = 2 * primeP ∧ t.carry = false) ∧
    (let t := fin (.mpadd .w 2 0 0) [(0, 2 ^ 447)]
     comp0 t 2 = 0 ∧ t.carry = true) := by decide +kernel

/-- MP7, MP9. -/
theorem test_mpadd_d :
    (let t := fin (.mpadd .d 4 0 2) [(0, 2 ^ 448 - 1), (1, 2 ^ 448 - 1), (2, 1), (3, 0)]
     comp0 t 4 = 0 ∧ comp1 t 4 = 0 ∧ t.carry = true) ∧
    (let t := fin (.mpadd .d 4 0 2) [(0, 2 ^ 448 - 1), (1, 0), (2, 1), (3, 0)]
     comp0 t 4 = 0 ∧ comp1 t 4 = 1 ∧ t.carry = false) := by decide +kernel

/-- MP4, MP5, MP6. -/
theorem test_mpsub_w :
    (let t := fin (.mpsub .w 2 0 1) [(0, 0), (1, 1)]
     comp0 t 2 = 2 ^ 448 - 1 ∧ t.carry = true) ∧
    (let t := fin (.mpsub .w 2 0 1) [(0, primeP), (1, primeP)]
     comp0 t 2 = 0 ∧ t.carry = false) ∧
    (let t := fin (.mpsub .w 2 0 0) [(0, 77)]
     comp0 t 2 = 0 ∧ t.carry = false) := by decide +kernel

/-- MP8. -/
theorem test_mpsub_d :
    (let t := fin (.mpsub .d 4 0 2) [(0, 0), (1, 1), (2, 1), (3, 0)]
     comp0 t 4 = 2 ^ 448 - 1 ∧ comp1 t 4 = 0 ∧ t.carry = false) := by decide +kernel

/-- SH1, SH2, SH3. -/
theorem test_mpshl1 :
    comp0 (fin (.mpshl1 .w 1 0) [(0, 2 ^ 31)]) 1 = 2 ^ 32 ∧
    comp0 (fin (.mpshl1 .w 1 0) [(0, 2 ^ 447)]) 1 = 0 ∧
    (let t := fin (.mpshl1 .d 2 0) [(0, 2 ^ 447), (1, 0)]
     comp0 t 2 = 0 ∧ comp1 t 2 = 1) := by decide +kernel

/-- SH4, SH5, SH6. -/
theorem test_mpshr1 :
    comp0 (fin (.mpshr1 .w 1 0) [(0, 2 ^ 32)]) 1 = 2 ^ 31 ∧
    comp0 (fin (.mpshr1 .w 1 0) [(0, 1)]) 1 = 0 ∧
    (let t := fin (.mpshr1 .d 2 0) [(0, 0), (1, 1)]
     comp0 t 2 = 2 ^ 447 ∧ comp1 t 2 = 0) := by decide +kernel

/-- SH7, SH8, SH9. -/
theorem test_mpshlk :
    comp0 (fin (.mpshlk .w 5 4 31) [(4, 2 ^ 448 - 1)]) 5 = 2 ^ 448 - 2 ^ 31 ∧
    comp0 (fin (.mpshlk .w 5 4 4) [(4, primeP)]) 5 = 0x2341F271773446CFC5FD681C520567BC65C783158AEA3FDC1767AE2FFFFFFFFFFFFFFFFFFFFFFFFFFFFFFFFFFFFFFFFFFFFFFFFFFFFFF0 ∧
    comp0 (fin (.mpshlk .w 5 4 1) [(4, 2 ^ 447 + 1)]) 5 = 2 := by decide +kernel

/-- CZ1, CZ2, CZ3. -/
theorem test_copy :
    comp0 (fin (.copy .w 1 0) [(0, primeP)]) 1 = primeP ∧
    (let t := fin (.copy .d 8 4) [(4, 1), (5, 2)]
     comp0 t 8 = 1 ∧ comp1 t 8 = 2) ∧
    (let t := fin (.copy .d 5 4) [(4, 1), (5, 2)]
     comp0 t 5 = 1 ∧ comp1 t 5 = 2) := by decide +kernel

/-- CZ4. -/
theorem test_zero :
    (let t := fin (.zero .d 7) []
     comp0 t 7 = 0 ∧ comp1 t 7 = 0 ∧ t.elemWritten 7 = true ∧ t.elemWritten 8 = true ∧
       t.elemWritten 9 = false ∧ t.faults = []) := by decide +kernel

/-- CZ5. -/
theorem test_nop :
    (let t := fin .nop [(0, 5)]
     t.statusWord = 0x02 ∧ t.regs = (withRegs [(0, 5)]).regs ∧ t.faults = []) := by decide +kernel

/-! ## Multiplier, squarer, inverter (L2.2, L2.3) -/

/-- MM1 to MM6. -/
theorem test_fpmul :
    f3 (.fpmul 3 1 2) 1 1 = redcOne ∧ f3 (.fpmul 3 1 2) (2 * primeP - 1) (2 * primeP - 1) = redcOne ∧
    f3 (.fpmul 3 1 2) montOne montOne = montOne ∧ f3 (.fpmul 3 1 2) 0 (2 * primeP - 1) = 0 ∧
    f3 (.fpmul 3 1 2) primeP 12345 = primeP ∧
    f3 (.fpmul 3 1 2) montOne (2 * primeP - 1) = primeP - 1 := by decide +kernel

/-- MM7, MM8. -/
theorem test_fpsqr :
    comp0 (fin (.fpsqr 4 4) [(4, mont2)]) 4 = mont4 ∧
    f3 (.fpsqr 3 1) (2 * primeP - 1) 0 = redcOne := by decide +kernel

/-- RD1 to RD6, for the three forms of the reduction (R92, R93, R94). -/
theorem test_redc :
    [0, 1, montR, primeP * montR - 1, primeP, (2 * primeP - 1) * (2 * primeP - 1)].map redc =
      [0, redcOne, 1,
        0x41610158D152646299FCC7FCE5948D41BEE329F1734D068F12A2085FB86E4B9BBA5469509CA65A8CD35DDDE399B4693AA0C8C2D3235BD,
        primeP, redcOne] ∧
    [0, 1, montR, primeP * montR - 1, primeP, (2 * primeP - 1) * (2 * primeP - 1)].map redcWordSerial =
      [0, redcOne, 1,
        0x41610158D152646299FCC7FCE5948D41BEE329F1734D068F12A2085FB86E4B9BBA5469509CA65A8CD35DDDE399B4693AA0C8C2D3235BD,
        primeP, redcOne] ∧
    [0, 1, montR, primeP * montR - 1, primeP, (2 * primeP - 1) * (2 * primeP - 1)].map redcPP1 =
      [0, redcOne, 1,
        0x41610158D152646299FCC7FCE5948D41BEE329F1734D068F12A2085FB86E4B9BBA5469509CA65A8CD35DDDE399B4693AA0C8C2D3235BD,
        primeP, redcOne] := by decide +kernel

/-- IV1, IV2, IV3. -/
theorem test_fpinv :
    comp0 (fin (.fpinv 1 1) [(1, montOne)]) 1 = montOne ∧
    comp0 (fin (.fpinv 1 1) [(1, mont2)]) 1 =
      0x767753DE976D74992A2A2FBBA0866C00D27DAACFD66A5C87FA027E000000000000000000000000000000000000000000000000003A16 ∧
    comp0 (fin (.fpinv 2 1) [(1, 1)]) 2 = montR2 := by decide +kernel

/-- IV4, IV5, IV6. -/
theorem test_fpinv_values :
    [primeP + 1, montMinusOne, 2 * primeP - 1].map fpInv =
      [montR2, montMinusOne,
        0x20E768B49A21A031AF574BA5CB2BBCFF8C9B9037A7A25E664AFCB559383F454D868C07CEE977253138C988978673DD71AA49A232964CF] := by
  decide +kernel

/-! ## The GF(p) layer (L2.4) -/

/-- FA1 to FA5. -/
theorem test_fpadd :
    f3 (.fpadd 3 1 2) (2 * primeP - 1) 1 = 0 ∧
    f3 (.fpadd 3 1 2) (2 * primeP - 1) (2 * primeP - 1) = 2 * primeP - 2 ∧
    f3 (.fpadd 3 1 2) primeP primeP = 0 ∧ f3 (.fpadd 3 1 2) 0 0 = 0 ∧
    f3 (.fpadd 3 1 2) (primeP - 1) 1 = primeP := by decide +kernel

/-- FS1 to FS5. -/
theorem test_fpsub :
    f3 (.fpsub 3 1 2) 0 1 = 2 * primeP - 1 ∧ f3 (.fpsub 3 1 2) 1 0 = 1 ∧
    f3 (.fpsub 3 1 2) 0 (2 * primeP - 1) = 1 ∧ f3 (.fpsub 3 1 2) primeP primeP = 0 ∧
    f3 (.fpsub 3 1 2) 5 7 = 2 * primeP - 2 := by decide +kernel

/-- FN1 to FN4. -/
theorem test_fpneg :
    f3 (.fpneg 3 1) 0 0 = 0 ∧ f3 (.fpneg 3 1) 1 0 = 2 * primeP - 1 ∧
    f3 (.fpneg 3 1) primeP 0 = primeP ∧ f3 (.fpneg 3 1) (2 * primeP - 1) 0 = 1 := by decide +kernel

/-- FH1 to FH6. -/
theorem test_fpdiv2 :
    f3 (.fpdiv2 3 1) 0 0 = 0 ∧ f3 (.fpdiv2 3 1) 1 0 = (primeP + 1) / 2 ∧ f3 (.fpdiv2 3 1) 2 0 = 1 ∧
    f3 (.fpdiv2 3 1) primeP 0 = primeP ∧ f3 (.fpdiv2 3 1) (primeP - 1) 0 = (primeP - 1) / 2 ∧
    f3 (.fpdiv2 3 1) (2 * primeP - 1) 0 =
      0x34E2EBAA32CE6A37A8FC1C2A7B081B9A98AB44A0505F5FCA231B8547FFFFFFFFFFFFFFFFFFFFFFFFFFFFFFFFFFFFFFFFFFFFFFFFFFFFE := by
  decide +kernel

/-- FC1 to FC4. -/
theorem test_fpcorr :
    f3 (.fpcorr 3 1) 0 0 = 0 ∧ f3 (.fpcorr 3 1) (primeP - 1) 0 = primeP - 1 ∧
    f3 (.fpcorr 3 1) primeP 0 = 0 ∧ f3 (.fpcorr 3 1) (2 * primeP - 1) 0 = primeP - 1 := by decide +kernel

/-- TM1 to TM5. -/
theorem test_tomont :
    f3 (.tomont 3 1) 0 0 = 0 ∧ f3 (.tomont 3 1) 1 0 = montOne ∧ f3 (.tomont 3 1) 2 0 = mont2 ∧
    f3 (.tomont 3 1) (primeP - 1) 0 = montMinusOne ∧ f3 (.tomont 3 1) primeP 0 = primeP := by
  decide +kernel

/-- FM1 to FM5. -/
theorem test_frommont :
    f3 (.frommont 3 1) montOne 0 = 1 ∧ f3 (.frommont 3 1) primeP 0 = 0 ∧ f3 (.frommont 3 1) 0 0 = 0 ∧
    f3 (.frommont 3 1) (2 * primeP - 1) 0 =
      0x1E1F0EE75A1E1D92D3FF5FE0938F2585591BA6DBE862C6B2FB3A5A2FB86E4B9BBA5469509CA65A8CD35DDDE399B4693AA0C8C2D3235BE ∧
    f3 (.frommont 3 1) montMinusOne 0 = primeP - 1 := by decide +kernel

/-! ## The GF(p²) layer (L2.5) -/

/-- Q1, and a destination overlapping its source (00_scope R17). -/
theorem test_fp2add :
    f8 (.fp2add 8 0 2) (2 * primeP - 1, 1) (1, 2 * primeP - 1) = (0, 0) ∧
    (let t := fin (.fp2add 1 0 2) [(0, 3), (1, 5), (2, 7), (3, 11)]
     comp0 t 1 = 10 ∧ comp1 t 1 = 16) := by decide +kernel

/-- Q2. -/
theorem test_fp2sub :
    f8 (.fp2sub 8 0 2) (0, 5) (1, 7) = (2 * primeP - 1, 2 * primeP - 2) := by decide +kernel

/-- Q3. -/
theorem test_fp2neg : f8 (.fp2neg 8 0) (1, 0) (0, 0) = (2 * primeP - 1, 0) := by decide +kernel

/-- Q4. -/
theorem test_fp2div2 : f8 (.fp2div2 8 0) (2, 1) (0, 0) = (1, (primeP + 1) / 2) := by decide +kernel

/-- Q5. -/
theorem test_fp2corr :
    f8 (.fp2corr 8 0) (primeP, 2 * primeP - 1) (0, 0) = (0, primeP - 1) := by decide +kernel

/-- Q6. -/
theorem test_fp2tomont : f8 (.fp2tomont 8 0) (1, 2) (0, 0) = (montOne, mont2) := by decide +kernel

/-- Q7, and the last column of Q6. -/
theorem test_fp2frommont :
    f8 (.fp2frommont 8 0) (montOne, 0) (0, 0) = (1, 0) ∧
    f8 (.fp2frommont 8 0) (montOne, mont2) (0, 0) = (1, 2) := by decide +kernel

/-- Q8, Q9. -/
theorem test_fp2mul :
    f8 (.fp2mul 8 0 2) (montOne, 0) (montOne, 0) = (montOne, 0) ∧
    f8 (.fp2mul 8 0 2) (0, montOne) (0, montOne) =
      (0x37B4FA671B7ADF0C66B58A412FFA01F8B13F50D11B0734272F8F0C9FFFFFFFFFFFFFFFFFFFFFFFFFFFFFFFFFFFFFFFFFFFFFFFFFF8BD2, 0) := by
  decide +kernel

/-- Q10, Q11: the operands (M(1), M(2)) and (M(3), M(4)) in both orders. -/
theorem test_fp2mul_both_orders :
    f8 (.fp2mul 8 0 2) (montOne, mont2) (toMont 3, mont4) =
      (0x42FD355ABE2CB25F5D9B429C03C19B71138F819445A6859B615D29FFFFFFFFFFFFFFFFFFFFFFFFFFFFFFFFFFFFFFFFFFFFFFFFFFDBB20, 0x70D5F106077B6805CBF1B394092680F6FFF092DA05BF4399AE464C0000000000000000000000000000000000000000000000000489BC) ∧
    f8 (.fp2mul 8 0 2) (toMont 3, mont4) (montOne, mont2) =
      (0x42FD355ABE2CB25F5D9B429C03C19B71138F819445A6859B615D29FFFFFFFFFFFFFFFFFFFFFFFFFFFFFFFFFFFFFFFFFFFFFFFFFFDBB20, 0x70D5F106077B6805CBF1B394092680F6FFF092DA05BF4399AE464C0000000000000000000000000000000000000000000000000489BC) := by
  decide +kernel

/-- Q12, Q13. -/
theorem test_fp2sqr :
    f8 (.fp2sqr 8 0) (montOne, mont2) (0, 0) =
      (0x1A17256F759F81E61C2AFE5247D866F87C9FE61D256C9D05310E6D1FFFFFFFFFFFFFFFFFFFFFFFFFFFFFFFFFFFFFFFFFFFFFFFFFEA37A, mont4) ∧
    f8 (.fp2sqr 8 0) (0, montOne) (0, 0) = (montMinusOne, 0) := by decide +kernel

/-- Q14, Q15. -/
theorem test_fp2inv :
    f8 (.fp2inv 8 0) (montOne, mont2) (0, 0) =
      (0x11108FDFC044727089D99E099E6BEC31C792F24DD0205BDB6F9CBC0666666666666666666666666666666666666666666666666667DA2, 0x120D2B1F6AB61EEB24A2C09152D8F58D6A19E79EAA98825382E3623333333333333333333333333333333333333333333333333304BB) ∧
    f8 (.fp2inv 8 0) (0, montOne) (0, 0) = (0, montMinusOne) := by decide +kernel

/-! ## STATUS, window, interrupt (L2.6, L2.7) -/

/-- S1, S2, S5. -/
theorem test_reads_after_reset :
    (rd 0x000 State.reset).response = .data 0x0E2001B2 ∧ (rd 0x004 State.reset).response = .data 0 ∧
    (rd 0x008 State.reset).response = .data 0 ∧ (rd 0x00C State.reset).response = .data 0 ∧
    (rd 0x118 State.reset).response = .data 0xE2FFFFFF ∧
    (rd 0x140 State.reset).response = .data 0xDCD69B30 ∧
    (rd 0x0010 State.reset).response = .data 0 ∧ (rd 0x1E00 State.reset).response = .data 0 := by
  decide +kernel

/-- S3, S4, S11 (of a word that has been written); R23 and R160 together, of one that has not; and R46 alone,
of a narrow read of that one. -/
theorem test_faulty_reads :
    (rd 0x1000 State.reset).faults = [.uninitRead 0 0] ∧
    wr 0x000 0xFFFFFFFF State.reset = { State.reset with response := .accepted } ∧
    (rd 0x1000 (pend .nop [(0, 7)])).faults = [.hostAccessWhileBusy 0x1000] ∧
    (rd 0x1000 (pend .nop [])).faults = [.hostAccessWhileBusy 0x1000, .uninitRead 0 0] ∧
    (nextOf (step { pend .nop [] with host := [.access (.read .bits8 0x1000)] })).faults =
      [.hostBusFault 0x1000 .bits8] := by decide +kernel

/-- S6, S7, S8. -/
theorem test_status_writes :
    (wr 0x008 0xFFFFFFFF { State.reset with done := true, carry := true }).statusWord = 0x08 ∧
    State.irq { State.reset with ie := true, done := true } = true ∧
    (let t := wr 0x004 0xFFFFFFFE { State.reset with ie := true, done := true }
     t.ctrlWord = 0 ∧ t.irq = false) := by decide +kernel

/-- S9, and the two errors of L2.6 (STATUS 0x16 and 0x26). -/
theorem test_command_errors :
    (wr 0x00C 0x00000008 State.reset).statusWord = 0x16 ∧
    (wr 0x00C 0x00000008 State.reset).cmdLast = 0x00000008 ∧
    (wr 0x00C 0x80000000 State.reset).statusWord = 0x26 ∧
    (wr 0x00C 0x00000000 (wr 0x00C 0x00000008 State.reset)).statusWord = 0x15 := by decide +kernel

/-- The BusyReject vector of L2.6: STATUS 0x35, then 0x36 at the completion. -/
theorem test_busyReject :
    (let t := wr 0x00C 0x00000000 { pend (.zero .w 5) [] with cmdLast := 0x147 }
     t.statusWord = 0x35 ∧ t.cmdLast = 0x147 ∧
       (nextOf (exec (.zero .w 5) t)).statusWord = 0x36) := by decide +kernel

/-- S10: every width but 32 bits, and an offset that is no multiple of 4. -/
theorem test_busFault :
    (nextOf (step { State.reset with host := [.access (.read .bits8 0x1000)] })).response = .busError ∧
    (nextOf (step { State.reset with host := [.access (.write .bits16 0x00C 0)] })) =
      { State.reset with response := .busError, faults := [.hostBusFault 0x00C .bits16] } ∧
    (nextOf (step { State.reset with host := [.access (.write .bits64 0x00C 0)] })).busy = false ∧
    (rd 0x002 State.reset).faults = [.hostBusFault 0x002 .bits32] := by decide +kernel

/-- R42 at both ends: word 0 of F0 and word 13 of F63, written and read back. -/
theorem test_element_words :
    (rd 0x1000 (wr 0x1000 0xDEADBEEF State.reset)).response = .data 0xDEADBEEF ∧
    (rd 0x1DFC (wr 0x1DFC 0x12345678 State.reset)).response = .data 0x12345678 ∧
    (wr 0x1DFC 0x12345678 State.reset).elem 63 = 0x12345678#448 <<< 416 ∧
    elementOffset 63 13 = 0x1DFC#13 := by decide +kernel

/-- withFetchWord: the next step runs the word's command. -/
theorem test_withFetchWord :
    ((nextOf (step (State.reset.withFetchWord 32 0x200001C7))).pending.map Pending.instr) =
      some (.zero .d 7) := by decide +kernel

/-- R44: a precondition violation and two unwritten words, in the order of 60_exceptions R144. -/
theorem test_fault_records :
    (pend (.fpinv 1 1) [(1, 0)]).faults = [.preconditionViolation 0x12] ∧
    (pend (.fpadd 3 1 2) [(1, 0), (2, 2 * primeP)]).faults = [.preconditionViolation 0x18] ∧
    ((pend (.copy .w 1 0) []).faults.take 2) = [.uninitRead 0 0, .uninitRead 0 1] ∧
    (pend (.copy .w 1 0) []).faults.length = 14 ∧
    (pend (.fp2inv 2 0) [(0, primeP), (1, 0)]).faults = [.preconditionViolation 0x2A] := by
  decide +kernel

/-! ## Witnesses: for each statement with hypotheses, a state and operands that meet them all -/

/-- Everything `RuleOf` assumes of a command before its result clause: idle, legal, sources written, the
precondition holds. -/
def Usable (i : Instr) (srcs : List Operand) (pre : State → Prop) : Prop :=
  ∃ s : State, s.pending = none ∧ i.wellFormed = true ∧ (∀ o, o ∈ srcs → opWritten s o = true) ∧ pre s

/-- What `RuleOf` assumes in its clause on an unwritten source word. -/
def Unwritten (i : Instr) (srcs : List Operand) : Prop :=
  ∃ s : State, s.pending = none ∧ i.wellFormed = true ∧
    ∃ o, o ∈ srcs ∧ ∃ n, n ∈ opRegs o ∧ ∃ w, w < 14 ∧ (s.marks n).getLsbD w = false

/-- F0 to F3 and F61 to F63 at the largest field element. -/
def fieldState : State :=
  withRegs [(0, 2 * primeP - 1), (1, 2 * primeP - 1), (2, 2 * primeP - 1), (3, 2 * primeP - 1),
    (61, 2 * primeP - 1), (62, 2 * primeP - 1), (63, 2 * primeP - 1)]

/-- F0 to F3 just outside the field elements. -/
def outState : State :=
  withRegs [(0, 2 * primeP), (1, 2 * primeP), (2, 2 * primeP), (3, 2 * primeP)]

/-- F0 to F3 zero modulo p: 0 and p. -/
def zeroState : State := withRegs [(0, 0), (1, primeP), (2, 0), (3, primeP)]

theorem test_witness_DecodeOfEncode_AssembleOfDisassemble :
    (Instr.mpshlk .d 62 62 31).wellFormed = true ∧ (Instr.fp2mul 62 0 61).wellFormed = true ∧
    (Instr.fpmul 63 63 63).wellFormed = true := by decide

theorem test_witness_AcceptedWordHasOneReading :
    decode 0x1F004145#32 = .ok (.mpshlk .w 5 4 31) := by decide

theorem test_witness_IllegalFieldMeansNoCommand :
    ¬opcodeListedIllegal ((0x00004145#32).extractLsb' 0 6).toNat ∧
    ¬opcodeListedIllegal ((0x0000002A#32).extractLsb' 0 6).toNat := by
  unfold opcodeListedIllegal
  decide

/-- The command of LAT cycles, one cycle before its end, disturbed by a host write, with the records that
explain it. -/
def disturbedState : State :=
  { withRegs [(0, primeP)] with
    cmdLast := 0x00000052
    pending := some { instr := .fpinv 1 0, latch := ⟨BitVec.ofNat 896 primeP, 0⟩, remaining := 1, disturbed := true }
    faults := [.preconditionViolation 0x12, .hostAccessWhileBusy 0x1000] }

theorem test_witness_EveryStepKeepsInvariant :
    Inv disturbedState ∧ ∃ t, step disturbedState = .next t := by
  refine ⟨⟨?_, ?_, ?_, ?_⟩, _, rfl⟩
  · exact ⟨by decide +kernel, by decide +kernel, by decide +kernel⟩
  · intro p hp
    cases hp
    refine ⟨rfl, by decide, Nat.le_refl 1, ?_⟩
    exact Nat.le_add_left 1 _
  · unfold FaultsDistinct disturbedState
    decide
  · intro p hp
    cases hp
    exact ⟨fun _ => .head _, fun _ => ⟨_, .tail _ (.head _)⟩⟩

theorem test_witness_CmdWriteRunsDecodedCommand :
    ∃ s : State, s.pending = none ∧ NextWrites s 0x00C#13 0x200001C7#32 [.cycle] ∧
      decode 0x200001C7#32 = .ok (.zero .d 7) :=
  ⟨{ State.reset with host := [.access (.write .bits32 0x00C 0x200001C7), .cycle] }, rfl, rfl, by decide⟩

/-- A pending ZERO in the last cycle of its latency. -/
def lastCycle (es : List HostEvent) : State :=
  { State.reset with
    host := es
    cmdLast := 0x00000147
    pending := some { instr := .zero .w 5, latch := ⟨0, 0⟩, remaining := 1, disturbed := false } }

theorem test_witness_LastCycleRunsPendingCommand :
    (∃ p, (lastCycle []).pending = some p ∧ p.remaining ≤ 1 ∧ (lastCycle []).host = []) ∧
    (∃ p, (lastCycle [.cycle, .reset]).pending = some p ∧ p.remaining ≤ 1 ∧
      (lastCycle [.cycle, .reset]).host = .cycle :: [.reset]) :=
  ⟨⟨_, rfl, Nat.le_refl 1, rfl⟩, ⟨_, rfl, Nat.le_refl 1, rfl⟩⟩

theorem test_witness_CommandErrorIsReported :
    (∃ s : State, s.pending = none ∧ s.err = false ∧ NextWrites s 0x00C#13 0x0000003F#32 [] ∧
      decode 0x0000003F#32 = .error .illegalOpcode) ∧
    (∃ s : State, s.pending = none ∧ s.err = true ∧ NextWrites s 0x00C#13 0x80000000#32 [] ∧
      decode 0x80000000#32 = .error .illegalField) :=
  ⟨⟨{ State.reset with host := [.access (.write .bits32 0x00C 0x0000003F)] }, rfl, rfl, rfl, by decide⟩,
   ⟨{ State.reset with host := [.access (.write .bits32 0x00C 0x80000000)], err := true, errCode := 1 },
    rfl, rfl, rfl, by decide⟩⟩

theorem test_witness_CmdWriteWhileBusyIsRejected :
    (lastCycle [.access (.write .bits32 0x00C 0)]).busy = true ∧
    NextWrites (lastCycle [.access (.write .bits32 0x00C 0)]) 0x00C#13 0#32 [] := ⟨rfl, rfl⟩

theorem test_witness_IdleCoreAcceptsEveryLegalCommand :
    State.reset.pending = none ∧ (Instr.fp2inv 62 62).wellFormed = true := ⟨rfl, by decide⟩

theorem test_witness_PendingCommandCompletesInPlace :
    ∃ p, (lastCycle []).pending = some p ∧ p.instr = .zero .w 5 := ⟨_, rfl, rfl⟩

theorem test_witness_RunOfCommandIsAcceptanceThenCompletion :
    ∃ (s : State) (s₁ t : State), s.pending = none ∧ decode 0x200001C7#32 = .ok (.zero .d 7) ∧
      NextWrites s 0x00C#13 0x200001C7#32
        (List.replicate (Config.latency (Instr.zero .d 7).opcode (Instr.zero .d 7).sizeBit) .cycle ++ []) ∧
      exec (.zero .d 7) { afterBus s (List.replicate (Config.latency (Instr.zero .d 7).opcode
        (Instr.zero .d 7).sizeBit) .cycle ++ []) .accepted with cmdLast := 0x200001C7#32 } = .next s₁ ∧
      exec (.zero .d 7) s₁ = .next t :=
  ⟨{ State.reset with host := .access (.write .bits32 0x00C 0x200001C7) :: (List.replicate
      (Config.latency (Instr.zero .d 7).opcode (Instr.zero .d 7).sizeBit) .cycle ++ []) },
    _, _, rfl, by decide, rfl, rfl, rfl⟩

theorem test_witness_PendingCommandEventuallyCompletes :
    ∃ p, (lastCycle []).pending = some p ∧ 1 ≤ p.remaining ∧ (lastCycle []).host = [] ∧ 0 < p.remaining :=
  ⟨_, rfl, Nat.le_refl 1, rfl, Nat.le_refl 1⟩

/-- A pending GF(p²) command in the last cycle of its latency. -/
def lastCyclePair : State :=
  { State.reset with
    cmdLast := 0x00000FA2
    pending := some { instr := .fp2neg 62 0, latch := ⟨1, 0⟩, remaining := 1, disturbed := false } }

/-- The states `lastCycle` meet the invariant, whatever the host still does. -/
theorem inv_lastCycle (es : List HostEvent) : Inv (lastCycle es) := by
  refine ⟨⟨fun h => Bool.noConfusion h.2, Nat.zero_le 3, fun _ => rfl, fun _ => rfl⟩, ?_, List.nodup_nil, ?_⟩
  · intro p hp
    cases hp
    exact ⟨rfl, show decode 0x00000147#32 = .ok (.zero .w 5) by decide, Nat.le_refl 1, Nat.le_add_left 1 _⟩
  · intro p hp
    cases hp
    exact ⟨fun h => absurd h (by decide +kernel), fun h => absurd h (by decide)⟩

/-- A completion with no event left and one with a cycle and a RESET to come, of an element; and one of a
pair. -/
theorem test_witness_CleanCompletionGivesTheRulesResult :
    (∃ t p, Inv (lastCycle []) ∧ (lastCycle []).pending = some p ∧ p.remaining ≤ 1 ∧
      (lastCycle []).host = [] ∧ step (lastCycle []) = .next t ∧ Clean t ∧
      (commandOf p.instr).dst = some (elemAt 5)) ∧
    (∃ t p es, Inv (lastCycle [.cycle, .reset]) ∧ (lastCycle [.cycle, .reset]).pending = some p ∧
      p.remaining ≤ 1 ∧ (lastCycle [.cycle, .reset]).host = .cycle :: es ∧
      step (lastCycle [.cycle, .reset]) = .next t ∧ Clean t ∧
      (commandOf p.instr).dst = some (elemAt 5)) ∧
    (∃ t p, Inv lastCyclePair ∧ lastCyclePair.pending = some p ∧ p.remaining ≤ 1 ∧
      lastCyclePair.host = [] ∧ step lastCyclePair = .next t ∧ Clean t ∧
      (commandOf p.instr).dst = some (pairAt 62)) := by
  refine ⟨⟨_, _, inv_lastCycle _, rfl, Nat.le_refl 1, rfl, rfl, rfl, rfl⟩,
    ⟨_, _, _, inv_lastCycle _, rfl, Nat.le_refl 1, rfl, rfl, rfl, rfl⟩,
    ⟨_, _, ⟨?_, ?_, ?_, ?_⟩, rfl, Nat.le_refl 1, rfl, rfl, rfl, rfl⟩⟩
  · exact ⟨by decide +kernel, by decide +kernel, by decide +kernel⟩
  · intro p hp
    cases hp
    exact ⟨rfl, by decide, Nat.le_refl 1, Nat.le_add_left 1 _⟩
  · exact List.nodup_nil
  · intro p hp
    cases hp
    exact ⟨fun h => absurd h (by decide +kernel), fun h => absurd h (by decide)⟩

theorem test_witness_WindowIsEightKilobytesAtCoreBase :
    0 < 0x2000 ∧ 0x1FFF < 0x2000 ∧ Config.coreBase + 0x2000 ≤ Config.coreBase + 0x2000 :=
  ⟨by decide, by decide, Nat.le_refl _⟩

/-- A state whose next event is a read, or a write, at an offset exists for every offset, value and
rest: the hypothesis of StatusWriteOneClears, CtrlKeepsBitZero, IdCmdAndStatusReads. -/
theorem test_witness_NextReads_NextWrites (off : Offset) (v : Word) (es : List HostEvent) :
    NextReads { State.reset with host := .access (.read .bits32 off) :: es } off es ∧
    NextWrites { State.reset with host := .access (.write .bits32 off v) :: es } off v es := ⟨rfl, rfl⟩

theorem test_witness_RomsReadTheirConstants :
    (∃ w s, w < 14 ∧ NextReads s (BitVec.ofNat 13 (0x100 + 4 * w)) []) ∧
    (∃ s, 13 < 14 ∧ NextReads s (BitVec.ofNat 13 (0x140 + 4 * 13)) [] ∧
      BitVec.ofNat 13 (0x140 + 4 * 13) = 0x174#13) :=
  ⟨⟨0, { State.reset with host := [.access (.read .bits32 0x100)] }, by decide, rfl⟩,
   ⟨{ State.reset with host := [.access (.read .bits32 0x174)] }, by decide, rfl, by decide⟩⟩

/-- The offsets at both ends of each reserved range, a read-only location, and a STATUS write with bits 1
and 2 clear. -/
theorem test_witness_ReservedAndReadOnlyLocations :
    (∀ off, off ∈ [0x010#13, 0x0FC#13, 0x138#13, 0x13C#13, 0x178#13, 0xFFC#13, 0x1E00#13, 0x1FFC#13] →
      off.toNat % 4 = 0 ∧
      ((0x010 ≤ off.toNat ∧ off.toNat < 0x100) ∨ (0x138 ≤ off.toNat ∧ off.toNat < 0x140) ∨
        (0x178 ≤ off.toNat ∧ off.toNat < 0x1000) ∨ 0x1E00 ≤ off.toNat) ∧
      NextReads { State.reset with host := [.access (.read .bits32 off)] } off []) ∧
    (∀ off, off ∈ [0x000#13, 0x010#13, 0x100#13, 0x174#13, 0x178#13, 0xFFC#13, 0x1E00#13, 0x1FFC#13] →
      off.toNat % 4 = 0 ∧
      (off.toNat = 0 ∨ (0x010 ≤ off.toNat ∧ off.toNat < 0x1000) ∨ 0x1E00 ≤ off.toNat)) ∧
    ((8#13).toNat % 4 = 0 ∧ (8#13).toNat = 8 ∧ (0xFFFFFFF9#32).getLsbD 1 = false ∧
      (0xFFFFFFF9#32).getLsbD 2 = false ∧ 0xFFFFFFFF#32 &&& 6#32 = 6#32 ∧
      NextWrites { State.reset with host := [.access (.write .bits32 8 0xFFFFFFFF)] } 8#13 0xFFFFFFFF#32 []) := by
  refine ⟨fun off h => ⟨?_, ?_, rfl⟩, fun off h => ?_, by decide, by decide, by decide, by decide, by decide, rfl⟩
  all_goals
    simp only [List.mem_cons, List.not_mem_nil, or_false] at h
    rcases h with rfl | rfl | rfl | rfl | rfl | rfl | rfl | rfl <;> decide

theorem test_witness_HostReadsAndWritesElementWords :
    (13 < 14 ∧ State.reset.busy = false ∧
      NextWrites { State.reset with host := [.access (.write .bits32 0x1DFC 7)] }
        (BitVec.ofNat 13 (0x1000 + 56 * (63#6).toNat + 4 * 13)) 7#32 []) ∧
    (((withRegs [(63, 0)]).marks 63).getLsbD 13 = true ∧ (withRegs [(63, 0)]).busy = false) ∧
    ((State.reset.marks 0).getLsbD 0 = false ∧
      NextReads { State.reset with host := [.access (.read .bits32 0x1000)] }
        (BitVec.ofNat 13 (0x1000 + 56 * (0#6).toNat + 4 * 0)) []) := by
  refine ⟨⟨by decide, rfl, rfl⟩, ⟨by decide +kernel, rfl⟩, by decide +kernel, rfl⟩

theorem test_witness_NarrowOrMisalignedAccessIsBusError :
    (∃ s : State, s.host = [.access (.read .bits64 0x1000)] ∧ AccessWidth.bits64 ≠ .bits32) ∧
    (∃ s : State, s.host = [.access (.write .bits32 0x1FFF 0)] ∧ (0x1FFF#13).toNat % 4 ≠ 0) :=
  ⟨⟨{ State.reset with host := [.access (.read .bits64 0x1000)] }, rfl, by decide⟩,
   ⟨{ State.reset with host := [.access (.write .bits32 0x1FFF 0)] }, rfl, by decide⟩⟩

/-- Both read cases, the word unwritten and written, and a write that meets a clear mark. -/
theorem test_witness_ElementAccessWhileBusyIsRecorded :
    (13 < 14 ∧ (lastCycle [.access (.read .bits32 0x1DFC)]).busy = true ∧
      0x1DFC#13 = BitVec.ofNat 13 (0x1000 + 56 * (63#6).toNat + 4 * 13) ∧
      NextReads (lastCycle [.access (.read .bits32 0x1DFC)]) 0x1DFC#13 [] ∧
      ((lastCycle []).marks 63).getLsbD 13 = false ∧
      (((pend .nop [(63, 0)]).marks 63).getLsbD 13 = true ∧ (pend .nop [(63, 0)]).busy = true)) ∧
    NextWrites (lastCycle [.access (.write .bits32 0x1DFC 3)]) 0x1DFC#13 3#32 [] := by
  refine ⟨⟨by decide, rfl, by decide, rfl, ?_, ?_, ?_⟩, rfl⟩ <;> decide +kernel

theorem test_witness_ResetAbandonsPendingCommand :
    (lastCycle [.reset, .cycle]).host = .reset :: [.cycle] := rfl

/-- A completion of MPADD that changes CARRY from 0 to 1. -/
def carryState : State :=
  { State.reset with
    pending := some { instr := .mpadd .w 2 0 0, latch := ⟨BitVec.ofNat 896 (2 ^ 447), BitVec.ofNat 896 (2 ^ 447)⟩,
                      remaining := 1, disturbed := false } }

theorem test_witness_OnlyMpaddAndMpsubChangeCarry :
    ∃ t, step carryState = .next t ∧ t.carry ≠ carryState.carry :=
  ⟨nextOf (step carryState), rfl, by decide +kernel⟩

/-- The cases of ErrIsStickyWithFirstCode: ERR kept, cleared by STATUS bit 2, set by each of the codes. -/
theorem test_witness_ErrIsStickyWithFirstCode :
    (∃ t, step { State.reset with err := true, errCode := 1, host := [.access (.write .bits32 0x00C 0x80000000)] }
      = .next t ∧ t.err = true ∧ t.errCode = 1) ∧
    (∃ t, step { State.reset with err := true, errCode := 3, host := [.access (.write .bits32 0x008 4)] }
      = .next t ∧ t.err = false ∧ t.errCode = 0) ∧
    (∃ t, step (lastCycle [.access (.write .bits32 0x00C 0)]) = .next t ∧ t.err = true ∧ t.errCode = 3) ∧
    (∃ t, step { State.reset with host := [.access (.write .bits32 0x00C 0x3F)] } = .next t ∧
      t.err = true ∧ t.errCode = 1) ∧
    (∃ t, step { State.reset with host := [.access (.write .bits32 0x00C 0x40)] } = .next t ∧
      t.err = true ∧ t.errCode = 2) := by
  refine ⟨⟨_, rfl, rfl, ?_⟩, ⟨_, rfl, ?_, ?_⟩, ⟨_, rfl, rfl, ?_⟩, ⟨_, rfl, rfl, ?_⟩, ⟨_, rfl, rfl, ?_⟩⟩ <;>
    decide +kernel

theorem test_witness_DoneComesFromCompletionOrCommandError :
    (lastCycle []).done = false ∧ (∃ t, step (lastCycle []) = .next t ∧ t.done = true) ∧
    (∃ t, step { State.reset with host := [.access (.write .bits32 0x00C 0x3F)] } = .next t ∧
      t.done = true) :=
  ⟨rfl, ⟨_, rfl, rfl⟩, ⟨nextOf (step { State.reset with host := [.access (.write .bits32 0x00C 0x3F)] }),
    by rfl, by decide +kernel⟩⟩

theorem test_witness_RegistersChangeOnlyByHostOrDestination :
    (∃ t, step carryState = .next t ∧ t.elem 2 = 0) ∧
    (∃ t, step { State.reset with host := [.access (.write .bits32 0x1000 5)] } = .next t ∧
      t.elem 0 ≠ State.reset.elem 0) :=
  ⟨⟨nextOf (step carryState), rfl, by decide +kernel⟩,
   ⟨nextOf (step { State.reset with host := [.access (.write .bits32 0x1000 5)] }), by rfl,
    by decide +kernel⟩⟩

theorem test_witness_FaultsAndMarksOnlyGrow :
    ∃ t, step disturbedState = .next t ∧ disturbedState.faults ≠ [] ∧ (disturbedState.marks 0).getLsbD 0 = true :=
  ⟨_, rfl, by decide, by decide +kernel⟩

/-- Two states that differ in a latched value and in CARRY, one cycle before a completion. -/
theorem test_witness_ControlDoesNotDependOnOperandValues :
    ∃ s s' t t' : State, s ≠ s' ∧ SameControl s s' ∧ step s = .next t ∧ step s' = .next t' :=
  ⟨carryState, { carryState with carry := true, regs := State.reset.regs.set 0 1 }, _, _,
    by decide +kernel, ⟨rfl, rfl, rfl, rfl, rfl, rfl, rfl⟩, rfl, rfl⟩

theorem test_witness_multiprecision_rules :
    Usable (.mpadd .d 62 61 62) [pairAt 61, pairAt 62] NoPre ∧ Usable (.mpsub .w 63 0 63) [elemAt 0, elemAt 63] NoPre ∧
    Usable (.mpshl1 .d 62 61) [pairAt 61] NoPre ∧ Usable (.mpshr1 .w 63 63) [elemAt 63] NoPre ∧
    Usable (.mpshlk .d 62 61 31) [pairAt 61] NoPre ∧ Usable (.copy .d 62 61) [pairAt 61] NoPre ∧
    Usable (.zero .d 62) [] NoPre ∧ Usable .nop [] NoPre := by
  refine ⟨⟨fieldState, rfl, by decide, ?_, trivial⟩, ⟨fieldState, rfl, by decide, ?_, trivial⟩,
    ⟨fieldState, rfl, by decide, ?_, trivial⟩, ⟨fieldState, rfl, by decide, ?_, trivial⟩,
    ⟨fieldState, rfl, by decide, ?_, trivial⟩, ⟨fieldState, rfl, by decide, ?_, trivial⟩,
    ⟨fieldState, rfl, by decide, ?_, trivial⟩, ⟨fieldState, rfl, by decide, ?_, trivial⟩⟩ <;>
  decide +kernel

/-- The words of NOP's opcode that are not NOP: RSV, RD and S set. -/
theorem test_witness_CopyZeroAndNop :
    ((0x80000000#32).extractLsb' 0 6 = 0#6 ∧ 0x80000000#32 ≠ 0) ∧
    ((0x00000040#32).extractLsb' 0 6 = 0#6 ∧ 0x00000040#32 ≠ 0) ∧
    ((0x20000000#32).extractLsb' 0 6 = 0#6 ∧ 0x20000000#32 ≠ 0) := by decide

theorem test_witness_unwritten_source :
    Unwritten (.mpadd .d 62 0 0) [pairAt 0, pairAt 0] ∧ Unwritten (.fpinv 1 1) [elemAt 1] ∧
    Unwritten (.fp2mul 0 62 62) [pairAt 62, pairAt 62] :=
  ⟨⟨State.reset, rfl, by decide, pairAt 0, by decide, 1, by decide, 13, by decide, by decide +kernel⟩,
   ⟨State.reset, rfl, by decide, elemAt 1, by decide, 1, by decide, 0, by decide, by decide +kernel⟩,
   ⟨State.reset, rfl, by decide, pairAt 62, by decide, 63, by decide, 13, by decide, by decide +kernel⟩⟩

/-- AddAndSubtractUndoEachOther: a pair destination beside its sources, and the four commands run. -/
theorem test_witness_AddAndSubtractUndoEachOther :
    ∃ s₁ s₂ s₃ t, fieldState.pending = none ∧ (Instr.mpadd .d 61 0 2).wellFormed = true ∧
      opWritten fieldState (pairAt 0) = true ∧ opWritten fieldState (pairAt 2) = true ∧
      (∀ n, n ∈ opRegs (pairAt 61) → n ∉ opRegs (pairAt 2)) ∧
      exec (.mpadd .d 61 0 2) fieldState = .next s₁ ∧ exec (.mpadd .d 61 0 2) s₁ = .next s₂ ∧
      exec (.mpsub .d 61 61 2) s₂ = .next s₃ ∧ exec (.mpsub .d 61 61 2) s₃ = .next t :=
  ⟨_, _, _, _, rfl, by decide, by decide +kernel, by decide +kernel, by decide, rfl, rfl, rfl, rfl⟩

/-- The one-register commands: sources at 2p - 1 (the largest legal value), and at 2p (the smallest
illegal one). -/
theorem test_witness_one_register_rules (i : Instr) (h : i ∈ [Instr.fpmul 3 0 63, .fpsqr 3 0, .fpadd 3 0 63,
    .fpsub 3 0 63, .fpneg 3 0, .fpdiv2 3 0, .fpcorr 3 0, .tomont 3 0, .frommont 3 0, .fpinv 3 0]) :
    Usable i [elemAt 0, elemAt 63] (fun s => comp0 s 0 < 2 * primeP ∧ comp0 s 63 < 2 * primeP ∧
      comp0 s 0 % primeP ≠ 0) ∧
    Usable i [elemAt 0] (fun s => ¬comp0 s 0 < 2 * primeP) := by
  refine ⟨⟨fieldState, rfl, ?_, ?_, ?_⟩, ⟨outState, rfl, ?_, ?_, ?_⟩⟩
  · revert i
    decide
  · decide +kernel
  · decide +kernel
  · revert i
    decide
  · decide +kernel
  · decide +kernel

/-- FPINV's other violation: 0 and p. -/
theorem test_witness_FpinvRunsTheChain :
    Usable (.fpinv 1 0) [elemAt 0] (fun s => ¬(comp0 s 0 < 2 * primeP ∧ comp0 s 0 % primeP ≠ 0)) ∧
    Usable (.fpinv 1 1) [elemAt 1] (fun s => ¬(comp0 s 1 < 2 * primeP ∧ comp0 s 1 % primeP ≠ 0)) :=
  ⟨⟨zeroState, rfl, by decide, by decide +kernel, by decide +kernel⟩,
   ⟨zeroState, rfl, by decide, by decide +kernel, by decide +kernel⟩⟩

/-- The pair commands: sources at 2p - 1 and at 2p, and every overlap of pairs is legal. -/
theorem test_witness_pair_rules (i : Instr) (h : i ∈ [Instr.fp2add 1 0 2, .fp2sub 1 0 2, .fp2mul 1 0 2,
    .fp2neg 1 0, .fp2div2 1 0, .fp2corr 1 0, .fp2tomont 1 0, .fp2frommont 1 0, .fp2sqr 1 0, .fp2inv 1 0]) :
    Usable i [pairAt 0, pairAt 2] (fun s => PairInField s 0 ∧ PairInField s 2 ∧
      ¬(comp0 s 0 % primeP = 0 ∧ comp1 s 0 % primeP = 0)) ∧
    Usable i [pairAt 0] (fun s => ¬PairInField s 0) := by
  unfold PairInField
  refine ⟨⟨fieldState, rfl, ?_, ?_, ?_⟩, ⟨outState, rfl, ?_, ?_, ?_⟩⟩
  · revert i
    decide
  · decide +kernel
  · decide +kernel
  · revert i
    decide
  · decide +kernel
  · decide +kernel

/-- The two cases of FP2MUL's c0: a product that borrows and one that does not (R128). -/
theorem test_witness_Fp2mulIsTheKaratsubaProduct :
    (let s := withRegs [(0, 0), (1, 1)]
     comp0 s 0 * comp0 s 0 < comp1 s 0 * comp1 s 0) ∧
    (let s := withRegs [(0, 1), (1, 1)]
     comp1 s 0 * comp1 s 0 ≤ comp0 s 0 * comp0 s 0) := by decide +kernel

/-- FP2INV's other violation: both components zero modulo p. -/
theorem test_witness_Fp2invInvertsTheNorm :
    Usable (.fp2inv 2 0) [pairAt 0]
      (fun s => ¬(PairInField s 0 ∧ ¬(comp0 s 0 % primeP = 0 ∧ comp1 s 0 % primeP = 0))) := by
  unfold PairInField
  exact ⟨zeroState, rfl, by decide, by decide +kernel, by decide +kernel⟩

theorem test_witness_RedcIsExactAndBelowTwoP_WordSerialReductionIsRedc :
    primeP * montR - 1 < primeP * montR := by decide +kernel

theorem test_witness_MontgomeryProductLaws_Fp2ProductLaws :
    2 * primeP - 1 < 2 * primeP ∧ 0 < 2 * primeP := by decide +kernel

/-- A chain of 2 entries, started at its last one. -/
theorem test_witness_ChainRaisesToItsExponent :
    1 < 2 ∧ (∀ kj : Nat × Nat, kj ∈ [(3, 0), (0, 1)] → kj.2 < 2) ∧
    chainExponent 1 [(3, 0), (0, 1)] = 28 := by decide

/-- An admissible chain that is not the one of R101: it starts at entry 8 and takes one step more (17 twice
plus 1 is 35). -/
theorem test_witness_AdmissibleChainsAgree :
    chainAdmissible 20 8 ((1, 0) :: chainSteps) = true := by decide +kernel

/-- The values of InverseTimesValueIsMontgomeryOne: x = 1; and the GF(p²) element (2^224, 0), the square root
of R, whose norm is 1. -/
theorem test_witness_InverseTimesValueIsMontgomeryOne :
    (1 < 2 * primeP ∧ 1 ^ (primeP - 1) ≡ 1 [MOD primeP]) ∧
    2 ^ 224 < 2 * primeP ∧ 0 < 2 * primeP ∧ fpAdd (montSqr (2 ^ 224)) (montSqr 0) = 1 := by
  refine ⟨⟨by decide +kernel, ?_⟩, by decide +kernel, by decide +kernel, by decide +kernel⟩
  rw [one_pow]

/-- TomontThenFrommontIsIdentity, at the largest canonical value; FPCORR's clause on both sides of p. -/
theorem test_witness_TomontThenFrommontIsIdentity :
    (primeP - 1 < 2 * primeP ∧ primeP - 1 < primeP) ∧ 2 * primeP - 1 < 2 * primeP ∧
    ∃ s s₁ s₂ s₃ t : State, s.pending = none ∧ s.elemWritten 0 = true ∧ comp0 s 0 < primeP ∧
      exec (.tomont 1 0) s = .next s₁ ∧ exec (.tomont 1 0) s₁ = .next s₂ ∧
      exec (.frommont 0 1) s₂ = .next s₃ ∧ exec (.frommont 0 1) s₃ = .next t :=
  ⟨by decide +kernel, by decide +kernel,
    withRegs [(0, primeP - 1)], _, _, _, _, rfl, by decide +kernel, by decide +kernel, rfl, rfl, rfl, rfl⟩

/-- FieldResultsStayInRange, for the first and the last opcode it speaks of and a correcting one. -/
theorem test_witness_FieldResultsStayInRange (i : Instr) (h : i ∈ [Instr.fpmul 3 1 2, .fp2inv 62 1, .fpcorr 3 1]) :
    ∃ s t p, s.pending = some p ∧ p.instr = i ∧ p.disturbed = false ∧
      (commandOf i).legal p.latch = true ∧ 0x10 ≤ i.opcode.toNat ∧ exec i s = .next t := by
  refine ⟨{ State.reset with pending := some { instr := i, latch := ⟨1, 1⟩, remaining := 1, disturbed := false } },
    nextOf (exec i { State.reset with pending := some { instr := i, latch := ⟨1, 1⟩, remaining := 1, disturbed := false } }),
    _, rfl, rfl, rfl, ?_, ?_, ?_⟩
  · revert i
    decide +kernel
  · revert i
    decide
  · simp only [List.mem_cons, List.not_mem_nil, or_false] at h
    rcases h with rfl | rfl | rfl <;> rfl

end Sys2Proof.Tests
end

section
/-! SUPPORT. What single operations keep, where the laws above do not say it yet: reads of the window,
element writes, and exec while nothing is pending. -/

namespace Sys2Proof.Machine

/-! ## Reads of the window change no register and no flag (20_memory R42, R48) -/

/-- What does not read the fault set, the draws or the response is the same after a read. -/
theorem readWindow_keeps {α : Type} (f : State → α) (off : Offset) (s : State)
    (hf : ∀ (u : State) rs d r, f { u with faults := rs, draws := d, response := r } = f u) :
    f (readWindow off s) = f s :=
  (hf _ _ _ _).symm.trans (congrArg f (readWindow_effect off s).1)

@[simp] theorem readWindow_regs (off : Offset) (s : State) : (readWindow off s).regs = s.regs :=
  readWindow_keeps State.regs off s fun _ _ _ _ => rfl

@[simp] theorem readWindow_written (off : Offset) (s : State) : (readWindow off s).written = s.written :=
  readWindow_keeps State.written off s fun _ _ _ _ => rfl

@[simp] theorem readWindow_ie (off : Offset) (s : State) : (readWindow off s).ie = s.ie :=
  readWindow_keeps State.ie off s fun _ _ _ _ => rfl

@[simp] theorem readWindow_done (off : Offset) (s : State) : (readWindow off s).done = s.done :=
  readWindow_keeps State.done off s fun _ _ _ _ => rfl

@[simp] theorem readWindow_err (off : Offset) (s : State) : (readWindow off s).err = s.err :=
  readWindow_keeps State.err off s fun _ _ _ _ => rfl

@[simp] theorem readWindow_errCode (off : Offset) (s : State) : (readWindow off s).errCode = s.errCode :=
  readWindow_keeps State.errCode off s fun _ _ _ _ => rfl

@[simp] theorem readWindow_carry (off : Offset) (s : State) : (readWindow off s).carry = s.carry :=
  readWindow_keeps State.carry off s fun _ _ _ _ => rfl

@[simp] theorem readWindow_cmdLast (off : Offset) (s : State) : (readWindow off s).cmdLast = s.cmdLast :=
  readWindow_keeps State.cmdLast off s fun _ _ _ _ => rfl

@[simp] theorem readWindow_pending (off : Offset) (s : State) : (readWindow off s).pending = s.pending :=
  readWindow_keeps State.pending off s fun _ _ _ _ => rfl

@[simp] theorem readWindow_host (off : Offset) (s : State) : (readWindow off s).host = s.host :=
  readWindow_keeps State.host off s fun _ _ _ _ => rfl

/-! ## Writes of an element word -/

theorem elem_writeElement_other (off : Offset) (n m : RegIx) (w : Nat) (v : Word) (s : State)
    (h : m ≠ n) : (writeElement off n w v s).elem m = s.elem m := by
  rcases writeElement_cases off n w v s with ⟨-, e⟩ | ⟨-, s₁, rfl | rfl, e⟩ <;> rw [e]
  · rw [elem_writeWord, if_neg h]
  · rfl
  · exact (elem_writeWord _ n m w v).trans (if_neg h)

/-- A write of an element word keeps all but registers, marks, records, draws and the disturbed mark. -/
theorem writeElement_keeps {α : Type} (f : State → α) (off : Offset) (n : RegIx) (w : Nat) (v : Word)
    (s : State) (hd : ∀ u, f (disturb u) = f u)
    (hf : ∀ (u : State) rg wr fs d,
      f { u with regs := rg, written := wr, faults := fs, draws := d } = f u) :
    f (writeElement off n w v s) = f s := by
  rcases writeElement_cases off n w v s with ⟨-, e⟩ | ⟨-, s₁, rfl | rfl, e⟩ <;> rw [e]
  · exact hf s _ _ s.faults s.draws
  · exact (hf (disturb s) s.regs s.written _ _).trans (hd s)
  · exact (hf (disturb s) _ _ _ _).trans (hd s)

theorem writeWindow_carry (off : Offset) (v : Word) (s : State) :
    (writeWindow off v s).carry = s.carry := by
  rcases writeWindow_cases off v s with ⟨-, e⟩ | ⟨-, e⟩ | ⟨n, w, -, e⟩ | e <;> rw [e]
  case inr.inr.inl => exact writeElement_keeps State.carry off n w v s (fun _ => rfl) fun _ _ _ _ _ => rfl
  all_goals rfl

/-- An element register changes by a window write only if the offset is that of one of its words (R42). -/
theorem element_of_elem_writeWindow_ne (off : Offset) (v : Word) (s : State) (n : RegIx)
    (h : (writeWindow off v s).elem n ≠ s.elem n) : ∃ w, locationAt off = .element n w := by
  rcases writeWindow_cases off v s with ⟨-, e⟩ | ⟨-, e⟩ | ⟨m, w, hloc, e⟩ | e <;> rw [e] at h
  case inr.inr.inl =>
    have hnm : n = m := by_contra fun hne => h (elem_writeElement_other off m n w v s hne)
    exact ⟨w, hnm ▸ hloc⟩
  all_goals exact absurd rfl h

/-! ## The bits of STATUS (10_state R29) -/

theorem getLsbD_statusWord_zero (s : State) : s.statusWord.getLsbD 0 = s.busy := by
  simp only [State.statusWord, BitVec.getLsbD_append]; simp

theorem getLsbD_statusWord_one (s : State) : s.statusWord.getLsbD 1 = s.done := by
  simp only [State.statusWord, BitVec.getLsbD_append]; simp

theorem getLsbD_statusWord_two (s : State) : s.statusWord.getLsbD 2 = s.err := by
  simp only [State.statusWord, BitVec.getLsbD_append]; simp

theorem getLsbD_statusWord_three (s : State) : s.statusWord.getLsbD 3 = s.carry := by
  simp only [State.statusWord, BitVec.getLsbD_append]; simp

/-- Above bit 3 stand ERRCODE and, past its four bits, zeros. -/
theorem getLsbD_statusWord_add_four (s : State) (i : Nat) :
    s.statusWord.getLsbD (4 + i) = s.errCode.getLsbD i := by
  simp only [State.statusWord, BitVec.getLsbD_append]
  rw [if_neg (by omega), if_neg (by omega), if_neg (by omega), if_neg (by omega),
    show 4 + i - 1 - 1 - 1 - 1 = i by omega]
  split
  · rfl
  · next h => rw [BitVec.getLsbD_zero, BitVec.getLsbD_of_ge _ _ (Nat.le_of_not_lt h)]

theorem statusWord_congr {s t : State} (hb : t.busy = s.busy) (hd : t.done = s.done)
    (he : t.err = s.err) (hc : t.errCode = s.errCode) (hy : t.carry = s.carry) :
    t.statusWord = s.statusWord := by
  simp only [State.statusWord, hb, hd, he, hc, hy]

/-! ## exec while nothing is pending -/

/-- While nothing is pending, exec is the acceptance of a legal command, or a command error. -/
theorem exec_idle_cases {i : Instr} {s t : State} (hp : s.pending = none) (h : exec i s = .next t) :
    (i.wellFormed = true ∧ t = accept (commandOf i) s) ∨ t = commandError .illegalField s := by
  cases hw : i.wellFormed with
  | true => exact .inl ⟨rfl, Host.Outcome.next.inj (h.symm.trans (exec_idle i s hp hw))⟩
  | false => exact .inr (Host.Outcome.next.inj (h.symm.trans (exec_illFormed i s hp hw)))

/-! ## The destinations and the CARRY of the rules -/

/-- A rule's destination is the one the table of 30_encoding R63 gives the command. -/
theorem destRegs_commandOf (i : Instr) : destRegs (commandOf i).dst = destinations i := by
  cases i <;> rfl

/-- Only the rules of MPADD and MPSUB give a CARRY (10_state R26). -/
theorem mpadd_or_mpsub_of_carry {i : Instr} {l : Latch} (h : ((commandOf i).result l).carry ≠ none) :
    ∃ sz rd ra rb, i = .mpadd sz rd ra rb ∨ i = .mpsub sz rd ra rb := by
  cases i with
  | mpadd sz rd ra rb => exact ⟨sz, rd, ra, rb, .inl rfl⟩
  | mpsub sz rd ra rb => exact ⟨sz, rd, ra, rb, .inr rfl⟩
  | _ => exact absurd rfl h

end Sys2Proof.Machine
end

section
/-! PROOFS. The invariant: one lemma per operation, then the step (O8, O9). -/

namespace Sys2Proof.Machine

/-! ## Two ways to change the state under the invariant -/

/-- From s to t the status bits, ERRCODE and CMD_LAST stay, and fault records are only added, none twice. -/
structure KeepsStatus (s t : State) : Prop where
  cmdLast : t.cmdLast = s.cmdLast := by rfl
  done : t.done = s.done := by rfl
  err : t.err = s.err := by rfl
  errCode : t.errCode = s.errCode := by rfl
  grow : s.faults ⊆ t.faults := by exact List.Subset.refl _
  nodup : s.faults.Nodup → t.faults.Nodup := by exact id

/-- A change of anything else, with the pending record as it was, keeps the invariant. -/
theorem KeepsStatus.inv {s t : State} (k : KeepsStatus s t) (hp : t.pending = s.pending)
    (hs : Inv s) : Inv t := by
  obtain ⟨hstatus, hpending, hf, hexplain⟩ := hs
  refine ⟨by simpa [StatusLegal, State.busy, hp, k.done, k.err, k.errCode] using hstatus,
    by simpa [PendingLegal, hp, k.cmdLast] using hpending, k.nodup hf, fun p hq => ?_⟩
  obtain ⟨hpre, hdist⟩ := hexplain p (hp ▸ hq)
  exact ⟨fun h => k.grow (hpre h), fun h => (hdist h).imp fun _ => (k.grow ·)⟩

/-- The pending record may count down, and may be disturbed if the fault set says so. -/
theorem KeepsStatus.inv_of_pending {s t : State} (k : KeepsStatus s t) {p : Pending} {r : Nat} {d : Bool}
    (hp : s.pending = some p) (hq : t.pending = some { p with remaining := r, disturbed := d })
    (h1 : 1 ≤ r) (hr : r ≤ p.remaining)
    (hdist : d = true → ∃ off, FaultRecord.hostAccessWhileBusy off ∈ t.faults) (hs : Inv s) : Inv t := by
  obtain ⟨hstatus, hpending, hf, hexplain⟩ := hs
  obtain ⟨hw, hdec, -, hlat⟩ := hpending p hp
  refine ⟨by simpa [StatusLegal, State.busy, hp, hq, k.done, k.err, k.errCode] using hstatus, ?_,
    k.nodup hf, ?_⟩
  · rintro _ hq'
    cases hq.symm.trans hq'
    exact ⟨hw, k.cmdLast ▸ hdec, h1, hr.trans hlat⟩
  · rintro _ hq'
    cases hq.symm.trans hq'
    exact ⟨fun h => k.grow ((hexplain p hp).1 h), hdist⟩

/-- The legal pairs of ERR and ERRCODE (10_state R29): ERRCODE is at most 3, and 0 exactly when ERR = 0. -/
def ErrLegal (s : State) : Prop := s.errCode.toNat ≤ 3 ∧ (s.errCode = 0#4 ↔ s.err = false)

/-- What the invariant says of a core with nothing pending. -/
theorem inv_of_idle {s : State} (hp : s.pending = none) (he : ErrLegal s) (hf : s.faults.Nodup) :
    Inv s :=
  ⟨⟨by simp [State.busy, hp], he⟩, by simp [PendingLegal, hp], hf, by simp [FaultsExplain, hp]⟩

/-! ## ERR and ERRCODE -/

/-- An error with one of the codes 1 to 3 leaves ERR and ERRCODE legal (60_exceptions R139). -/
theorem errLegal_raiseError {s : State} (h : ErrLegal s) {code : BitVec 4} (h3 : code.toNat ≤ 3)
    (h0 : code ≠ 0#4) : ErrLegal (s.raiseError code) := by
  obtain ⟨hle, hiff⟩ := h
  cases he : s.err <;> simp_all [ErrLegal]

theorem errorCode_legal (e : DecodeError) : (errorCode e).toNat ≤ 3 ∧ errorCode e ≠ 0#4 := by
  cases e <;> decide

theorem errLegal_clearStatus {s : State} (h : ErrLegal s) (v : Word) : ErrLegal (clearStatus v s) := by
  obtain ⟨hle, hiff⟩ := h
  cases hv : v.getLsbD 2 <;> simp_all [ErrLegal]

/-! ## One lemma per operation -/

theorem keepsStatus_record (s : State) (r : FaultRecord) : KeepsStatus s (s.record r) where
  grow := fun r' h => (mem_record s r r').mpr (.inr h)
  nodup := nodup_record s r

theorem keepsStatus_readWindow (off : Offset) (s : State) : KeepsStatus s (readWindow off s) where
  cmdLast := readWindow_cmdLast off s
  done := readWindow_done off s
  err := readWindow_err off s
  errCode := readWindow_errCode off s
  grow r h := by
    obtain ⟨-, rs, hrs⟩ := readWindow_effect off s
    exact hrs ▸ (mem_recordAll s rs r).mpr (.inr h)
  nodup h := by
    obtain ⟨-, rs, hrs⟩ := readWindow_effect off s
    exact hrs ▸ nodup_recordAll s rs h

theorem inv_busFault {s : State} (hs : Inv s) (w : AccessWidth) (off : Offset) :
    Inv (busFault w off s) :=
  KeepsStatus.inv {} rfl ((keepsStatus_record s (.hostBusFault off w)).inv rfl hs)

theorem inv_clearStatus {s : State} (hs : Inv s) (v : Word) : Inv (clearStatus v s) := by
  obtain ⟨⟨hexcl, herr⟩, hpending, hf, hexplain⟩ := hs
  refine ⟨⟨fun ⟨hb, hd⟩ => hexcl ⟨hb, ?_⟩, errLegal_clearStatus herr v⟩, hpending, hf, hexplain⟩
  exact Bool.and_elim_left hd

/-- A host write that disturbs the running command records why (60_exceptions R140). -/
theorem inv_disturb_record {s : State} (hs : Inv s) (off : Offset) :
    Inv (disturb (s.record (.hostAccessWhileBusy off))) := by
  have k := keepsStatus_record s (.hostAccessWhileBusy off)
  cases hp : s.pending with
  | none => exact KeepsStatus.inv {} (by simp [hp]) (k.inv rfl hs)
  | some p =>
    have ⟨_, hpending, _⟩ := hs
    obtain ⟨-, -, h1, -⟩ := hpending p hp
    exact KeepsStatus.inv_of_pending (t := disturb _) { k with } (d := true) hp (by simp [hp]) h1
      le_rfl (fun _ => ⟨off, (mem_record s _ _).mpr (.inl rfl)⟩) hs

theorem inv_writeElement {s : State} (hs : Inv s) (off : Offset) (n : RegIx) (w : Nat) (v : Word) :
    Inv (writeElement off n w v s) := by
  rcases writeElement_cases off n w v s with ⟨-, e⟩ | ⟨-, s₁, rfl | rfl, e⟩ <;> rw [e]
  · exact KeepsStatus.inv {} rfl hs
  · exact KeepsStatus.inv {} rfl (inv_disturb_record hs off)
  · exact KeepsStatus.inv {} rfl (inv_disturb_record hs off)

theorem inv_writeWindow {s : State} (hs : Inv s) (off : Offset) (v : Word) :
    Inv (writeWindow off v s) := by
  rcases writeWindow_cases off v s with ⟨-, e⟩ | ⟨-, e⟩ | ⟨n, w, -, e⟩ | e <;> rw [e]
  · exact KeepsStatus.inv {} rfl hs
  · exact KeepsStatus.inv {} rfl (inv_clearStatus hs v)
  · exact KeepsStatus.inv {} rfl (inv_writeElement hs off n w v)
  · exact KeepsStatus.inv {} rfl hs

theorem inv_busyReject {s : State} (hs : Inv s) : Inv (busyReject s) := by
  obtain ⟨⟨hexcl, herr⟩, hpending, hf, hexplain⟩ := hs
  exact ⟨⟨hexcl, errLegal_raiseError herr (by decide) (by decide)⟩, hpending, hf, hexplain⟩

/-- A command error comes only while nothing is pending, so it may set DONE. -/
theorem inv_commandError {s : State} (hs : Inv s) (hp : s.pending = none) (e : DecodeError) :
    Inv (commandError e s) := by
  obtain ⟨⟨-, herr⟩, -, hf, -⟩ := hs
  exact inv_of_idle hp (errLegal_raiseError herr (errorCode_legal e).1 (errorCode_legal e).2) hf

theorem inv_complete {s : State} (hs : Inv s) (c : Command) (p : Pending) : Inv (complete c p s) := by
  obtain ⟨⟨-, herr⟩, -, hf, -⟩ := hs
  exact inv_of_idle rfl (by simpa [ErrLegal] using herr) ((complete_faults c p s).symm ▸ hf)

/-- An acceptance of the command CMD_LAST decodes to establishes what the invariant says of it. -/
theorem inv_accept {s : State} (hs : Inv s) (i : Instr) (hw : i.wellFormed = true)
    (hd : decode s.cmdLast = .ok i) : Inv (accept (commandOf i) s) := by
  obtain ⟨⟨-, herr⟩, -, hf, -⟩ := hs
  refine ⟨⟨by simp, by simpa [ErrLegal] using herr⟩, ?_, nodup_accept _ s hf, ?_⟩
  · rintro p hp
    cases (accept_pending _ s).symm.trans hp
    exact ⟨by simpa using hw, by simpa using hd, Nat.le_add_left 1 _, le_rfl⟩
  · rintro p hp
    cases (accept_pending _ s).symm.trans hp
    refine ⟨fun h => (mem_accept_faults _ s _).mpr (.inl ⟨?_, rfl⟩), nofun⟩
    simpa using h

/-- Settles O8: at reset nothing is pending, ERR and ERRCODE are 0 and the fault set is empty. -/
theorem invariantHoldsAtReset : Obligations.InvariantHoldsAtReset :=
  inv_of_idle rfl ⟨by decide, by decide⟩ .nil

/-- Settles O9: the operation of each case of a step keeps the invariant. -/
theorem everyStepKeepsInvariant : Obligations.EveryStepKeepsInvariant := by
  intro s t hs h
  have hpop : Inv s.pop := KeepsStatus.inv {} rfl hs
  have ⟨⟨_, herr⟩, _, hf, hexplain⟩ := hs
  have hissuing (c : Word) (hp : s.pending = none) : Inv (s.issuing c) := inv_of_idle hp herr hf
  cases step_cases s t h with
  | reset => exact KeepsStatus.inv {} rfl invariantHoldsAtReset
  | idle => exact hpop
  | count p hp hr =>
    exact KeepsStatus.inv_of_pending {} hp rfl (by omega) (Nat.sub_le _ 1) (hexplain p hp).2 hs
  | completes p => exact inv_complete hpop _ p
  | busError w off => exact inv_busFault hpop w off
  | reads off => exact (keepsStatus_readWindow off s.pop).inv (readWindow_pending off _) hpop
  | writes off v => exact inv_writeWindow hpop off v
  | rejects => exact inv_busyReject (KeepsStatus.inv {} rfl hpop)
  | illegal c es _ hp e => exact inv_commandError (hissuing c hp) hp e
  | issues c es _ hp i hd _ ht =>
    rcases exec_idle_cases (s := s.issuing c) hp ht with ⟨hw, rfl⟩ | rfl
    · exact inv_accept (hissuing c hp) i hw hd
    · exact inv_commandError (hissuing c hp) hp _

end Sys2Proof.Machine
end

section
/-! PROOFS. What a step may change: registers (O33), CARRY (O30), records and marks (O34). -/

namespace Sys2Proof.Machine

/-- Settles O33: of the cases of a step only RESET, a completion and a window write reach the registers. -/
theorem registersChangeOnlyByHostOrDestination :
    Obligations.RegistersChangeOnlyByHostOrDestination := by
  intro s t n h hne
  have changed (hr : t.regs = s.regs) : False := hne (elem_congr s t hr n)
  cases step_cases s t h with
  | reset es hh => exact .inr (.inr ⟨es, hh⟩)
  | completes p hp hr =>
    refine .inr (.inl ⟨p, hp, hr, ?_, rfl⟩)
    by_contra hn
    exact hne (elem_complete_other _ p s.pop n (destRegs_commandOf p.instr ▸ hn))
  | writes off v es hh ha =>
    obtain ⟨w, hloc⟩ := element_of_elem_writeWindow_ne off v s.pop n hne
    obtain ⟨hw, rfl⟩ := element_of_locationAt off n w hloc ha
    exact .inl ⟨w, v, es, hw, hh⟩
  | reads off => exact (changed (readWindow_regs off s.pop)).elim
  | issues c es _ hp i _ _ ht =>
    rcases exec_idle_cases (s := s.issuing c) hp ht with ⟨-, rfl⟩ | rfl
    · exact (changed (accept_regs _ _)).elim
    · exact (changed rfl).elim
  | _ => exact (changed rfl).elim

/-- Settles O30: of the cases of a step only RESET and a completion reach CARRY, and of the rules only
those of MPADD and MPSUB give one. -/
theorem onlyMpaddAndMpsubChangeCarry : Obligations.OnlyMpaddAndMpsubChangeCarry := by
  refine ⟨getLsbD_statusWord_three, rfl, fun s t h hne => ?_⟩
  cases step_cases s t h with
  | reset es hh => exact .inr ⟨es, hh⟩
  | completes p hp hr =>
    refine .inl ⟨p, hp, hr, rfl, mpadd_or_mpsub_of_carry (l := p.latch) fun hc => ?_⟩
    exact hne (complete_carry_none _ p s.pop hc)
  | writes off v => exact absurd (writeWindow_carry off v s.pop) hne
  | reads off => exact absurd (readWindow_carry off s.pop) hne
  | issues c es _ hp i _ _ ht =>
    rcases exec_idle_cases (s := s.issuing c) hp ht with ⟨-, rfl⟩ | rfl
    · exact absurd (accept_carry _ _) hne
    · exact absurd rfl hne
  | _ => exact absurd rfl hne

/-! ## Records and marks -/

/-- Every fault record and every written mark of s is in t. -/
def RecordsAndMarksGrow (s t : State) : Prop :=
  (∀ r, r ∈ s.faults → r ∈ t.faults) ∧
    ∀ n w, (s.marks n).getLsbD w = true → (t.marks n).getLsbD w = true

theorem grow_of_written_eq {s t : State} (hw : t.written = s.written)
    (hf : ∀ r, r ∈ s.faults → r ∈ t.faults) : RecordsAndMarksGrow s t :=
  ⟨hf, fun n _ h => (marks_congr s t hw n).symm ▸ h⟩

theorem RecordsAndMarksGrow.trans {s t u : State} (h : RecordsAndMarksGrow s t)
    (h' : RecordsAndMarksGrow t u) : RecordsAndMarksGrow s u :=
  ⟨fun r hr => h'.1 r (h.1 r hr), fun n w hm => h'.2 n w (h.2 n w hm)⟩

theorem grow_record (s : State) (r : FaultRecord) : RecordsAndMarksGrow s (s.record r) :=
  grow_of_written_eq rfl fun r' h => (mem_record s r r').mpr (.inr h)

theorem grow_writeWord (s : State) (n : RegIx) (w : Nat) (v : Word) :
    RecordsAndMarksGrow s (s.writeWord n w v) := by
  refine ⟨fun _ h => h, fun m w' h => ?_⟩
  rw [marks_writeWord]
  split
  · next e => subst e; simp [h]
  · exact h

theorem grow_writeElement (off : Offset) (n : RegIx) (w : Nat) (v : Word) (s : State) :
    RecordsAndMarksGrow s (writeElement off n w v s) := by
  have hd := grow_record s (.hostAccessWhileBusy off)
  rcases writeElement_cases off n w v s with ⟨-, e⟩ | ⟨-, s₁, rfl | rfl, e⟩ <;> rw [e]
  · exact grow_writeWord s n w v
  · exact hd
  · exact hd.trans (grow_writeWord _ n w v)

theorem grow_writeWindow (off : Offset) (v : Word) (s : State) :
    RecordsAndMarksGrow s (writeWindow off v s) := by
  rcases writeWindow_cases off v s with ⟨-, e⟩ | ⟨-, e⟩ | ⟨n, w, -, e⟩ | e <;> rw [e]
  case inr.inr.inl => exact grow_writeElement off n w v s
  all_goals exact grow_of_written_eq rfl fun _ h => h

/-- A completion marks its destination's words and leaves the others' marks. -/
theorem grow_complete (c : Command) (p : Pending) (s : State) :
    RecordsAndMarksGrow s (complete c p s) := by
  refine ⟨fun _ h => (complete_faults c p s).symm ▸ h, fun n w h => ?_⟩
  by_cases hn : n ∈ destRegs c.dst
  · rw [marks_complete c p s n hn, BitVec.getLsbD_allOnes]
    exact decide_eq_true (BitVec.lt_of_getLsbD h)
  · rwa [marks_complete_other c p s n hn]

theorem grow_accept (c : Command) (s : State) : RecordsAndMarksGrow s (accept c s) :=
  grow_of_written_eq (accept_written c s) fun r h => (mem_accept_faults c s r).mpr (.inr (.inr h))

/-- Settles O34: the operation of each case of a step but RESET only adds records and marks. -/
theorem faultsAndMarksOnlyGrow : Obligations.FaultsAndMarksOnlyGrow := by
  intro s t h
  cases step_cases s t h with
  | reset es hh => exact .inr ⟨es, hh⟩
  | completes p => exact .inl (grow_complete _ p s.pop)
  | busError w off => exact .inl (grow_record s.pop (.hostBusFault off w))
  | reads off =>
    exact .inl (grow_of_written_eq (readWindow_written off s.pop) (keepsStatus_readWindow off s.pop).grow)
  | writes off v => exact .inl (grow_writeWindow off v s.pop)
  | issues c es _ hp i _ _ ht =>
    rcases exec_idle_cases (s := s.issuing c) hp ht with ⟨-, rfl⟩ | rfl
    · exact .inl (grow_accept _ (s.issuing c))
    · exact .inl (grow_of_written_eq rfl fun _ h => h)
  | _ => exact .inl (grow_of_written_eq rfl fun _ h => h)

end Sys2Proof.Machine
end

section
/-! PROOFS. What single host accesses do: the status and control registers (O21 to O23), the ROMs (O24),
an element word while BUSY (O28); and RESET (O7, O29). -/

namespace Sys2Proof.Machine

/-! ## A step on an aligned access -/

theorem step_read (s : State) (off : Offset) (es : List HostEvent) (h : NextReads s off es)
    (ha : off.toNat % 4 = 0) : step s = .next (readWindow off { s with host := es }) := by
  rw [step_access s _ es h]
  simp [hostAccess, alignedWord, ha]

theorem step_write (s : State) (off : Offset) (v : Word) (es : List HostEvent)
    (h : NextWrites s off v es) (ha : off.toNat % 4 = 0) (hc : off ≠ cmdOffset) :
    step s = .next (writeWindow off v { s with host := es }) := by
  rw [step_access s _ es h]
  simp [hostAccess, alignedWord, ha, hc]

/-- A read of anything but an element word answers what stands there, and has no effect (R42, R43). -/
theorem step_read_wordAt (s : State) (off : Offset) (es : List HostEvent) (l : Location)
    (h : NextReads s off es) (ha : off.toNat % 4 = 0) (hl : locationAt off = l)
    (hne : ∀ n w, l ≠ .element n w) : step s = .next (afterBus s es (.data (s.wordAt l))) := by
  rw [step_read s off es h ha, readWindow, hl]
  cases l with
  | element n w => exact absurd rfl (hne n w)
  | _ => rfl

/-! ## ID, CTRL, STATUS and CMD -/

/-- Settles O21: STATUS stands at 0x008, and its write is clearStatus. -/
theorem statusWriteOneClears : Obligations.StatusWriteOneClears := by
  intro s v es h
  rw [step_write s _ v es h (by decide) (by decide)]
  have hw : writeWindow 0x008#13 v { s with host := es } =
      respondAccepted (clearStatus v { s with host := es }) := rfl
  have keptUnless (a b : Bool) : (a && !b) = if b then false else a := by cases b <;> simp
  simp only [hw, clearStatus, respondAccepted, afterBus, keptUnless]

theorem ctrlWord_eq (s : State) : s.ctrlWord = if s.ie then 1#32 else 0#32 := by
  rw [State.ctrlWord]
  cases s.ie <;> rfl

/-- Settles O22: CTRL stands at 0x004, and its word is IE. -/
theorem ctrlKeepsBitZero : Obligations.CtrlKeepsBitZero := by
  refine fun s es => ⟨fun v h => ?_, fun h => ?_⟩
  · rw [step_write s _ v es h (by decide) (by decide)]
    rfl
  · rw [step_read_wordAt s _ es .ctrl h (by decide) rfl nofun, ← ctrlWord_eq]
    rfl

/-- Settles O23: the reads answer the words of their locations; STATUS by its bits. -/
theorem idCmdAndStatusReads : Obligations.IdCmdAndStatusReads := by
  refine fun s es => ⟨fun h => ?_, fun h => ?_, fun h => ⟨s.statusWord, ?_, ?_⟩⟩
  · exact step_read_wordAt s _ es .id h (by decide) rfl nofun
  · exact step_read_wordAt s _ es .cmd h (by decide) rfl nofun
  · exact step_read_wordAt s _ es .status h (by decide) rfl nofun
  · refine ⟨getLsbD_statusWord_zero s, getLsbD_statusWord_one s, getLsbD_statusWord_two s,
      getLsbD_statusWord_three s, ?_, ?_⟩
    · apply BitVec.eq_of_getLsbD_eq
      intro i hi
      simp [hi, getLsbD_statusWord_add_four, -BitVec.getLsbD_eq_getElem]
    · apply BitVec.eq_of_getLsbD_eq
      intro i hi
      rw [BitVec.getLsbD_extractLsb', show 8 + i = 4 + (4 + i) by omega, getLsbD_statusWord_add_four,
        BitVec.getLsbD_of_ge s.errCode (4 + i) (by omega)]
      simp

/-! ## P_ROM and R2_ROM -/

/-- Word w of the element of value x, as a number. -/
theorem wordOf_ofNat (x w : Nat) (h : w < 14) :
    wordOf (BitVec.ofNat 448 x) w = BitVec.ofNat 32 (x / 2 ^ (32 * w)) := by
  apply BitVec.eq_of_getLsbD_eq
  intro i hi
  rw [getLsbD_wordOf, BitVec.getLsbD_ofNat, BitVec.getLsbD_ofNat, Nat.testBit_div_two_pow]
  have hlt : 32 * w + i < 448 := by omega
  simp [hi, hlt, Nat.add_comm i]

theorem toNat_offset (o : Nat) (h : o < 8192) : (BitVec.ofNat 13 o).toNat = o :=
  Nat.mod_eq_of_lt h

theorem locationAt_pRom (w : Nat) (h : w < 14) :
    locationAt (BitVec.ofNat 13 (0x100 + 4 * w)) = .pRom w := by
  unfold locationAt
  simp only [toNat_offset (0x100 + 4 * w) (by omega)]
  rw [if_neg (by omega), if_neg (by omega), if_neg (by omega), if_neg (by omega), if_pos (by omega)]
  exact congrArg Location.pRom (by omega)

theorem locationAt_r2Rom (w : Nat) (h : w < 14) :
    locationAt (BitVec.ofNat 13 (0x140 + 4 * w)) = .r2Rom w := by
  unfold locationAt
  simp only [toNat_offset (0x140 + 4 * w) (by omega)]
  rw [if_neg (by omega), if_neg (by omega), if_neg (by omega), if_neg (by omega), if_neg (by omega),
    if_pos (by omega)]
  exact congrArg Location.r2Rom (by omega)

/-- Settles O24: the ROMs stand at their offsets and hold the words of p and of R² mod p. -/
theorem romsReadTheirConstants : Obligations.RomsReadTheirConstants := by
  refine fun s es w hw => ⟨fun h => ?_, fun h => ?_⟩
  · rw [step_read_wordAt s _ es (.pRom w) h (by rw [toNat_offset] <;> omega) (locationAt_pRom w hw) nofun,
      State.wordAt, pRomWord, wordOf_ofNat _ w hw, primeP_eq]
  · rw [step_read_wordAt s _ es (.r2Rom w) h (by rw [toNat_offset] <;> omega) (locationAt_r2Rom w hw) nofun,
      State.wordAt, r2RomWord, wordOf_ofNat _ w hw, montR2_eq]

/-! ## An element word while BUSY (70_reset_and_hazards R160) -/

theorem readWindow_busy (off : Offset) (n : RegIx) (w : Nat) (s : State) (hb : s.busy = true)
    (hl : locationAt off = .element n w) :
    readWindow off s = respondFree (s.recordAll (s.readFaults off n w)) := by
  rcases readElement_cases off n w s with ⟨hb', -⟩ | ⟨-, e⟩
  · exact absurd hb (by simp [hb'])
  · rw [readWindow, hl, ← e]

theorem mem_writeElement_busy (off : Offset) (n : RegIx) (w : Nat) (v : Word) (s : State)
    (hb : s.busy = true) (r : FaultRecord) :
    r ∈ (writeElement off n w v s).faults ↔ r = .hostAccessWhileBusy off ∨ r ∈ s.faults := by
  rcases writeElement_cases off n w v s with ⟨hb', -⟩ | ⟨-, s₁, rfl | rfl, e⟩
  · exact absurd hb (by simp [hb'])
  · rw [e]; exact mem_record s _ r
  · rw [e]; exact mem_record s _ r

theorem wordOf_elem_writeWord (s : State) (n m : RegIx) (w w' : Nat) (v : Word) (hw' : w' < 14) :
    wordOf ((s.writeWord n w v).elem m) w' = if m = n ∧ w' = w then v else wordOf (s.elem m) w' := by
  rw [elem_writeWord]
  by_cases hm : m = n
  · by_cases hww : w' = w
    · rw [if_pos hm, if_pos ⟨hm, hww⟩, hww, wordOf_withWord_same _ _ _ (hww ▸ hw')]
    · rw [if_pos hm, if_neg fun h => hww h.2, wordOf_withWord_other _ _ _ _ hw' hww, hm]
  · rw [if_neg hm, if_neg fun h => hm h.1]

theorem getLsbD_marks_writeWord (s : State) (n m : RegIx) (w w' : Nat) (v : Word) (hw' : w' < 14) :
    ((s.writeWord n w v).marks m).getLsbD w' =
      (decide (m = n ∧ w' = w) || (s.marks m).getLsbD w') := by
  rw [marks_writeWord]
  have hbit : (1#14 <<< w).getLsbD w' = decide (w' = w) := by
    rw [BitVec.getLsbD_shiftLeft, BitVec.getLsbD_one, Bool.eq_iff_iff]
    simp; omega
  by_cases hm : m = n
  · rw [if_pos hm, BitVec.getLsbD_or, hbit, Bool.or_comm, hm]
    simp
  · simp [hm]

/-- From s to t, word w' of Fm and its mark are as they were, or it is word w of Fn and holds v, marked. -/
def WordKeptOrStored (s t : State) (n : RegIx) (w : Nat) (v : Word) (m : RegIx) (w' : Nat) : Prop :=
  (wordOf (t.elem m) w' = wordOf (s.elem m) w' ∧ (t.marks m).getLsbD w' = (s.marks m).getLsbD w') ∨
    (m = n ∧ w' = w ∧ wordOf (t.elem m) w' = v ∧ (t.marks m).getLsbD w' = true)

theorem wordKeptOrStored_writeWord (s : State) (n m : RegIx) (w w' : Nat) (v : Word) (hw' : w' < 14) :
    WordKeptOrStored s (s.writeWord n w v) n w v m w' := by
  rw [WordKeptOrStored, wordOf_elem_writeWord s n m w w' v hw', getLsbD_marks_writeWord s n m w w' v hw']
  by_cases h : m = n ∧ w' = w
  · exact .inr ⟨h.1, h.2, if_pos h, by simp [h]⟩
  · exact .inl ⟨if_neg h, by rw [decide_eq_false h, Bool.false_or]⟩

theorem wordKeptOrStored_writeElement (off : Offset) (s : State) (n m : RegIx) (w w' : Nat) (v : Word)
    (hw' : w' < 14) : WordKeptOrStored s (writeElement off n w v s) n w v m w' := by
  rcases writeElement_cases off n w v s with ⟨-, e⟩ | ⟨-, s₁, rfl | rfl, e⟩ <;> rw [e]
  · exact wordKeptOrStored_writeWord s n m w w' v hw'
  · exact .inl ⟨rfl, rfl⟩
  · exact wordKeptOrStored_writeWord (disturb _) n m w w' v hw'

theorem busy_disturb (s : State) : (disturb s).busy = s.busy := by
  simp [State.busy]

/-- Settles O28: the read's records and the write's effect, through the laws of readElement and
writeElement while BUSY. -/
theorem elementAccessWhileBusyIsRecorded : Obligations.ElementAccessWhileBusyIsRecorded := by
  intro s es off n w hw hb hoff
  obtain ⟨haligned, hcmd⟩ : alignedWord .bits32 off = true ∧ off ≠ cmdOffset :=
    hoff ▸ element_offset_aligned n w hw
  have ha : off.toNat % 4 = 0 := by simpa [alignedWord] using haligned
  have hl : locationAt off = .element n w := hoff ▸ locationAt_element n w hw
  refine ⟨fun h => ?_, fun v h => ?_⟩
  · have hread := readWindow_busy off n w { s with host := es } hb hl
    refine ⟨_, Config.freeWord s.draws, step_read s off es h ha, fun r => ?_, ?_⟩
    · rw [hread, respondFree_faults, mem_recordAll, mem_readFaults, or_assoc]
      exact or_congr_left (and_iff_right hb)
    · rw [hread]
      simp [respondFree, afterBus]
  · have hwrite : writeWindow off v { s with host := es } =
        respondAccepted (writeElement off n w v { s with host := es }) := by rw [writeWindow, hl]
    refine ⟨_, step_write s off v es h ha hcmd, ?_⟩
    rw [hwrite]
    refine ⟨mem_writeElement_busy off n w v _ hb,
      fun m w' hw' => wordKeptOrStored_writeElement off _ n m w w' v hw', ?_, ?_, ?_, ?_, ?_⟩
    · exact writeElement_keeps (fun u => u.pending.map fun p => (p.instr, p.latch, p.remaining)) off n w v _
        (fun u => by simp [Function.comp_def]) fun _ _ _ _ _ => rfl
    · exact writeElement_keeps State.statusWord off n w v _
        (fun u => statusWord_congr (busy_disturb u) rfl rfl rfl rfl) fun _ _ _ _ _ => rfl
    · exact writeElement_keeps State.ie off n w v _ (fun _ => rfl) fun _ _ _ _ _ => rfl
    · exact writeElement_keeps State.cmdLast off n w v _ (fun _ => rfl) fun _ _ _ _ _ => rfl
    · exact writeElement_keeps State.host off n w v _ (fun _ => rfl) fun _ _ _ _ _ => rfl

/-! ## RESET -/

theorem marks_reset (n : RegIx) : State.reset.marks n = 0 :=
  Vector.getElem_replicate n.isLt

theorem statusWord_reset : State.reset.statusWord = 0 := by decide

/-- Settles O7: the fields of State.reset. -/
theorem resetIsIdle : Obligations.ResetIsIdle :=
  ⟨statusWord_reset, by decide, rfl, rfl, rfl, rfl, marks_reset⟩

/-- Settles O29: RESET gives the core the fields of State.reset. -/
theorem resetAbandonsPendingCommand : Obligations.ResetAbandonsPendingCommand :=
  fun s es h => ⟨_, step_reset s es h, rfl, rfl, statusWord_reset, rfl, rfl, rfl, rfl, marks_reset, rfl⟩

end Sys2Proof.Machine
end

section
/-! PROOFS. The register window (20_memory): where it stands (O20), reserved and read-only locations (O25),
element words while idle (O26), and accesses the core does not take (O27). -/

namespace Sys2Proof.Machine

/-! ## The bus address of the window (R40) -/

theorem coreBase_mod : Config.coreBase % 0x2000 = 0 := by
  unfold Config.coreBase
  omega

/-- Settles O20: CORE_BASE is a block number times 0x2000, and windowOffset takes the block's addresses. -/
theorem windowIsEightKilobytesAtCoreBase : Obligations.WindowIsEightKilobytesAtCoreBase := by
  refine ⟨coreBase_mod, fun off hoff => ?_, fun addr hout => ?_⟩
  · rw [windowOffset, if_pos (by omega), Nat.add_sub_cancel_left]
  · rw [windowOffset, if_neg (by omega)]

/-! ## Reserved and read-only locations (R43) -/

theorem locationAt_reserved (off : Offset)
    (h : (0x010 ≤ off.toNat ∧ off.toNat < 0x100) ∨ (0x138 ≤ off.toNat ∧ off.toNat < 0x140) ∨
      (0x178 ≤ off.toNat ∧ off.toNat < 0x1000) ∨ 0x1E00 ≤ off.toNat) : locationAt off = .reserved := by
  unfold locationAt
  rw [if_neg (by omega), if_neg (by omega), if_neg (by omega), if_neg (by omega), if_neg (by omega),
    if_neg (by omega), if_neg (by omega)]

/-- ID, the ROMs and the reserved offsets: a write finds nothing there to change. -/
theorem writeWindow_readOnly (off : Offset) (v : Word) (s : State)
    (h : off.toNat = 0 ∨ (0x010 ≤ off.toNat ∧ off.toNat < 0x1000) ∨ 0x1E00 ≤ off.toNat) :
    writeWindow off v s = respondAccepted s := by
  unfold writeWindow locationAt
  by_cases h0 : off.toNat = 0
  · rw [if_pos h0]
  · rw [if_neg h0, if_neg (by omega), if_neg (by omega), if_neg (by omega)]
    by_cases hp : 0x100 ≤ off.toNat ∧ off.toNat < 0x138
    · rw [if_pos hp]
    · rw [if_neg hp]
      by_cases hr : 0x140 ≤ off.toNat ∧ off.toNat < 0x178
      · rw [if_pos hr]
      · rw [if_neg hr, if_neg (by omega)]

/-- A write of STATUS acts by the bits 1 and 2 of its word alone (10_state R30). -/
theorem clearStatus_congr (v v' : Word) (s : State) (h1 : v.getLsbD 1 = v'.getLsbD 1)
    (h2 : v.getLsbD 2 = v'.getLsbD 2) : clearStatus v s = clearStatus v' s := by
  rw [clearStatus, clearStatus, h1, h2]

theorem clearStatus_zero (s : State) : clearStatus 0#32 s = s := by
  simp [clearStatus]

theorem step_write_status (s : State) (v : Word) (es : List HostEvent) (h : NextWrites s 0x008#13 v es) :
    step s = .next (respondAccepted (clearStatus v { s with host := es })) :=
  step_write s _ v es h (by decide) (by decide)

/-- Settles O25: the locations at these offsets, and a write of STATUS by its bits 1 and 2. -/
theorem reservedAndReadOnlyLocations : Obligations.ReservedAndReadOnlyLocations := by
  intro s es off ha
  have status (h8 : off.toNat = 8) : off = 0x008#13 := BitVec.eq_of_toNat_eq h8
  refine ⟨fun hres h => ?_, fun v hoff h => ?_, fun v h8 h => ?_⟩
  · exact step_read_wordAt s off es .reserved h ha (locationAt_reserved off hres) nofun
  · rcases hoff with hro | ⟨h8, h1, h2⟩
    · have hcmd : off ≠ cmdOffset := by rintro rfl; simp [cmdOffset] at hro
      rw [step_write s off v es h ha hcmd, writeWindow_readOnly off v _ hro]
      rfl
    · obtain rfl := status h8
      rw [step_write_status s v es h, clearStatus_congr v 0#32 _ h1 h2, clearStatus_zero]
      rfl
  · obtain rfl := status h8
    rw [step_write_status s v es h, step_write_status { s with host := _ } (v &&& 6#32) es rfl,
      clearStatus_congr (v &&& 6#32) v _ (by simp) (by simp)]

/-! ## Element words while idle (R42, 10_state R23) -/

theorem writeWindow_idle (off : Offset) (n : RegIx) (w : Nat) (v : Word) (s : State) (hb : s.busy = false)
    (hl : locationAt off = .element n w) :
    writeWindow off v s = respondAccepted (s.writeWord n w v) := by
  rcases writeElement_cases off n w v s with ⟨-, e⟩ | ⟨hb', -⟩
  · rw [writeWindow, hl, ← e]
  · exact absurd hb' (by simp [hb])

theorem readWindow_idle_written (off : Offset) (n : RegIx) (w : Nat) (s : State) (hb : s.busy = false)
    (hl : locationAt off = .element n w) (hm : (s.marks n).getLsbD w = true) :
    readWindow off s = respondData (wordOf (s.elem n) w) s := by
  rcases readElement_cases off n w s with ⟨-, -, e⟩ | ⟨h, -⟩
  · rw [readWindow, hl, ← e]
  · exact absurd h (by simp [hb, hm])

theorem readWindow_unwritten (off : Offset) (n : RegIx) (w : Nat) (s : State)
    (hl : locationAt off = .element n w) (hm : (s.marks n).getLsbD w = false) :
    readWindow off s = respondFree (s.recordAll (s.readFaults off n w)) := by
  rcases readElement_cases off n w s with ⟨-, h, -⟩ | ⟨-, e⟩
  · exact absurd h (by simp [hm])
  · rw [readWindow, hl, ← e]

/-- Settles O26: while idle a write is writeWord; a read answers the word, or records it unwritten. -/
theorem hostReadsAndWritesElementWords : Obligations.HostReadsAndWritesElementWords := by
  intro s es n w hw hb
  obtain ⟨haligned, hcmd⟩ := element_offset_aligned n w hw
  have ha : (BitVec.ofNat 13 (0x1000 + 56 * n.toNat + 4 * w)).toNat % 4 = 0 := by
    simpa [alignedWord] using haligned
  have hl := locationAt_element n w hw
  refine ⟨fun v h => ?_, fun h => ⟨fun hm => ?_, fun hm => ?_⟩⟩
  · refine ⟨respondAccepted (State.writeWord { s with host := es } n w v), ?_,
      fun m w' hw' => wordOf_elem_writeWord _ n m w w' v hw',
      fun m w' hw' => getLsbD_marks_writeWord _ n m w w' v hw', rfl⟩
    rw [step_write s _ v es h ha hcmd, writeWindow_idle _ n w v { s with host := es } hb hl]
  · rw [step_read s _ es h ha, readWindow_idle_written _ n w { s with host := es } hb hl hm]
    rfl
  · have hread := readWindow_unwritten _ n w { s with host := es } hl hm
    refine ⟨_, Config.freeWord s.draws, step_read s _ es h ha, fun r => ?_, ?_⟩
    · rw [hread, respondFree_faults, mem_recordAll, mem_readFaults]
      have idle : State.busy { s with host := es } ≠ true := ne_true_of_eq_false hb
      exact or_congr_left ((or_iff_right fun h' => idle h'.1).trans (and_iff_right hm))
    · rw [hread]
      simp [respondFree, afterBus]

/-! ## Accesses of another width or at a misaligned offset (R46) -/

theorem step_busFault (s : State) (es : List HostEvent) (a : HostAccess) (width : AccessWidth)
    (off : Offset) (ha : a = .read width off ∨ ∃ v, a = .write width off v)
    (hbad : alignedWord width off = false) (h : s.host = .access a :: es) :
    step s = .next (busFault width off { s with host := es }) := by
  rw [step_access s a es h]
  rcases ha with rfl | ⟨v, rfl⟩ <;> simp [hostAccess, hbad]

/-- Settles O27: the access is a busFault, which records itself and answers a bus error. -/
theorem narrowOrMisalignedAccessIsBusError : Obligations.NarrowOrMisalignedAccessIsBusError := by
  intro s es a width off ha hbad h
  have hal : alignedWord width off = false := by
    rcases hbad with hw | hoff
    · simp [alignedWord, hw]
    · simp [alignedWord, hoff]
  exact ⟨_, step_busFault s es a width off ha hal h, mem_record _ _, rfl⟩

end Sys2Proof.Machine
end

section
/-! PROOFS. The command word (30_encoding): decoding of an encoded command (O1), of any word (O2 to O4), and
the assembler (O6). -/

namespace Sys2Proof

/-! ## The row of a command and the command of a row -/

/-- The opcode of every command has a row, which rebuilds the command and allows its fields exactly if the
command is well formed. -/
theorem fieldsFit (i : Instr) : Laws.FieldsFit.Statement i :=
  match i with
  | .nop => Laws.FieldsFit.nop
  | .mpadd sz rd ra rb => Laws.FieldsFit.mpadd sz rd ra rb
  | .mpsub sz rd ra rb => Laws.FieldsFit.mpsub sz rd ra rb
  | .mpshl1 sz rd ra => Laws.FieldsFit.mpshl1 sz rd ra
  | .mpshr1 sz rd ra => Laws.FieldsFit.mpshr1 sz rd ra
  | .mpshlk sz rd ra k => Laws.FieldsFit.mpshlk sz rd ra k
  | .copy sz rd ra => Laws.FieldsFit.copy sz rd ra
  | .zero sz rd => Laws.FieldsFit.zero sz rd
  | .fpmul rd ra rb => Laws.FieldsFit.fpmul rd ra rb
  | .fpsqr rd ra => Laws.FieldsFit.fpsqr rd ra
  | .fpinv rd ra => Laws.FieldsFit.fpinv rd ra
  | .fpadd rd ra rb => Laws.FieldsFit.fpadd rd ra rb
  | .fpsub rd ra rb => Laws.FieldsFit.fpsub rd ra rb
  | .fpneg rd ra => Laws.FieldsFit.fpneg rd ra
  | .fpdiv2 rd ra => Laws.FieldsFit.fpdiv2 rd ra
  | .fpcorr rd ra => Laws.FieldsFit.fpcorr rd ra
  | .tomont rd ra => Laws.FieldsFit.tomont rd ra
  | .frommont rd ra => Laws.FieldsFit.frommont rd ra
  | .fp2add rd ra rb => Laws.FieldsFit.fp2add rd ra rb
  | .fp2sub rd ra rb => Laws.FieldsFit.fp2sub rd ra rb
  | .fp2neg rd ra => Laws.FieldsFit.fp2neg rd ra
  | .fp2div2 rd ra => Laws.FieldsFit.fp2div2 rd ra
  | .fp2corr rd ra => Laws.FieldsFit.fp2corr rd ra
  | .fp2tomont rd ra => Laws.FieldsFit.fp2tomont rd ra
  | .fp2frommont rd ra => Laws.FieldsFit.fp2frommont rd ra
  | .fp2mul rd ra rb => Laws.FieldsFit.fp2mul rd ra rb
  | .fp2sqr rd ra => Laws.FieldsFit.fp2sqr rd ra
  | .fp2inv rd ra => Laws.FieldsFit.fp2inv rd ra

/-- The fields a row uses, with 0 in the register, K and S fields it does not use and in RSV (30_encoding
R65). -/
def OpRow.usedFields (r : OpRow) (f : Fields) : Fields :=
  { op := r.op
    rd := if r.rd = .unused then 0#6 else f.rd
    ra := if r.ra = .unused then 0#6 else f.ra
    rb := if r.rb = .unused then 0#6 else f.rb
    k := if r.usesK then f.k else 0#5
    s := if r.usesS then f.s else 0#1
    rsv := 0#2 }

/-- The command a row builds is written with the fields the row uses. -/
theorem fieldsOf_build {r : OpRow} (hr : r ∈ opcodeRows) (f : Fields) :
    fieldsOf (r.build f) = r.usedFields f := by
  simp only [opcodeRows, opcodeRowsMp, opcodeRowsFp, opcodeRowsFp2, List.cons_append, List.nil_append] at hr
  fin_cases hr <;> simp [fieldsOf, OpRow.usedFields, bitOfSize_sizeOfBit]

/-- A field the row does not use is 0 where the row allows the fields. -/
theorem FieldUse.eq_of_allows {u : FieldUse} {s : BitVec 1} {n : RegIx} (h : u.allows s n = true) :
    (if u = .unused then 0#6 else n) = n := by
  cases u with
  | unused => exact (beq_iff_eq.mp h).symm
  | _ => rfl

/-- What it means that a row allows the fields (R70), field by field. -/
theorem OpRow.allows_iff (r : OpRow) (f : Fields) :
    r.allows f = true ↔ f.rsv = 0#2 ∧ r.rd.allows f.s f.rd = true ∧ r.ra.allows f.s f.ra = true ∧
      r.rb.allows f.s f.rb = true ∧ (if r.usesK then f.k ≠ 0#5 else f.k = 0#5) ∧
      (r.usesS = true ∨ f.s = 0#1) := by
  cases hk : r.usesK <;> simp [OpRow.allows, hk, and_assoc]

theorem OpRow.usedFields_of_allows {r : OpRow} {f : Fields} (hop : r.op = f.op)
    (h : r.allows f = true) : r.usedFields f = f := by
  obtain ⟨hrsv, hrd, hra, hrb, hk, hs⟩ := (r.allows_iff f).mp h
  have ek : (if r.usesK then f.k else 0#5) = f.k := by
    split at hk
    · next hu => rw [if_pos hu]
    · next hu => rw [if_neg hu, hk]
  have es : (if r.usesS then f.s else 0#1) = f.s := by
    rcases hs with hu | hs
    · rw [if_pos hu]
    · rw [hs, ite_self]
  rw [usedFields, hop, FieldUse.eq_of_allows hrd, FieldUse.eq_of_allows hra,
    FieldUse.eq_of_allows hrb, ek, es, ← hrsv]

theorem opcodeRow_mem {op : BitVec 6} {r : OpRow} (h : opcodeRow op = some r) : r ∈ opcodeRows :=
  List.mem_of_find?_eq_some h

theorem opcodeRow_op {op : BitVec 6} {r : OpRow} (h : opcodeRow op = some r) : r.op = op :=
  beq_iff_eq.mp (List.find?_some (p := fun r : OpRow => r.op == op) h)

/-- The opcode map has no row for the opcodes R66 lists, and one for each other. -/
theorem opcodeRow_eq_none_iff (op : BitVec 6) :
    opcodeRow op = none ↔ Machine.opcodeListedIllegal op.toNat := by
  unfold Machine.opcodeListedIllegal
  revert op
  decide

/-! ## Decoding -/

theorem decode_encode (i : Instr) :
    decode (encode i) = if i.wellFormed then .ok i else .error .illegalField := by
  obtain ⟨r, hrow, hbuild, hallows⟩ := fieldsFit i
  rw [encode, decode_wordOfFields, decodeFields_eq _ r hrow, hbuild, hallows]

/-- Settles O1: the row of the command's opcode allows the fields it is written with and rebuilds it. -/
theorem decodeOfEncode : Obligations.DecodeOfEncode := by
  intro i hw
  rw [decode_encode, if_pos hw]

/-- What the decoder accepts is the build of the row of the opcode, which allows the fields. -/
theorem decodeFields_ok {f : Fields} {i : Instr} (h : decodeFields f = .ok i) :
    ∃ r, opcodeRow f.op = some r ∧ r.allows f = true ∧ r.build f = i := by
  cases hrow : opcodeRow f.op with
  | none => rw [decodeFields_illegal f hrow] at h; cases h
  | some r =>
    rw [decodeFields_eq f r hrow] at h
    split at h
    · next ha => exact ⟨r, rfl, ha, Except.ok.inj h⟩
    · cases h

/-- Accepted fields are the ones the command is written with, and the command is well formed. -/
theorem fieldsOf_of_decodeFields {f : Fields} {i : Instr} (h : decodeFields f = .ok i) :
    fieldsOf i = f ∧ i.wellFormed = true := by
  obtain ⟨r, hrow, ha, rfl⟩ := decodeFields_ok h
  have hf : fieldsOf (r.build f) = f := by
    rw [fieldsOf_build (opcodeRow_mem hrow), OpRow.usedFields_of_allows (opcodeRow_op hrow) ha]
  obtain ⟨r', hrow', -, hw⟩ := fieldsFit (r.build f)
  rw [hf] at hrow' hw
  cases hrow.symm.trans hrow'
  exact ⟨hf, hw.symm.trans ha⟩

/-- Settles O2: the command of an accepted word is written with the word's own fields. -/
theorem acceptedWordHasOneReading : Obligations.AcceptedWordHasOneReading := by
  intro c i h
  obtain ⟨hf, hw⟩ := fieldsOf_of_decodeFields h
  exact ⟨by rw [encode, hf, wordOfFields_fieldsOfWord], hw⟩

theorem decodeFields_illegalOpcode_iff (f : Fields) :
    decodeFields f = .error .illegalOpcode ↔ opcodeRow f.op = none := by
  refine ⟨fun h => ?_, decodeFields_illegal f⟩
  cases hrow : opcodeRow f.op with
  | none => rfl
  | some r =>
    rw [decodeFields_eq f r hrow] at h
    split at h <;> cases h

/-- Settles O3: code 1 is raised where the opcode has no row. -/
theorem illegalOpcodesAreTheListedOnes : Obligations.IllegalOpcodesAreTheListedOnes :=
  fun c => (decodeFields_illegalOpcode_iff (fieldsOfWord c)).trans (opcodeRow_eq_none_iff _)

/-- Settles O4: a word with a legal opcode that decodes to no command is refused with code 2. -/
theorem illegalFieldMeansNoCommand : Obligations.IllegalFieldMeansNoCommand := by
  intro c hlegal
  constructor
  · rintro h i hw rfl
    cases (decodeOfEncode i hw).symm.trans h
  · intro hno
    match hd : decode c with
    | .ok i =>
      obtain ⟨he, hw⟩ := acceptedWordHasOneReading c i hd
      exact absurd he (hno i hw)
    | .error .illegalOpcode => exact absurd ((illegalOpcodesAreTheListedOnes c).mp hd) hlegal
    | .error .illegalField => rfl

/-- Settles O5: the nine fixed words, decoded. -/
theorem exampleWordsDecode : Obligations.ExampleWordsDecode := by
  unfold Obligations.ExampleWordsDecode
  decide

end Sys2Proof

namespace Sys2Proof.Machine

/-! ## The assembler (30_encoding R68) -/

/-- The mnemonic of an opcode of the map names this opcode. -/
theorem opcodeNamed_nameOf (op : BitVec 6) (h : opcodeRow op ≠ none) :
    opcodeNamed (nameOf op) = some op := by
  revert op
  decide +kernel

theorem takeSuffix_sizeOfBit {uses : Bool} {s : BitVec 1} (h : uses = true ∨ s = 0#1) :
    takeSuffix uses (if uses then some (sizeOfBit s) else none) = some s := by
  cases uses with
  | true => exact congrArg some (bitOfSize_sizeOfBit s)
  | false => exact congrArg some (h.resolve_left nofun).symm

theorem takeReg_showReg {u : FieldUse} {s : BitVec 1} {n : RegIx} (h : u.allows s n = true)
    (rest : List AsmOperand) : takeReg u (showReg u n ++ rest) = some (n, rest) := by
  have named : (if n.toNat < 64 then some (BitVec.ofNat 6 n.toNat, rest) else none) = some (n, rest) := by
    rw [if_pos n.isLt, BitVec.ofNat_toNat, BitVec.setWidth_eq]
  cases u with
  | unused => exact congrArg (fun n => some (n, rest)) (beq_iff_eq.mp h).symm
  | _ => exact named

theorem takeImm_toNat {uses : Bool} {k : BitVec 5} (h : if uses then k ≠ 0#5 else k = 0#5) :
    takeImm uses (if uses then [.imm k.toNat] else []) = some (k, []) := by
  cases uses with
  | true =>
    have hk : k ≠ 0#5 := h
    have hrange : 1 ≤ k.toNat ∧ k.toNat < 32 := ⟨by bv_omega, k.isLt⟩
    simp [takeImm, hrange]
  | false => simpa [takeImm] using h.symm

/-- Settles O6: each part of a line reads back as the field it shows, and the fields decode to the command. -/
theorem assembleOfDisassemble : Obligations.AssembleOfDisassemble := by
  intro i hw
  obtain ⟨r, hrow, hbuild, hallows⟩ := fieldsFit i
  obtain ⟨hrsv, hrd, hra, hrb, hk, hs⟩ := (r.allows_iff _).mp (hallows.trans hw)
  have hdec : decodeFields (fieldsOf i) = .ok i := by
    rw [decodeFields_eq _ r hrow, hallows, if_pos hw, hbuild]
  have hfields : (⟨(fieldsOf i).op, (fieldsOf i).rd, (fieldsOf i).ra, (fieldsOf i).rb, (fieldsOf i).k,
    (fieldsOf i).s, 0⟩ : Fields) = fieldsOf i := congrArg (Fields.mk _ _ _ _ _ _) hrsv.symm
  have hname := opcodeNamed_nameOf (fieldsOf i).op (hrow ▸ Option.some_ne_none r)
  simp only [disassemble, hrow, assemble, hname, Option.bind_eq_bind, Option.bind_some,
    takeSuffix_sizeOfBit hs, takeReg_showReg hrd, takeReg_showReg hra, takeReg_showReg hrb,
    takeImm_toNat hk, hfields, hdec, if_true]

end Sys2Proof.Machine
end

section
/-! PROOFS. The life of a command (30_encoding R71 to R74): issue (O11), acceptance (O15), completion (O12,
O16, O19), and the run from the one to the other (O17). -/

namespace Sys2Proof.Machine

/-! ## Issue and acceptance -/

/-- Settles O11: an idle core issues the word, which is exec of the command it decodes to. -/
theorem cmdWriteRunsDecodedCommand : Obligations.CmdWriteRunsDecodedCommand := by
  intro s c es i hp h hd
  have hissue : step s = issue exec c (afterBus s es .accepted) := step_access s _ es h
  rw [hissue, issue, hd]
  exact if_neg (by simp [afterBus, State.busy, hp])

/-- A CMD write of a legal word to an idle core accepts the word's command. -/
theorem step_accepts {s : State} {c : Word} {i : Instr} {es : List HostEvent} (hp : s.pending = none)
    (h : NextWrites s cmdOffset c es) (hd : decode c = .ok i) :
    step s = .next (accept (commandOf i) (s.issuing c)) := by
  have hissuing : { afterBus s es .accepted with cmdLast := c } = s.issuing c := by
    rw [State.issuing, State.pop, h]
    rfl
  rw [cmdWriteRunsDecodedCommand s c es i hp h hd, hissuing,
    exec_idle i (s.issuing c) hp (acceptedWordHasOneReading c i hd).2]

/-- The records of a source a command may lack are those of its unwritten words. -/
theorem mem_uninitSource (s : State) (x : Option Operand) (r : FaultRecord) :
    r ∈ s.uninitOperand x ↔ ∃ o n w, some o = x ∧ n ∈ opRegs o ∧ w < 14 ∧
      (s.marks n).getLsbD w = false ∧ r = .uninitRead n w := by
  cases x with
  | none => simp [State.uninitOperand]
  | some o => simp [mem_uninitOperand]

/-- Settles O15: exec is the acceptance, whose records are those of its two sources and of its latch. -/
theorem idleCoreAcceptsEveryLegalCommand : Obligations.IdleCoreAcceptsEveryLegalCommand := by
  intro i s hp hw
  refine ⟨accept (commandOf i) s, exec_idle i s hp hw, acceptedAs_accept i s, rfl, fun r => ?_⟩
  have huninit : r ∈ s.uninitOperand (commandOf i).srcA ++ s.uninitOperand (commandOf i).srcB ↔
      ∃ o n w, (some o = (commandOf i).srcA ∨ some o = (commandOf i).srcB) ∧ n ∈ opRegs o ∧
        w < 14 ∧ (s.marks n).getLsbD w = false ∧ r = .uninitRead n w := by
    simp only [List.mem_append, mem_uninitSource, or_and_right, exists_or]
  rw [mem_accept_faults, commandOf_instr, huninit, or_comm, or_comm (b := r ∈ s.faults), or_assoc]

/-! ## Completion -/

/-- A clock cycle that is the last of the pending command's latency completes it. -/
theorem step_lastCycle {s : State} {p : Pending} (hp : s.pending = some p) (hr : p.remaining ≤ 1)
    (hh : s.host = [] ∨ ∃ es, s.host = .cycle :: es) :
    step s = .next (complete (commandOf p.instr) p s.pop) := by
  have hclock : step s = clockCycle exec s.pop := by
    rcases hh with h | ⟨es, h⟩
    · rw [step_noEvent s h, State.pop, h, List.tail_nil, ← h]
    · rw [step_cycle s es h, State.pop, h, List.tail_cons]
  rw [hclock, clockCycle_complete s.pop p hp hr]

/-- Settles O12: the last cycle and exec of the pending command are the same completion. -/
theorem lastCycleRunsPendingCommand : Obligations.LastCycleRunsPendingCommand := by
  intro s p hp hr
  have hclock (u : State) (hu : u.pending = some p) : clockCycle exec u = exec p.instr u :=
    (clockCycle_complete u p hu hr).trans (exec_pending p.instr u p hu rfl).symm
  exact ⟨fun h => (step_noEvent s h).trans (hclock s hp),
    fun es h => (step_cycle s es h).trans (hclock { s with host := es } hp)⟩

/-- The rule of a command that does not write CARRY gives none (10_state R26). -/
theorem result_carry_of_not_writesCarry {i : Instr} (h : writesCarry i = false) (l : Latch) :
    ((commandOf i).result l).carry = none := by
  by_contra hne
  obtain ⟨sz, rd, ra, rb, rfl | rfl⟩ := mpadd_or_mpsub_of_carry hne <;> cases h

/-- Settles O16: exec of the pending command is its completion, whatever the latch. -/
theorem pendingCommandCompletesInPlace : Obligations.PendingCommandCompletesInPlace := by
  intro i s p hp hi
  refine ⟨complete (commandOf i) p s, exec_pending i s p hp hi, ?_, fun h => ?_⟩
  · rw [← destRegs_commandOf]
    exact completedInto_complete (commandOf i) p s
  · exact complete_carry_none _ p s (result_carry_of_not_writesCarry h p.latch)

/-- Under the invariant an empty fault set says that the rule gives the pending command's results. -/
theorem resultsOf_of_clean {s : State} {p : Pending} (hs : Inv s) (hp : s.pending = some p)
    (hc : Clean s) (k : Nat) :
    resultsOf (commandOf p.instr) p k = (commandOf p.instr).result p.latch := by
  obtain ⟨-, -, -, hexplain⟩ := hs
  obtain ⟨hpre, hdist⟩ := hexplain p hp
  have unrecorded (r : FaultRecord) : r ∉ s.faults := hc ▸ List.not_mem_nil
  apply resultsOf_given
  · exact Bool.of_not_eq_false fun h => unrecorded _ (hpre h)
  · exact Bool.of_not_eq_true fun h => (hdist h).elim fun _ => unrecorded _

/-- Settles O19: the completion adds no record, so an empty fault set after it was empty before. -/
theorem cleanCompletionGivesTheRulesResult : Obligations.CleanCompletionGivesTheRulesResult := by
  intro s t p hs hp hr hh hstep hclean
  cases (step_lastCycle hp hr hh).symm.trans hstep
  have hc : Clean s := (complete_faults _ p s.pop).symm.trans hclean
  have hresult := resultsOf_of_clean hs hp hc s.pop.draws
  refine ⟨fun n hd => ?_, fun n hd => ?_, ?_⟩
  · rw [elem_complete_elem _ p s.pop n hd, hresult]
  · rw [← hresult]
    exact elem_complete_pair _ p s.pop n hd
  · rw [complete_carry, hresult]
    rfl

/-! ## The run from acceptance to completion -/

/-- While cycles follow and more than one is to go, a run counts the pending command's latency down. -/
theorem run_counts {k m : Nat} {s : State} {p : Pending} {es : List HostEvent}
    (hp : s.pending = some p) (hk : k < p.remaining) (hh : s.host = List.replicate k .cycle ++ es) :
    core.run (k + m) s =
      core.run m { s with host := es, pending := some { p with remaining := p.remaining - k } } := by
  induction k generalizing s p with
  | zero =>
    obtain rfl : s.host = es := hh
    rw [Nat.zero_add, Nat.sub_zero, ← hp]
  | succ k ih =>
    have hstep := (step_cycle s _ hh).trans (clockCycle_count _ p hp (by omega))
    rw [Nat.add_right_comm, run_succ (k + m) s _ hstep, ih rfl (Nat.lt_sub_of_add_lt hk) rfl,
      Nat.sub_sub, Nat.add_comm 1 k]

theorem recordAll_host_update (s : State) (h : List HostEvent) (rs : List FaultRecord) :
    { s with host := h }.recordAll rs = { s.recordAll rs with host := h } := by
  induction rs generalizing s with
  | nil => rfl
  | cons r rs ih => exact ih (s.record r)

/-- An acceptance does not read what the host does next. -/
theorem accept_host_update (c : Command) (s : State) (h : List HostEvent) :
    accept c { s with host := h } = { accept c s with host := h } := by
  have hlatch : latchOf c { s with host := h } = latchOf c s := rfl
  have huninit (x : Option Operand) : State.uninitOperand { s with host := h } x = s.uninitOperand x := rfl
  simp only [accept, hlatch, huninit, recordAll_host_update]
  split <;> rfl

/-- A completion does not read the pending record, nor from its argument how many cycles were to go. -/
theorem complete_pending_update (c : Command) (p : Pending) (s : State) (q : Option Pending) (k : Nat) :
    complete c { p with remaining := k } { s with pending := q } = complete c p s := by
  obtain ⟨_, dst, _⟩ := c
  cases dst with
  | none => rfl
  | some o => obtain ⟨kind, n⟩ := o; cases kind <;> rfl

/-- Before as many cycles have passed as are to go, the command still runs. -/
theorem run_busy {k : Nat} {s : State} {p : Pending} {es : List HostEvent} (hp : s.pending = some p)
    (hk : k < p.remaining) (hh : s.host = List.replicate p.remaining .cycle ++ es) :
    ∃ u, core.run k s = .next u ∧ u.busy = true := by
  have hsplit : s.host = List.replicate k .cycle ++ (List.replicate (p.remaining - k) .cycle ++ es) := by
    rw [hh, ← List.append_assoc, ← List.replicate_add, Nat.add_sub_cancel' hk.le]
  exact ⟨_, run_counts (m := 0) hp hk hsplit, rfl⟩

/-- After as many cycles as are to go, the command has completed. -/
theorem run_completes {s : State} {p : Pending} {es : List HostEvent} (hp : s.pending = some p)
    (hr : 1 ≤ p.remaining) (hh : s.host = List.replicate p.remaining .cycle ++ es) :
    core.run p.remaining s = .next (complete (commandOf p.instr) p { s with host := es }) := by
  obtain ⟨k, hk⟩ : ∃ k, p.remaining = k + 1 := ⟨p.remaining - 1, by omega⟩
  rw [hk, List.replicate_succ', List.append_assoc] at hh
  rw [hk, run_counts hp (by omega) hh,
    run_succ 0 _ _ (step_lastCycle rfl (by simp [hk]) (.inr ⟨es, rfl⟩))]
  exact congrArg Host.Outcome.next (complete_pending_update _ p { s with host := es } _ _)

/-- Settles O17: the CMD write accepts, and the cycles after it lead to the completion. -/
theorem runOfCommandIsAcceptanceThenCompletion : Obligations.RunOfCommandIsAcceptanceThenCompletion := by
  intro s c i es s₁ t hp hd hw hacc hcomp
  have hstep := step_accepts hp hw hd
  have hs₁ : accept (commandOf i) { s.issuing c with host := es } = s₁ := by
    have haccept := exec_idle i { s.issuing c with host := es } hp (acceptedWordHasOneReading c i hd).2
    exact Host.Outcome.next.inj (haccept.symm.trans hacc)
  obtain ⟨⟨p, hpend, rfl, -, hlat⟩, -⟩ := acceptedAs_accept i (s.issuing c)
  rw [accept_host_update] at hs₁
  have ht : complete (commandOf p.instr) p s₁ = t :=
    Host.Outcome.next.inj ((exec_pending p.instr s₁ p (hs₁ ▸ hpend) rfl).symm.trans hcomp)
  have hhost : (accept (commandOf p.instr) (s.issuing c)).host =
      List.replicate p.remaining .cycle ++ es := by
    rw [accept_host, hlat]
    exact congrArg List.tail hw
  rw [← hlat]
  refine ⟨?_, fun k hk => ?_⟩
  · rw [run_succ _ s _ hstep, run_completes hpend (hlat ▸ Nat.le_add_left 1 _) hhost, hs₁, ht]
  · rw [run_succ _ s _ hstep]
    exact run_busy hpend hk hhost

end Sys2Proof.Machine
end

section
/-! PROOFS. The multiprecision primitives (41_multiprecision): their rules (O36 to O39) and the round trip of
addition and subtraction (O40). -/

namespace Sys2Proof.Machine

/-! ## The rule of a command on operands of kind N -/

/-- The rule of a command with one source that leaves CARRY alone and writes `v` of the source. -/
theorem ruleOf_unary {i : Instr} {sz : Size} {rd ra : RegIx} (v : Nat → Nat)
    (hi : commandOf i = ⟨i, some (sizedAt sz rd), some (sizedAt sz ra), none, noPrecondition,
      fun l => valueResult (v l.a.toNat)⟩)
    (hv : ∀ a, a < 2 ^ sizeBits sz → v a < 2 ^ sizeBits sz) :
    RuleOf i (fieldsOf i) [sizedAt sz ra] (opRegs (sizedAt sz rd)) false NoPre (fun s t =>
      opValue t (sizedAt sz rd) = v (opValue s (sizedAt sz ra))) := by
  refine ruleOf_command i _ _ _ _ _ _ rfl (by rw [hi]; rfl) (by rw [hi]; exact destRegs_some _)
    (fun _ _ => by rw [hi]; rfl) (fun s _ => iff_of_true trivial (by rw [hi]; rfl)) ?_
  intro s _ hsrc _
  have ha := latchA_sized (commandOf i) s sz ra (by rw [hi]) (hsrc _ (List.mem_singleton_self _))
  refine afterCommand_opValue _ s sz rd _ (by rw [hi]) (by rw [hi]; rfl) ?_ (hv _ (opValue_lt s sz ra))
  rw [← ha, hi]
  rfl

/-- The rule of a command with two sources that writes `v` of them, and `c` of them to CARRY. -/
theorem ruleOf_binary {i : Instr} {sz : Size} {rd ra rb : RegIx} (v : Nat → Nat → Nat)
    (c : Nat → Nat → Bool) {post : State → State → Prop}
    (hi : commandOf i = ⟨i, some (sizedAt sz rd), some (sizedAt sz ra), some (sizedAt sz rb),
      noPrecondition, fun l => carryResult (v l.a.toNat l.b.toNat) (c l.a.toNat l.b.toNat)⟩)
    (hv : ∀ a b, v a b < 2 ^ sizeBits sz)
    (hpost : ∀ s t,
      opValue t (sizedAt sz rd) = v (opValue s (sizedAt sz ra)) (opValue s (sizedAt sz rb)) →
      t.carry = c (opValue s (sizedAt sz ra)) (opValue s (sizedAt sz rb)) → post s t) :
    RuleOf i (fieldsOf i) [sizedAt sz ra, sizedAt sz rb] (opRegs (sizedAt sz rd)) true NoPre post := by
  refine ruleOf_command i _ _ _ _ _ _ rfl (by rw [hi]; rfl) (by rw [hi]; exact destRegs_some _)
    nofun (fun s _ => iff_of_true trivial (by rw [hi]; rfl)) ?_
  intro s _ hsrc _
  have ha := latchA_sized (commandOf i) s sz ra (by rw [hi]) (hsrc _ (by simp))
  have hb := latchB_sized (commandOf i) s sz rb (by rw [hi]) (hsrc _ (by simp))
  apply hpost
  · refine afterCommand_opValue _ s sz rd _ (by rw [hi]) (by rw [hi]; rfl) ?_ (hv _ _)
    rw [← ha, ← hb, hi]
    rfl
  · rw [afterCommand_carry _ s (by rw [hi]; rfl), ← ha, ← hb, hi]
    rfl

/-! ## Addition and subtraction -/

/-- Settles O36: the sum modulo 2^(32N), with carryOut. -/
theorem mpaddAddsWithCarryOut : Obligations.MpaddAddsWithCarryOut := by
  intro sz rd ra rb
  refine ruleOf_binary (fun a b => (a + b) % 2 ^ sizeBits sz) (carryOut (sizeBits sz)) rfl
    (fun a b => Nat.mod_lt _ (Nat.two_pow_pos _)) ?_
  intro s t hvalue hcarry
  exact ⟨hvalue, by rw [hcarry, carryOut, decide_eq_true_iff]⟩

/-- MPSUB adds 2^(32N) before it subtracts, which does not change the residue. -/
theorem cast_sub_mod {m a b : Nat} (hb : b < m) :
    (((a + m - b) % m : Nat) : Int) = ((a : Int) - b) % m := by
  rw [Int.natCast_emod, Nat.cast_sub (by omega), Nat.cast_add, add_sub_right_comm, Int.add_emod_right]

/-- Settles O37: the difference modulo 2^(32N), with borrowOut. -/
theorem mpsubSubtractsWithBorrow : Obligations.MpsubSubtractsWithBorrow := by
  intro sz rd ra rb
  refine ruleOf_binary (fun a b => (a + 2 ^ sizeBits sz - b) % 2 ^ sizeBits sz) borrowOut rfl
    (fun a b => Nat.mod_lt _ (Nat.two_pow_pos _)) ?_
  intro s t hvalue hcarry
  refine ⟨?_, by rw [hcarry, borrowOut, decide_eq_true_iff]⟩
  rw [hvalue, cast_sub_mod (opValue_lt s sz rb)]
  norm_cast

/-! ## Shifts, COPY, ZERO and NOP -/

/-- Settles O38: a shift is a rule with one source; K = 0 is not well formed. -/
theorem shiftsMoveBitsAcrossWords : Obligations.ShiftsMoveBitsAcrossWords := by
  intro sz rd ra k
  refine ⟨?_, ?_, ?_, rfl, ?_⟩
  · exact ruleOf_unary (fun a => a * 2 % 2 ^ sizeBits sz) rfl
      (fun a _ => Nat.mod_lt _ (Nat.two_pow_pos _))
  · exact ruleOf_unary (fun a => a / 2) rfl (fun a ha => (Nat.div_le_self a 2).trans_lt ha)
  · exact ruleOf_unary (fun a => a * 2 ^ k.toNat % 2 ^ sizeBits sz) rfl
      (fun a _ => Nat.mod_lt _ (Nat.two_pow_pos _))
  · rw [decode_encode]
    exact if_neg (by simp [Instr.wellFormed])

theorem encode_nop : encode .nop = 0 := rfl

/-- The row of opcode 0 builds NOP, whatever the other fields hold, and NOP is written as 0 alone. -/
theorem eq_zero_of_decode_ok {c : Word} {i : Instr} (hop : c.extractLsb' 0 6 = 0#6)
    (h : decode c = .ok i) : c = 0 := by
  obtain ⟨r, hrow, -, hbuild⟩ := decodeFields_ok h
  rw [show (fieldsOfWord c).op = 0#6 from hop] at hrow
  cases hrow
  rw [← (acceptedWordHasOneReading c i h).1, ← hbuild, encode_nop]

/-- Settles O39: COPY is a rule with one source; ZERO and NOP have none. -/
theorem copyZeroAndNop : Obligations.CopyZeroAndNop := by
  refine ⟨fun sz rd ra => ⟨ruleOf_unary id rfl fun _ => id, ?_⟩, ?_, encode_nop, ?_⟩
  · refine ruleOf_command _ _ _ _ _ _ _ rfl rfl (destRegs_some _) (fun _ _ => rfl)
      (fun s _ => iff_of_true trivial rfl) fun s _ _ _ => ?_
    exact afterCommand_opValue _ s sz rd 0 rfl rfl rfl (Nat.two_pow_pos _)
  · exact ruleOf_command _ _ _ _ _ _ _ rfl rfl rfl (fun _ _ => rfl)
      (fun s _ => iff_of_true trivial rfl) fun s _ _ _ => trivial
  · intro c hop hc
    refine (illegalFieldMeansNoCommand c (by rw [hop]; unfold opcodeListedIllegal; decide)).mpr ?_
    rintro i hw rfl
    exact hc (eq_zero_of_decode_ok hop (decodeOfEncode i hw))

/-! ## The round trip -/

theorem opWritten_iff (s : State) (o : Operand) :
    opWritten s o = true ↔ ∀ n, n ∈ opRegs o → s.elemWritten n = true :=
  List.all_eq_true

theorem opValue_congr {s t : State} {o : Operand} (h : ∀ n, n ∈ opRegs o → t.elem n = s.elem n) :
    opValue t o = opValue s o := by
  obtain ⟨k, n⟩ := o
  cases k <;> simp_all [opValue, opRegs]

/-- What the rule of a command without a precondition says of its two executions, one after the other, on
written sources. -/
theorem RuleOf.runs {i : Instr} {f : Fields} {srcs : List Operand} {dst : List RegIx} {wc : Bool}
    {post : State → State → Prop} {s s₁ t : State} (h : RuleOf i f srcs dst wc NoPre post)
    (hp : s.pending = none) (hw : i.wellFormed = true)
    (hsrc : ∀ o, o ∈ srcs → opWritten s o = true)
    (hacc : exec i s = .next s₁) (hcomp : exec i s₁ = .next t) :
    t.pending = none ∧ (∀ n, n ∈ dst → t.elemWritten n = true) ∧
      (∀ n, n ∉ dst → t.elem n = s.elem n ∧ t.elemWritten n = s.elemWritten n) ∧ post s t := by
  obtain ⟨s₁', t', hacc', hcomp', haccepted, hcompleted, -, -, hresult⟩ := h.2 s hp hw
  cases hacc.symm.trans hacc'
  cases hcomp.symm.trans hcomp'
  obtain ⟨-, -, hregs, hwritten, -⟩ := haccepted
  obtain ⟨hidle, -, hmarks, hframe, -⟩ := hcompleted
  refine ⟨hidle, hmarks, fun n hn => ?_, ((hresult hsrc).1 trivial).2⟩
  obtain ⟨helem, hmark⟩ := hframe n hn
  exact ⟨helem.trans (elem_congr s s₁ hregs n),
    congrArg (· == _) (hmark.trans (marks_congr s s₁ hwritten n))⟩

/-- Two commands that write rd, the first from ra and rb, the second from rd and rb: where the first leaves
rb alone, the second finds its sources written and rb's value as it was. -/
theorem RuleOf.runs_twice {i j : Instr} {f g : Fields} {sz : Size} {rd ra rb : RegIx} {wc wc' : Bool}
    {post post' : State → State → Prop} {s s₁ s₂ s₃ t : State}
    (hi : RuleOf i f [sizedAt sz ra, sizedAt sz rb] (opRegs (sizedAt sz rd)) wc NoPre post)
    (hj : RuleOf j g [sizedAt sz rd, sizedAt sz rb] (opRegs (sizedAt sz rd)) wc' NoPre post')
    (hp : s.pending = none) (hwi : i.wellFormed = true) (hwj : j.wellFormed = true)
    (ha : opWritten s (sizedAt sz ra) = true) (hb : opWritten s (sizedAt sz rb) = true)
    (hdisj : ∀ n, n ∈ opRegs (sizedAt sz rd) → n ∉ opRegs (sizedAt sz rb))
    (h₁ : exec i s = .next s₁) (h₂ : exec i s₁ = .next s₂)
    (h₃ : exec j s₂ = .next s₃) (h₄ : exec j s₃ = .next t) :
    post s s₂ ∧ post' s₂ t ∧ opValue s₂ (sizedAt sz rb) = opValue s (sizedAt sz rb) := by
  obtain ⟨hidle, hdst, hframe, hpost⟩ := hi.runs hp hwi (by simp [ha, hb]) h₁ h₂
  have hkept : ∀ n, n ∈ opRegs (sizedAt sz rb) →
      s₂.elem n = s.elem n ∧ s₂.elemWritten n = s.elemWritten n :=
    fun n hn => hframe n fun hd => hdisj n hd hn
  have hd₂ : opWritten s₂ (sizedAt sz rd) = true := (opWritten_iff _ _).mpr hdst
  have hb₂ : opWritten s₂ (sizedAt sz rb) = true :=
    (opWritten_iff _ _).mpr fun n hn => (hkept n hn).2.trans ((opWritten_iff _ _).mp hb n hn)
  obtain ⟨-, -, -, hpost'⟩ := hj.runs hidle hwj (by simp [hd₂, hb₂]) h₃ h₄
  exact ⟨hpost, hpost', opValue_congr fun n hn => (hkept n hn).1⟩

/-- A sum modulo m with its carry loses nothing (R88). -/
theorem add_mod_add_carry {m a b x : Nat} {c : Bool} (ha : a < m) (hb : b < m) (hx : x = (a + b) % m)
    (hc : c = true ↔ m ≤ a + b) : x + (if c then m else 0) = a + b := by
  rw [hx]
  split
  · next h => rw [Nat.mod_eq_sub_mod (hc.mp h), Nat.mod_eq_of_lt (by omega), Nat.sub_add_cancel (hc.mp h)]
  · next h => exact Nat.mod_eq_of_lt (Nat.not_le.mp (mt hc.mpr h))

/-- A difference modulo m with its borrow loses nothing (R88). -/
theorem sub_mod_add_borrow {m a b x : Nat} {c : Bool} (ha : a < m) (hb : b < m)
    (hx : (x : Int) = ((a : Int) - b) % m) (hc : c = true ↔ a < b) :
    x + b = a + (if c then m else 0) := by
  split
  · next h =>
    have := hc.mp h
    rw [← Int.add_emod_right, Int.emod_eq_of_lt (by omega) (by omega)] at hx
    omega
  · next h =>
    have := mt hc.mpr h
    rw [Int.emod_eq_of_lt (by omega) (by omega)] at hx
    omega

/-- Of two numbers below m, each with m or nothing added, equal totals have equal numbers and equal bits. -/
theorem eq_of_add_ite_eq {m x y : Nat} {c d : Bool} (hx : x < m) (hy : y < m)
    (h : x + (if c then m else 0) = y + (if d then m else 0)) : x = y ∧ c = d := by
  cases c <;> cases d <;> simp at h ⊢ <;> omega

/-- Settles O40: a + b = x + CARRY 2^(32N) for MPADD and x + b = a + CARRY 2^(32N) for MPSUB, in either
order. -/
theorem addAndSubtractUndoEachOther : Obligations.AddAndSubtractUndoEachOther := by
  intro sz rd ra rb s s₁ s₂ s₃ t hp hw ha hb hdisj
  have hw' : (sz.admits rd && sz.admits rd && sz.admits rb) = true := by
    simp_all [Instr.wellFormed]
  have hlt := fun (s : State) (n : RegIx) => opValue_lt s sz n
  constructor
  · intro h₁ h₂ h₃ h₄
    obtain ⟨⟨hsum, hcarry⟩, ⟨hdiff, hborrow⟩, hkept⟩ := (mpaddAddsWithCarryOut sz rd ra rb).runs_twice
      (mpsubSubtractsWithBorrow sz rd rd rb) hp hw hw' ha hb hdisj h₁ h₂ h₃ h₄
    have hadd := add_mod_add_carry (hlt s ra) (hlt s rb) hsum hcarry
    have hsub := sub_mod_add_borrow (hlt s₂ rd) (hlt s₂ rb) (by exact_mod_cast hdiff) hborrow
    exact (eq_of_add_ite_eq (hlt t rd) (hlt s ra) (by omega)).imp_right Eq.symm
  · intro h₁ h₂ h₃ h₄
    obtain ⟨⟨hdiff, hborrow⟩, ⟨hsum, hcarry⟩, hkept⟩ := (mpsubSubtractsWithBorrow sz rd ra rb).runs_twice
      (mpaddAddsWithCarryOut sz rd rd rb) hp hw hw' ha hb hdisj h₁ h₂ h₃ h₄
    have hsub := sub_mod_add_borrow (hlt s ra) (hlt s rb) (by exact_mod_cast hdiff) hborrow
    have hadd := add_mod_add_carry (hlt s₂ rd) (hlt s₂ rb) hsum hcarry
    exact eq_of_add_ite_eq (hlt t rd) (hlt s ra) (by omega)

end Sys2Proof.Machine
end

section
/-! PROOFS. The Montgomery multiplier and squarer (42_montgomery): Redc (O43), its word-serial forms (O44),
the laws of the product (O45), and the commands (O41). -/

namespace Sys2Proof.Machine

/-! ## Redc (R92) -/

theorem montInv_lt : montInv < montR := by decide +kernel

/-- MINV is -1/p mod R (R19). -/
theorem montR_dvd_primeP_mul_montInv : montR ∣ primeP * montInv + 1 := by decide +kernel

theorem redc_mul_modEq (t : Nat) : redc t * montR ≡ t [MOD primeP] := by
  rw [redc_mul, Nat.add_modulus_mul_modEq_iff]

theorem redc_lt {t : Nat} (h : t < primeP * montR) : redc t < 2 * primeP := by
  have hm : primeP * (montInv * t % montR) < primeP * montR :=
    Nat.mul_lt_mul_of_pos_left (Nat.mod_lt _ montR_pos) primeP_pos
  refine Nat.lt_of_mul_lt_mul_right (a := montR) ?_
  rw [redc_mul, mul_assoc, two_mul]
  exact Nat.add_lt_add h hm

/-- Only one multiplier below R makes R divide T + m p, so the quotient by R of any such sum is Redc(T). -/
theorem div_montR_eq_redc {t m : Nat} (hm : m < montR) (hd : montR ∣ t + primeP * m) :
    (t + primeP * m) / montR = redc t := by
  have hsum : t + primeP * m ≡ t + primeP * (montInv * t % montR) [MOD montR] :=
    hd.modEq_zero_nat.trans (montR_dvd_redc t).zero_modEq_nat
  have hmul : m ≡ montInv * t % montR [MOD montR] :=
    hsum.add_left_cancel'.cancel_left_of_coprime primeP_coprime_montR.symm
  rw [redc, ← hmul.eq_of_lt_of_lt hm (Nat.mod_lt _ montR_pos)]

/-- Settles O43, with the factors of the products in the statement's order. -/
theorem redcIsExactAndBelowTwoP : Obligations.RedcIsExactAndBelowTwoP := by
  refine ⟨⟨montInv_lt, Nat.mod_eq_zero_of_dvd montR_dvd_primeP_mul_montInv⟩, fun t => ?_⟩
  rw [mul_comm t montInv, mul_comm _ primeP]
  exact ⟨Nat.mod_eq_zero_of_dvd (montR_dvd_redc t), rfl, redc_mul_modEq t, redc_lt⟩

/-! ## The word-serial forms (R93, R94) -/

/-- N0 is -1/p mod 2^32 (R19). -/
theorem word_dvd_primeP_mul_montInvWord : 2 ^ 32 ∣ primeP * montInvWord + 1 := by decide +kernel

/-- q of R93: the multiplier of a step, from what is left of t above the words already clear. -/
def wordMultiplier (v : Nat) : Nat := montInvWord * (v % 2 ^ 32) % 2 ^ 32

theorem redcStep_eq (t i : Nat) :
    redcStep t i = t + 2 ^ (32 * i) * (primeP * wordMultiplier (t / 2 ^ (32 * i))) := rfl

theorem wordMultiplier_lt (v : Nat) : wordMultiplier v < 2 ^ 32 := Nat.mod_lt _ (Nat.two_pow_pos _)

/-- Adding q p clears the low word. -/
theorem word_dvd_add_primeP_mul (v : Nat) : 2 ^ 32 ∣ v + primeP * wordMultiplier v := by
  have hq : wordMultiplier v ≡ montInvWord * v [MOD 2 ^ 32] :=
    (Nat.mod_modEq _ _).trans ((Nat.mod_modEq v _).mul_left _)
  have hsum : v + primeP * (montInvWord * v) = (primeP * montInvWord + 1) * v := by ring
  refine (((hq.mul_left primeP).add_left v).dvd_iff dvd_rfl).mpr ?_
  rw [hsum]
  exact word_dvd_primeP_mul_montInvWord.mul_right v

/-- u is T with a multiple of p added, by a multiplier of k words, and its k low words are clear. -/
def ClearsLowWords (k t u : Nat) : Prop :=
  ∃ m, m < 2 ^ (32 * k) ∧ u = t + primeP * m ∧ 2 ^ (32 * k) ∣ u

theorem clearsLowWords_zero (t : Nat) : ClearsLowWords 0 t t :=
  ⟨0, Nat.one_pos, rfl, one_dvd t⟩

/-- A digit q put above a number below b stays below b c. -/
theorem add_mul_lt_mul {b c m q : Nat} (hm : m < b) (hq : q < c) : m + b * q < b * c :=
  calc m + b * q < b * (q + 1) := by rw [mul_add_one]; omega
    _ ≤ b * c := Nat.mul_le_mul_left b hq

/-- A step clears the next word: its q is the next word of the multiplier. -/
theorem ClearsLowWords.step {k t u : Nat} (h : ClearsLowWords k t u) :
    ClearsLowWords (k + 1) t (redcStep u k) := by
  obtain ⟨m, hm, hu, v, hv⟩ := h
  have hpow : 2 ^ (32 * (k + 1)) = 2 ^ (32 * k) * 2 ^ 32 := by rw [mul_add_one, pow_add]
  have hword : u / 2 ^ (32 * k) = v := by rw [hv, Nat.mul_div_cancel_left _ (Nat.two_pow_pos _)]
  rw [redcStep_eq, hword]
  refine ⟨m + 2 ^ (32 * k) * wordMultiplier v, ?_, ?_, ?_⟩
  · rw [hpow]
    exact add_mul_lt_mul hm (wordMultiplier_lt v)
  · rw [hu, mul_add, mul_left_comm, add_assoc]
  · rw [hpow, hv, ← mul_add]
    exact Nat.mul_dvd_mul_left _ (word_dvd_add_primeP_mul v)

theorem clearsLowWords_foldl (t k : Nat) : ClearsLowWords k t ((List.range k).foldl redcStep t) := by
  induction k with
  | zero => exact clearsLowWords_zero t
  | succ k ih => rw [List.range_succ, List.foldl_append]; exact ih.step

/-- R93: after 14 steps the multiplier has been below R, so the quotient is Redc's. -/
theorem redcWordSerial_eq_redc (t : Nat) : redcWordSerial t = redc t := by
  obtain ⟨m, hm, hu, hd⟩ := clearsLowWords_foldl t 14
  rw [show 2 ^ (32 * 14) = montR from by decide +kernel] at hm hd
  rw [redcWordSerial, hu]
  exact div_montR_eq_redc hm (hu ▸ hd)

/-- R94: q p is q (p + 1) - q, and with N0 = 1 the multiplier q is the word itself. -/
theorem redcStepPP1_eq : redcStepPP1 = redcStep := by
  funext t i
  have hq : wordMultiplier (t / 2 ^ (32 * i)) = t / 2 ^ (32 * i) % 2 ^ 32 := by
    rw [wordMultiplier, montInvWord, one_mul, Nat.mod_mod]
  rw [redcStep_eq, hq, redcStepPP1, primePP1_eq, add_one_mul, mul_add (2 ^ (32 * i)), ← add_assoc,
    Nat.add_sub_cancel]

theorem redcPP1_eq_redcWordSerial (t : Nat) : redcPP1 t = redcWordSerial t := by
  rw [redcPP1, redcStepPP1_eq, redcWordSerial]

/-- Settles O44: both forms agree with Redc on every T. -/
theorem wordSerialReductionIsRedc : Obligations.WordSerialReductionIsRedc := by
  refine ⟨⟨rfl, Nat.mod_eq_zero_of_dvd word_dvd_primeP_mul_montInvWord, primePP1_eq, primePP1_low⟩, ?_⟩
  intro t _
  exact ⟨redcWordSerial_eq_redc t, (redcPP1_eq_redcWordSerial t).trans (redcWordSerial_eq_redc t)⟩

/-! ## The product (R95, R96, R99) -/

theorem two_primeP_lt_montR : 2 * primeP < montR := by decide +kernel

theorem montMul_comm (a b : Nat) : montMul a b = montMul b a := by
  rw [montMul, montMul, mul_comm]

theorem montMul_mul_modEq (a b : Nat) : montMul a b * montR ≡ a * b [MOD primeP] :=
  redc_mul_modEq (a * b)

theorem modEq_of_mul_montR {x y : Nat} (h : x * montR ≡ y * montR [MOD primeP]) :
    x ≡ y [MOD primeP] :=
  h.cancel_right_of_coprime primeP_coprime_montR

/-- Montgomery's 1 is R modulo p. -/
theorem montMul_montOne_modEq (a : Nat) : montMul a (montR % primeP) ≡ a [MOD primeP] :=
  modEq_of_mul_montR ((montMul_mul_modEq a _).trans ((Nat.mod_modEq _ _).mul_left a))

/-- The product of two field elements is below 4 p^2, and 4p below R (R95). -/
theorem montMul_lt {a b : Nat} (ha : a < 2 * primeP) (hb : b < 2 * primeP) : montMul a b < 2 * primeP := by
  apply redc_lt
  calc a * b < (2 * primeP) * (2 * primeP) := Nat.mul_lt_mul'' ha hb
    _ = primeP * (4 * primeP) := by ring
    _ < primeP * montR := Nat.mul_lt_mul_of_pos_left four_primeP_lt primeP_pos

/-- Settles O45, one law after the other. -/
theorem montgomeryProductLaws : Obligations.MontgomeryProductLaws := fun a b ha hb =>
  ⟨montMul_comm a b, montSqr_eq a, montMul_mul_modEq a b, montMul_montOne_modEq a, montMul_lt ha hb⟩

/-! ## The rule of a command on elements -/

theorem inField_iff (a : Nat) : inField a = true ↔ a < 2 * primeP := by
  rw [inField, decide_eq_true_iff]

/-- The rule of a command that leaves CARRY alone and writes an element: if the latched sources are legal
exactly where `pre` holds and then result in `v`, the destination holds `v`. -/
theorem ruleOf_elem {i : Instr} {srcs : List Operand} {rd : RegIx} (v : State → Nat)
    {pre : State → Prop} {post : State → State → Prop}
    (hs : sourcesOf (commandOf i) = srcs) (hd : (commandOf i).dst = some (elemAt rd))
    (hc : ∀ l, ((commandOf i).result l).carry = none)
    (hlegal : ∀ s, (∀ o, o ∈ srcs → opWritten s o = true) →
      (pre s ↔ (commandOf i).legal (latchOf (commandOf i) s) = true))
    (hresult : ∀ s, (∀ o, o ∈ srcs → opWritten s o = true) →
      (commandOf i).result (latchOf (commandOf i) s) = valueResult (v s))
    (hv : ∀ s, pre s → v s < montR) (hpost : ∀ s t, pre s → comp0 t rd = v s → post s t) :
    RuleOf i (fieldsOf i) srcs [rd] false pre post := by
  refine ruleOf_command i _ _ _ _ _ _ rfl hs (by rw [hd]; exact destRegs_some _) (fun _ => hc) hlegal ?_
  intro s _ hsrc hp
  exact hpost s _ hp
    (afterCommand_comp0 _ s rd _ hd ((hlegal s hsrc).mp hp) (hresult s hsrc) (hv s hp))

/-- The rule of a command with one element source. -/
theorem ruleOf_elemUnary {i : Instr} {rd ra : RegIx} (legal : Nat → Bool) (v : Nat → Nat)
    {pre : State → Prop} {post : State → State → Prop}
    (hi : commandOf i = ⟨i, some (elemAt rd), some (elemAt ra), none, fun l => legal (latchA0 l),
      fun l => valueResult (v (latchA0 l))⟩)
    (hpre : ∀ s, pre s ↔ legal (comp0 s ra) = true) (hv : ∀ s, pre s → v (comp0 s ra) < montR)
    (hpost : ∀ s t, pre s → comp0 t rd = v (comp0 s ra) → post s t) :
    RuleOf i (fieldsOf i) [elemAt ra] [rd] false pre post := by
  have ha : ∀ s, (∀ o, o ∈ [elemAt ra] → opWritten s o = true) →
      latchA0 (latchOf (commandOf i) s) = comp0 s ra := fun s hsrc =>
    latchA0_elem _ s ra (by rw [hi]) (hsrc _ (by simp))
  refine ruleOf_elem (fun s => v (comp0 s ra)) (by rw [hi]; rfl) (by rw [hi]) (fun _ => by rw [hi]; rfl)
    (fun s hsrc => ?_) (fun s hsrc => ?_) hv hpost
  · rw [hpre s, ← ha s hsrc, hi]
  · rw [← ha s hsrc, hi]

/-- The rule of a command with two element sources. -/
theorem ruleOf_elemBinary {i : Instr} {rd ra rb : RegIx} (legal : Nat → Nat → Bool)
    (v : Nat → Nat → Nat) {pre : State → Prop} {post : State → State → Prop}
    (hi : commandOf i = ⟨i, some (elemAt rd), some (elemAt ra), some (elemAt rb),
      fun l => legal (latchA0 l) (latchB0 l), fun l => valueResult (v (latchA0 l) (latchB0 l))⟩)
    (hpre : ∀ s, pre s ↔ legal (comp0 s ra) (comp0 s rb) = true)
    (hv : ∀ s, pre s → v (comp0 s ra) (comp0 s rb) < montR)
    (hpost : ∀ s t, pre s → comp0 t rd = v (comp0 s ra) (comp0 s rb) → post s t) :
    RuleOf i (fieldsOf i) [elemAt ra, elemAt rb] [rd] false pre post := by
  have ha : ∀ s, (∀ o, o ∈ [elemAt ra, elemAt rb] → opWritten s o = true) →
      latchA0 (latchOf (commandOf i) s) = comp0 s ra := fun s hsrc =>
    latchA0_elem _ s ra (by rw [hi]) (hsrc _ (by simp))
  have hb : ∀ s, (∀ o, o ∈ [elemAt ra, elemAt rb] → opWritten s o = true) →
      latchB0 (latchOf (commandOf i) s) = comp0 s rb := fun s hsrc =>
    latchB0_elem _ s rb (by rw [hi]) (hsrc _ (by simp))
  refine ruleOf_elem (fun s => v (comp0 s ra) (comp0 s rb)) (by rw [hi]; rfl) (by rw [hi])
    (fun _ => by rw [hi]; rfl) (fun s hsrc => ?_) (fun s hsrc => ?_) hv hpost
  · rw [hpre s, ← ha s hsrc, ← hb s hsrc, hi]
  · rw [← ha s hsrc, ← hb s hsrc, hi]

/-! ## FPMUL and FPSQR (R97, R98) -/

/-- Settles O41: a product of field elements is a field element, so it fits its register. -/
theorem fpmulAndFpsqrGiveMontgomeryProducts : Obligations.FpmulAndFpsqrGiveMontgomeryProducts := by
  intro rd ra rb
  constructor
  · refine ruleOf_elemBinary (fun a b => inField a && inField b) montMul rfl ?_ ?_ ?_
    · intro s
      rw [Bool.and_eq_true, inField_iff, inField_iff]
    · rintro s ⟨ha, hb⟩
      exact (montMul_lt ha hb).trans two_primeP_lt_montR
    · rintro s t ⟨ha, hb⟩ hvalue
      rw [hvalue]
      exact ⟨rfl, montMul_lt ha hb, montMul_mul_modEq _ _⟩
  · refine ruleOf_elemUnary inField montSqr rfl (fun s => (inField_iff _).symm) ?_ ?_
    · intro s ha
      exact (montMul_lt ha ha).trans two_primeP_lt_montR
    · intro s t ha hvalue
      rw [hvalue, montSqr_eq]
      exact ⟨rfl, montMul_lt ha ha⟩

end Sys2Proof.Machine
end

section
/-! PROOFS. The fixed-chain inverter (43_inversion): its chain (O46), chains in general (O47, O48), the command
(O42), and the inverse laws in GF(p) and GF(p²) (O60). -/

namespace Sys2Proof.Machine

/-! ## Induction over a chain (R100 to R102)

The table, the squarings and the chain are products of products of x. So what holds of x with exponent 1, and of
a product with the sum of the exponents, holds of the chain's result with the chain's exponent. -/

section Induction

variable {P : Nat → Nat → Prop} (hmul : ∀ {e f u v}, P e u → P f v → P (e + f) (montMul u v))
include hmul

theorem powerTableFrom_induct {tt : Nat} (htt : P 2 tt) {n e t j : Nat} (ht : P e t) (hj : j < n) :
    P (e + 2 * (j + 1)) ((powerTableFrom tt t n).getD j 0) := by
  induction n generalizing e t j with
  | zero => omega
  | succ n ih =>
    have hnext : P (e + 2) (montMul t tt) := hmul ht htt
    cases j with
    | zero => exact hnext
    | succ j =>
      have hrest := ih hnext (Nat.lt_of_succ_lt_succ hj)
      rwa [show e + 2 + 2 * (j + 1) = e + 2 * (j + 1 + 1) by omega] at hrest

/-- Entry j of the table is the power 2j + 1 (R100). -/
theorem powerTable_induct {x : Nat} (hx : P 1 x) {size j : Nat} (hj : j < size) :
    P (2 * j + 1) ((powerTable size x).getD j 0) := by
  cases j with
  | zero => exact hx
  | succ j =>
    have hentry := powerTableFrom_induct hmul (hmul hx hx) (n := size - 1) hx (by omega : j < size - 1)
    rwa [Nat.add_comm] at hentry

theorem sqrTimes_induct (k : Nat) {e acc : Nat} (h : P e acc) : P (e * 2 ^ k) (sqrTimes k acc) := by
  induction k generalizing e acc with
  | zero => simpa [sqrTimes] using h
  | succ k ih =>
    have hsqr : P (e + e) (montSqr acc) := hmul h h
    rw [pow_succ', ← mul_assoc, mul_two]
    exact ih hsqr

theorem foldl_chainStep_induct {table : List Nat} {steps : List (Nat × Nat)} {e acc : Nat} (h : P e acc)
    (htable : ∀ kj ∈ steps, P (2 * kj.2 + 1) (table.getD kj.2 0)) :
    P (steps.foldl (fun e kj => e * 2 ^ kj.1 + (2 * kj.2 + 1)) e) (steps.foldl (chainStep table) acc) := by
  induction steps generalizing e acc with
  | nil => exact h
  | cons kj steps ih =>
    obtain ⟨hentry, hrest⟩ := List.forall_mem_cons.mp htable
    exact ih (hmul (sqrTimes_induct hmul kj.1 h) hentry) hrest

theorem fpInvWith_induct {x : Nat} (hx : P 1 x) {size start : Nat} {steps : List (Nat × Nat)}
    (hstart : start < size) (hsteps : ∀ kj ∈ steps, kj.2 < size) :
    P (chainExponent start steps) (fpInvWith size start steps x) :=
  foldl_chainStep_induct hmul (powerTable_induct hmul hx hstart) fun kj hkj =>
    powerTable_induct hmul hx (hsteps kj hkj)

end Induction

/-! ## The chain of R101 -/

/-- Settles O46, each number computed from the table of R101. -/
theorem chainComputesPMinusTwo : Obligations.ChainComputesPMinusTwo :=
  ⟨by decide +kernel, by decide +kernel, by decide +kernel, by decide +kernel⟩

/-- What an admissible chain is (R104). -/
theorem chainAdmissible_iff {size start : Nat} {steps : List (Nat × Nat)} :
    chainAdmissible size start steps = true ↔
      start < size ∧ (∀ kj ∈ steps, kj.2 < size ∧ 1 ≤ kj.1) ∧ chainExponent start steps = primeP - 2 := by
  simp only [chainAdmissible, Bool.and_eq_true, decide_eq_true_iff, List.all_eq_true, beq_iff_eq, and_assoc]

theorem chainAdmissible_chainSteps : chainAdmissible tableSize chainStart chainSteps = true := by
  obtain ⟨-, -, hadm, -⟩ := chainComputesPMinusTwo
  exact hadm

/-! ## Powers in the Montgomery sense (R100, R105) -/

/-- v stands for the power e of what x stands for: v is R (x / R)^e modulo p. -/
def IsMontPow (x e v : Nat) : Prop := v * montR ^ e ≡ montR * x ^ e [MOD primeP]

theorem isMontPow_one (x : Nat) : IsMontPow x 1 x := by
  rw [IsMontPow, pow_one, pow_one, mul_comm]

theorem isMontPow_montMul {x e f u v : Nat} (hu : IsMontPow x e u) (hv : IsMontPow x f v) :
    IsMontPow x (e + f) (montMul u v) := by
  refine modEq_of_mul_montR ?_
  calc montMul u v * montR ^ (e + f) * montR
      = montMul u v * montR * montR ^ (e + f) := by ring
    _ ≡ u * v * montR ^ (e + f) [MOD primeP] := (montMul_mul_modEq u v).mul_right _
    _ = u * montR ^ e * (v * montR ^ f) := by ring
    _ ≡ montR * x ^ e * (montR * x ^ f) [MOD primeP] := hu.mul hv
    _ = montR * x ^ (e + f) * montR := by ring

/-- Any two values for the same power are congruent. -/
theorem IsMontPow.modEq {x e u v : Nat} (hu : IsMontPow x e u) (hv : IsMontPow x e v) :
    u ≡ v [MOD primeP] :=
  Nat.ModEq.cancel_right_of_coprime (primeP_coprime_montR.pow_right e) (hu.trans hv.symm)

theorem isMontPow_fpInvWith {size start : Nat} {steps : List (Nat × Nat)} (hstart : start < size)
    (hsteps : ∀ kj ∈ steps, kj.2 < size) (x : Nat) :
    IsMontPow x (chainExponent start steps) (fpInvWith size start steps x) :=
  fpInvWith_induct isMontPow_montMul (isMontPow_one x) hstart hsteps

/-- An admissible chain raises to p - 2 (R104). -/
theorem isMontPow_of_chainAdmissible {size start : Nat} {steps : List (Nat × Nat)}
    (h : chainAdmissible size start steps = true) (x : Nat) :
    IsMontPow x (primeP - 2) (fpInvWith size start steps x) := by
  obtain ⟨hstart, hsteps, hexp⟩ := chainAdmissible_iff.mp h
  rw [← hexp]
  exact isMontPow_fpInvWith hstart (fun kj hkj => (hsteps kj hkj).1) x

theorem isMontPow_fpInv (x : Nat) : IsMontPow x (primeP - 2) (fpInv x) :=
  isMontPow_of_chainAdmissible chainAdmissible_chainSteps x

/-- A chain starts at an odd exponent and never lowers it. -/
theorem chainExponent_pos (start : Nat) (steps : List (Nat × Nat)) : 0 < chainExponent start steps := by
  rw [chainExponent]
  induction steps using List.reverseRecOn with
  | nil => exact Nat.succ_pos _
  | append_singleton steps kj _ => rw [List.foldl_append]; exact Nat.succ_pos _

/-- Settles O47: the exponent is positive, so one factor R of both sides cancels. -/
theorem chainRaisesToItsExponent : Obligations.ChainRaisesToItsExponent := by
  intro size start steps x hstart hsteps
  refine modEq_of_mul_montR ?_
  rw [mul_assoc, pow_sub_one_mul (chainExponent_pos start steps).ne', mul_comm (x ^ _)]
  exact isMontPow_fpInvWith hstart hsteps x

/-- Settles O48: both chains raise x to the power p - 2. -/
theorem admissibleChainsAgree : Obligations.AdmissibleChainsAgree := fun _ _ _ x h =>
  (isMontPow_of_chainAdmissible h x).modEq (isMontPow_fpInv x)

/-! ## FPINV (R103) -/

/-- The inverse of a field element is a field element (R102). -/
theorem fpInv_lt {x : Nat} (hx : x < 2 * primeP) : fpInv x < 2 * primeP := by
  obtain ⟨hstart, hsteps, -⟩ := chainAdmissible_iff.mp chainAdmissible_chainSteps
  exact fpInvWith_induct (P := fun _ v => v < 2 * primeP) montMul_lt hx hstart
    fun kj hkj => (hsteps kj hkj).1

/-- Settles O42: the chain's value is a field element, so it fits its register. -/
theorem fpinvRunsTheChain : Obligations.FpinvRunsTheChain := by
  intro rd ra
  refine ruleOf_elemUnary (fun a => inField a && a % primeP != 0) fpInv rfl ?_ ?_ ?_
  · intro s
    rw [Bool.and_eq_true, inField_iff, bne_iff_ne]
  · rintro s ⟨ha, -⟩
    exact (fpInv_lt ha).trans two_primeP_lt_montR
  · rintro s t ⟨ha, -⟩ hvalue
    exact ⟨hvalue, hvalue ▸ fpInv_lt ha⟩

/-! ## A value times its inverse (R105) -/

theorem primeP_sub_one : primeP - 1 = primeP - 2 + 1 := by decide +kernel

/-- The power e of 1 / R, as a Montgomery value, is R^(1 - e): if it is R^2, then R^(e + 1) is 1. -/
theorem IsMontPow.montR_pow_succ {e v : Nat} (h : IsMontPow 1 e v) (hv : v ≡ montR * montR [MOD primeP]) :
    montR ^ (e + 1) ≡ 1 [MOD primeP] := by
  refine modEq_of_mul_montR ?_
  calc montR ^ (e + 1) * montR
      = montR * montR * montR ^ e := by ring
    _ ≡ v * montR ^ e [MOD primeP] := hv.symm.mul_right _
    _ ≡ montR * 1 ^ e [MOD primeP] := h
    _ = 1 * montR := by rw [one_pow, mul_comm]

/-- Fermat's little theorem for R: its one computed fact is that the chain takes 1 to R^2. -/
theorem montR_pow_modEq_one : montR ^ (primeP - 1) ≡ 1 [MOD primeP] := by
  have hone : fpInv 1 ≡ montR * montR [MOD primeP] := by decide +kernel
  rw [primeP_sub_one]
  exact (isMontPow_fpInv 1).montR_pow_succ hone

/-- The first law of O60: x FpInv(x) is the power p - 1, which is Montgomery's 1 (R105). -/
theorem montMul_fpInv_modEq {x : Nat} (hx : x ^ (primeP - 1) ≡ 1 [MOD primeP]) :
    montMul x (fpInv x) ≡ montR [MOD primeP] := by
  have hpow : IsMontPow x (primeP - 1) (montMul x (fpInv x)) := by
    rw [primeP_sub_one, Nat.add_comm]
    exact isMontPow_montMul (isMontPow_one x) (isMontPow_fpInv x)
  have hR : IsMontPow x (primeP - 1) montR := (montR_pow_modEq_one.trans hx.symm).mul_left montR
  exact hpow.modEq hR

/-! ## The functions of GF(p) and GF(p²) modulo p (R111, R113, R128) -/

theorem fpAdd_modEq (a b : Nat) : fpAdd a b ≡ a + b [MOD primeP] := by
  rw [fpAdd]
  split
  · next h =>
    have hsub : a + b - 2 * primeP + primeP * 2 = a + b := by omega
    rw [← Nat.add_modulus_mul_modEq_iff (b := 2), hsub]
  · rfl

theorem fpAdd_lt {a b : Nat} (ha : a < 2 * primeP) (hb : b < 2 * primeP) : fpAdd a b < 2 * primeP := by
  rw [fpAdd]
  split <;> omega

theorem fpNeg_lt (a : Nat) : fpNeg a < 2 * primeP :=
  Nat.mod_lt _ (Nat.mul_pos two_pos primeP_pos)

theorem fpNeg_add_modEq {a : Nat} (ha : a < 2 * primeP) : fpNeg a + a ≡ 0 [MOD primeP] := by
  have hmod : fpNeg a + a ≡ 2 * primeP [MOD 2 * primeP] := by
    conv_rhs => rw [← Nat.sub_add_cancel ha.le]
    exact (Nat.mod_modEq _ _).add_right a
  exact (hmod.of_dvd (Dvd.intro_left 2 rfl)).trans (Dvd.intro_left 2 rfl : primeP ∣ _).modEq_zero_nat

/-- A product of two field elements is below p R, so Redc takes it (R95). -/
theorem mul_lt_primeP_mul_montR {a b : Nat} (ha : a < 2 * primeP) (hb : b < 2 * primeP) :
    a * b < primeP * montR := by
  calc a * b < (2 * primeP) * (2 * primeP) := Nat.mul_lt_mul'' ha hb
    _ = primeP * (4 * primeP) := by ring
    _ < primeP * montR := Nat.mul_lt_mul_of_pos_left four_primeP_lt primeP_pos

/-- p R, added where the difference is negative, is 0 modulo p (R128). -/
theorem redcDiff_mul_add_modEq {m0 m1 : Nat} (h : m1 < primeP * montR) :
    redcDiff m0 m1 * montR + m1 ≡ m0 [MOD primeP] := by
  rw [redcDiff]
  refine ((redc_mul_modEq _).add_right m1).trans ?_
  split
  · rw [Nat.sub_add_cancel (by omega), Nat.add_modulus_mul_modEq_iff]
  · rw [Nat.sub_add_cancel (by omega)]

/-- The Karatsuba difference is a0 b1 + a1 b0 (R128). -/
theorem fp2MulHi_eq (a0 a1 b0 b1 : Nat) : fp2MulHi a0 a1 b0 b1 = redc (a0 * b1 + a1 * b0) := by
  rw [fp2MulHi, show (a0 + a1) * (b0 + b1) = a0 * b1 + a1 * b0 + a1 * b1 + a0 * b0 by ring,
    Nat.add_sub_cancel, Nat.add_sub_cancel]

/-! ## A GF(p²) element times its inverse (R130, R131)

With n R = a0^2 + a1^2 and n ni = R^2, the inverse has c0 R = a0 ni and c1 R = - a1 ni, modulo p. -/

section Fp2Inverse

variable {a0 a1 n ni c0 c1 v : Nat}

theorem realPart_modEq (hn : n * montR ≡ a0 * a0 + a1 * a1 [MOD primeP])
    (hni : n * ni ≡ montR * montR [MOD primeP]) (h0 : c0 * montR ≡ a0 * ni [MOD primeP])
    (h1 : c1 * montR + a1 * ni ≡ 0 [MOD primeP]) (hv : v * montR + a1 * c1 ≡ a0 * c0 [MOD primeP]) :
    v ≡ montR [MOD primeP] := by
  refine modEq_of_mul_montR (modEq_of_mul_montR ?_)
  calc v * montR * montR
      = v * montR * montR + a1 * 0 := by rw [mul_zero, add_zero]
    _ ≡ v * montR * montR + a1 * (c1 * montR + a1 * ni) [MOD primeP] := (h1.mul_left a1).symm.add_left _
    _ = (v * montR + a1 * c1) * montR + a1 * a1 * ni := by ring
    _ ≡ a0 * c0 * montR + a1 * a1 * ni [MOD primeP] := (hv.mul_right _).add_right _
    _ = a0 * (c0 * montR) + a1 * a1 * ni := by ring
    _ ≡ a0 * (a0 * ni) + a1 * a1 * ni [MOD primeP] := (h0.mul_left a0).add_right _
    _ = (a0 * a0 + a1 * a1) * ni := by ring
    _ ≡ n * montR * ni [MOD primeP] := hn.symm.mul_right ni
    _ = n * ni * montR := by ring
    _ ≡ montR * montR * montR [MOD primeP] := hni.mul_right _

theorem imaginaryPart_modEq (h0 : c0 * montR ≡ a0 * ni [MOD primeP])
    (h1 : c1 * montR + a1 * ni ≡ 0 [MOD primeP]) (hv : v * montR ≡ a0 * c1 + a1 * c0 [MOD primeP]) :
    v ≡ 0 [MOD primeP] := by
  refine modEq_of_mul_montR (modEq_of_mul_montR ?_)
  calc v * montR * montR
      ≡ (a0 * c1 + a1 * c0) * montR [MOD primeP] := hv.mul_right _
    _ = a0 * (c1 * montR) + a1 * (c0 * montR) := by ring
    _ ≡ a0 * (c1 * montR) + a1 * (a0 * ni) [MOD primeP] := (h0.mul_left a1).add_left _
    _ = a0 * (c1 * montR + a1 * ni) := by ring
    _ ≡ a0 * 0 [MOD primeP] := h1.mul_left a0
    _ = 0 * montR * montR := by rw [mul_zero, zero_mul, zero_mul]

end Fp2Inverse

/-- The norm is a0^2 + a1^2 in the Montgomery sense (R130). -/
theorem norm_mul_modEq (a0 a1 : Nat) :
    fpAdd (montSqr a0) (montSqr a1) * montR ≡ a0 * a0 + a1 * a1 [MOD primeP] := by
  refine ((fpAdd_modEq _ _).mul_right montR).trans ?_
  rw [add_mul]
  exact (montMul_mul_modEq a0 a0).add (montMul_mul_modEq a1 a1)

/-- A product with the negative of a1 is the negative of the product (R130). -/
theorem montMul_fpNeg_add_modEq {a : Nat} (ha : a < 2 * primeP) (b : Nat) :
    montMul (fpNeg a) b * montR + a * b ≡ 0 [MOD primeP] := by
  calc montMul (fpNeg a) b * montR + a * b
      ≡ fpNeg a * b + a * b [MOD primeP] := (montMul_mul_modEq _ b).add_right _
    _ = (fpNeg a + a) * b := (add_mul _ _ _).symm
    _ ≡ 0 * b [MOD primeP] := (fpNeg_add_modEq ha).mul_right b
    _ = 0 := Nat.zero_mul b

/-- Settles O60: in GF(p²) the norm meets its inverse, to which the law of GF(p) applies. -/
theorem inverseTimesValueIsMontgomeryOne : Obligations.InverseTimesValueIsMontgomeryOne := by
  refine ⟨fun x _ hx => montMul_fpInv_modEq hx, ?_⟩
  rintro a0 a1 n ni c0 c1 ha0 ha1 rfl hfermat rfl rfl rfl
  set n := fpAdd (montSqr a0) (montSqr a1)
  have hsqrs : n * montR ≡ a0 * a0 + a1 * a1 [MOD primeP] := norm_mul_modEq a0 a1
  have hinv : n * fpInv n ≡ montR * montR [MOD primeP] :=
    (montMul_mul_modEq n _).symm.trans ((montMul_fpInv_modEq hfermat).mul_right montR)
  have h0 := montMul_mul_modEq a0 (fpInv n)
  have h1 := montMul_fpNeg_add_modEq ha1 (fpInv n)
  have hn_lt : n < 2 * primeP := fpAdd_lt (montMul_lt ha0 ha0) (montMul_lt ha1 ha1)
  have hc1_lt : montMul (fpNeg a1) (fpInv n) < 2 * primeP := montMul_lt (fpNeg_lt a1) (fpInv_lt hn_lt)
  constructor
  · exact realPart_modEq hsqrs hinv h0 h1 (redcDiff_mul_add_modEq (mul_lt_primeP_mul_montR ha1 hc1_lt))
  · refine imaginaryPart_modEq h0 h1 ?_
    rw [fp2MulHi_eq]
    exact redc_mul_modEq _

end Sys2Proof.Machine
end

section
/-! PROOFS. The GF(p) element layer (44_fp_element): its functions (R111 to R117), its commands (O49 to O51),
the round trip of TOMONT and FROMMONT (O52), and the range of every field result (O53). -/

namespace Sys2Proof.Machine

/-! ## The functions of GF(p) (R111 to R117) -/

theorem fpAdd_eq_mod {a b : Nat} (ha : a < 2 * primeP) (hb : b < 2 * primeP) :
    fpAdd a b = (a + b) % (2 * primeP) := by
  rw [fpAdd]
  split
  · next h => rw [Nat.mod_eq_sub_mod h, Nat.mod_eq_of_lt (by omega)]
  · next h => rw [Nat.mod_eq_of_lt (by omega)]

/-- A borrow is paid back with 2p (R112). -/
theorem fpSub_eq_emod {a b : Nat} (ha : a < 2 * primeP) (hb : b < 2 * primeP) :
    (fpSub a b : Int) = ((a : Int) - b) % (2 * primeP : Nat) := by
  rw [fpSub]
  split
  · rw [← Int.add_emod_right, Int.emod_eq_of_lt (by omega) (by omega)]
    omega
  · rw [Int.emod_eq_of_lt (by omega) (by omega)]
    omega

theorem fpSub_lt {a b : Nat} (ha : a < 2 * primeP) (hb : b < 2 * primeP) : fpSub a b < 2 * primeP := by
  rw [fpSub]
  split <;> omega

/-- p is odd, so an odd value becomes even by adding it (R114). -/
theorem fpDiv2_mul_two (a : Nat) : fpDiv2 a * 2 = a + primeP * (a % 2) := by
  refine Nat.div_mul_cancel (Nat.dvd_of_mod_eq_zero ?_)
  have hodd := primeP_odd
  rcases Nat.mod_two_eq_zero_or_one a with h | h <;> rw [h] <;> omega

theorem fpDiv2_lt {a : Nat} (ha : a < 2 * primeP) : fpDiv2 a < 2 * primeP := by
  have hhalf := fpDiv2_mul_two a
  rcases Nat.mod_two_eq_zero_or_one a with h | h <;> rw [h] at hhalf <;> omega

theorem fpCorr_eq_mod {a : Nat} (ha : a < 2 * primeP) : fpCorr a = a % primeP := by
  rw [fpCorr]
  split
  · next h => rw [Nat.mod_eq_of_lt h]
  · next h => rw [Nat.mod_eq_sub_mod (Nat.not_lt.mp h), Nat.mod_eq_of_lt (by omega)]

theorem fpCorr_lt {a : Nat} (ha : a < 2 * primeP) : fpCorr a < primeP := by
  rw [fpCorr_eq_mod ha]
  exact Nat.mod_lt _ primeP_pos

theorem lt_two_primeP {a : Nat} (ha : a < primeP) : a < 2 * primeP := by omega

theorem toMont_eq (a : Nat) : toMont a = montMul a (montR * montR % primeP) := by
  rw [toMont, montR2_eq]

theorem toMont_lt {a : Nat} (ha : a < 2 * primeP) : toMont a < 2 * primeP := by
  rw [toMont_eq]
  exact montMul_lt ha (lt_two_primeP (Nat.mod_lt _ primeP_pos))

/-- TOMONT multiplies by R, since Redc takes one R of R^2 away (R116). -/
theorem toMont_modEq (a : Nat) : toMont a ≡ a * montR [MOD primeP] := by
  refine modEq_of_mul_montR ?_
  calc toMont a * montR
      ≡ a * montR2 [MOD primeP] := montMul_mul_modEq a montR2
    _ ≡ a * (montR * montR) [MOD primeP] := montR2_eq ▸ (Nat.mod_modEq _ _).mul_left a
    _ = a * montR * montR := (mul_assoc _ _ _).symm

theorem montMul_one_lt {a : Nat} (ha : a < 2 * primeP) : montMul a 1 < 2 * primeP :=
  montMul_lt ha (by decide +kernel)

theorem fromMont_eq_mod {a : Nat} (ha : a < 2 * primeP) : fromMont a = montMul a 1 % primeP :=
  fpCorr_eq_mod (montMul_one_lt ha)

theorem fromMont_lt {a : Nat} (ha : a < 2 * primeP) : fromMont a < primeP :=
  fpCorr_lt (montMul_one_lt ha)

/-- FROMMONT divides by R (R117). -/
theorem fromMont_mul_modEq {a : Nat} (ha : a < 2 * primeP) : fromMont a * montR ≡ a [MOD primeP] := by
  rw [fromMont_eq_mod ha]
  calc montMul a 1 % primeP * montR
      ≡ montMul a 1 * montR [MOD primeP] := (Nat.mod_modEq _ _).mul_right _
    _ ≡ a * 1 [MOD primeP] := montMul_mul_modEq a 1
    _ = a := mul_one a

/-! ## The rules of the commands (R111 to R117) -/

/-- The rule of a command that takes one field element to one. -/
theorem ruleOf_fieldUnary {i : Instr} {rd ra : RegIx} (v : Nat → Nat) {post : State → State → Prop}
    (hi : commandOf i = ⟨i, some (elemAt rd), some (elemAt ra), none, fieldA,
      fun l => valueResult (v (latchA0 l))⟩)
    (hlt : ∀ {a}, a < 2 * primeP → v a < 2 * primeP)
    (hpost : ∀ s t, comp0 s ra < 2 * primeP → comp0 t rd = v (comp0 s ra) → post s t) :
    RuleOf i (fieldsOf i) [elemAt ra] [rd] false (fun s => comp0 s ra < 2 * primeP) post :=
  ruleOf_elemUnary inField v hi (fun _ => (inField_iff _).symm)
    (fun _ ha => (hlt ha).trans two_primeP_lt_montR) hpost

/-- The rule of a command that takes two field elements to one. -/
theorem ruleOf_fieldBinary {i : Instr} {rd ra rb : RegIx} (v : Nat → Nat → Nat)
    {post : State → State → Prop}
    (hi : commandOf i = ⟨i, some (elemAt rd), some (elemAt ra), some (elemAt rb), fieldAB,
      fun l => valueResult (v (latchA0 l) (latchB0 l))⟩)
    (hlt : ∀ {a b}, a < 2 * primeP → b < 2 * primeP → v a b < 2 * primeP)
    (hpost : ∀ s t, comp0 s ra < 2 * primeP → comp0 s rb < 2 * primeP →
      comp0 t rd = v (comp0 s ra) (comp0 s rb) → post s t) :
    RuleOf i (fieldsOf i) [elemAt ra, elemAt rb] [rd] false
      (fun s => comp0 s ra < 2 * primeP ∧ comp0 s rb < 2 * primeP) post := by
  refine ruleOf_elemBinary (fun a b => inField a && inField b) v hi ?_ ?_ ?_
  · intro s
    rw [Bool.and_eq_true, inField_iff, inField_iff]
  · rintro s ⟨ha, hb⟩
    exact (hlt ha hb).trans two_primeP_lt_montR
  · rintro s t ⟨ha, hb⟩
    exact hpost s t ha hb

/-- Settles O49: one subtraction or addition of 2p is the reduction modulo 2p. -/
theorem fpaddAndFpsubReduceModTwoP : Obligations.FpaddAndFpsubReduceModTwoP := by
  intro rd ra rb
  constructor
  · exact ruleOf_fieldBinary fpAdd rfl fpAdd_lt fun s t ha hb hvalue =>
      hvalue.trans (fpAdd_eq_mod ha hb)
  · exact ruleOf_fieldBinary fpSub rfl fpSub_lt fun s t ha hb hvalue =>
      (congrArg Nat.cast hvalue).trans (fpSub_eq_emod ha hb)

/-- Settles O50: FPNEG's value is the rule's own, FPDIV2's half is exact, FPCORR subtracts p at most once. -/
theorem fpnegFpdiv2AndFpcorr : Obligations.FpnegFpdiv2AndFpcorr := by
  intro rd ra
  refine ⟨?_, ?_, ?_⟩
  · exact ruleOf_fieldUnary fpNeg rfl (fun _ => fpNeg_lt _) fun s t _ hvalue => hvalue
  · refine ruleOf_fieldUnary fpDiv2 rfl fpDiv2_lt fun s t _ hvalue => ?_
    rw [hvalue, fpDiv2_mul_two]
  · exact ruleOf_fieldUnary fpCorr rfl (fun ha => lt_two_primeP (fpCorr_lt ha)) fun s t ha hvalue =>
      hvalue.trans (fpCorr_eq_mod ha)

/-- Settles O51: both commands are Montgomery products with a constant below p. -/
theorem tomontAndFrommontConvert : Obligations.TomontAndFrommontConvert := by
  intro rd ra
  constructor
  · refine ruleOf_fieldUnary toMont rfl toMont_lt fun s t ha hvalue => ?_
    rw [hvalue]
    exact ⟨toMont_eq _, toMont_lt ha, toMont_modEq _⟩
  · refine ruleOf_fieldUnary fromMont rfl (fun ha => lt_two_primeP (fromMont_lt ha))
      fun s t ha hvalue => ?_
    rw [hvalue]
    exact ⟨fromMont_eq_mod ha, fromMont_mul_modEq ha⟩

/-! ## The round trip (R118) -/

/-- What the rule of a command says of its two executions, one after the other, on written sources that meet
the precondition. -/
theorem RuleOf.runs_legal {i : Instr} {f : Fields} {srcs : List Operand} {dst : List RegIx} {wc : Bool}
    {pre : State → Prop} {post : State → State → Prop} {s s₁ t : State}
    (h : RuleOf i f srcs dst wc pre post) (hp : s.pending = none) (hw : i.wellFormed = true)
    (hsrc : ∀ o, o ∈ srcs → opWritten s o = true) (hpre : pre s)
    (hacc : exec i s = .next s₁) (hcomp : exec i s₁ = .next t) :
    t.pending = none ∧ (∀ n, n ∈ dst → t.elemWritten n = true) ∧ post s t := by
  obtain ⟨s₁', t', hacc', hcomp', -, ⟨hidle, -, hmarks, -⟩, -, -, hresult⟩ := h.2 s hp hw
  cases hacc.symm.trans hacc'
  cases hcomp.symm.trans hcomp'
  exact ⟨hidle, hmarks, ((hresult hsrc).1 hpre).2⟩

/-- Settles O52: the two results times R are congruent, so the canonical values below p are equal. -/
theorem tomontThenFrommontIsIdentity : Obligations.TomontThenFrommontIsIdentity := by
  refine ⟨fun a ha => ⟨fpCorr_lt ha, fun hlt => if_pos hlt⟩, ?_⟩
  intro rd re ra s s₁ s₂ s₃ t hp hsrc ha h₁ h₂ h₃ h₄
  have written {u : State} {n : RegIx} (h : u.elemWritten n = true) :
      ∀ o, o ∈ [elemAt n] → opWritten u o = true := by
    simpa [opWritten_elem] using h
  obtain ⟨tomont, -⟩ := tomontAndFrommontConvert rd ra
  obtain ⟨-, frommont⟩ := tomontAndFrommontConvert re rd
  obtain ⟨hidle, hdst, -, hlt, hto⟩ :=
    tomont.runs_legal hp rfl (written hsrc) (lt_two_primeP ha) h₁ h₂
  obtain ⟨-, -, hmod, hfrom⟩ :=
    frommont.runs_legal hidle rfl (written (hdst rd (List.mem_singleton_self rd))) hlt h₃ h₄
  have hcanonical : comp0 t re < primeP := hmod ▸ Nat.mod_lt _ primeP_pos
  exact (modEq_of_mul_montR (hfrom.trans hto)).eq_of_lt_of_lt hcanonical ha

/-! ## The range of the GF(p²) products (45_fp2_element R128 to R130) -/

/-- What every argument of a reduction in R128 and R129 stays below. -/
theorem redc_lt_of_lt_square {t : Nat} (h : t < 24 * primeP * primeP) : redc t < 2 * primeP := by
  apply redc_lt
  calc t < primeP * (24 * primeP) := by rwa [mul_comm primeP]
    _ < primeP * montR := Nat.mul_lt_mul_of_pos_left twentyfour_primeP_lt primeP_pos

/-- The difference, with p R where it is negative, is below p R (R128). -/
theorem redcDiff_lt {m0 m1 : Nat} (h : m0 < primeP * montR) : redcDiff m0 m1 < 2 * primeP := by
  rw [redcDiff]
  apply redc_lt
  split <;> omega

theorem fp2MulLo_lt {a0 b0 : Nat} (ha0 : a0 < 2 * primeP) (hb0 : b0 < 2 * primeP) (a1 b1 : Nat) :
    fp2MulLo a0 a1 b0 b1 < 2 * primeP :=
  redcDiff_lt (mul_lt_primeP_mul_montR ha0 hb0)

theorem fp2MulHi_lt {a0 a1 b0 b1 : Nat} (ha0 : a0 < 2 * primeP) (ha1 : a1 < 2 * primeP)
    (hb0 : b0 < 2 * primeP) (hb1 : b1 < 2 * primeP) : fp2MulHi a0 a1 b0 b1 < 2 * primeP := by
  rw [fp2MulHi_eq]
  apply redc_lt_of_lt_square
  calc a0 * b1 + a1 * b0
      < 2 * primeP * (2 * primeP) + 2 * primeP * (2 * primeP) :=
        Nat.add_lt_add (Nat.mul_lt_mul'' ha0 hb1) (Nat.mul_lt_mul'' ha1 hb0)
    _ = 8 * (primeP * primeP) := by ring
    _ ≤ 24 * (primeP * primeP) := Nat.mul_le_mul_right _ (by decide)
    _ = 24 * primeP * primeP := (mul_assoc _ _ _).symm

theorem fp2SqrLo_lt {a0 a1 : Nat} (ha0 : a0 < 2 * primeP) (ha1 : a1 < 2 * primeP) :
    fp2SqrLo a0 a1 < 2 * primeP := by
  apply redc_lt_of_lt_square
  calc (a0 + a1) * (a0 + 4 * primeP - a1)
      < 4 * primeP * (6 * primeP) := Nat.mul_lt_mul'' (by omega) (by omega)
    _ = 24 * primeP * primeP := by ring

theorem fp2SqrHi_lt {a0 a1 : Nat} (ha0 : a0 < 2 * primeP) (ha1 : a1 < 2 * primeP) :
    fp2SqrHi a0 a1 < 2 * primeP := by
  apply redc_lt_of_lt_square
  calc (a0 + a0) * a1
      < 4 * primeP * (6 * primeP) := Nat.mul_lt_mul'' (by omega) (by omega)
    _ = 24 * primeP * primeP := by ring

theorem fp2NormInv_lt {a0 a1 : Nat} (ha0 : a0 < 2 * primeP) (ha1 : a1 < 2 * primeP) :
    fp2NormInv a0 a1 < 2 * primeP :=
  fpInv_lt (fpAdd_lt (montMul_lt ha0 ha0) (montMul_lt ha1 ha1))

/-! ## The preconditions of the commands (R110, R120) -/

theorem fieldA_iff (l : Latch) : fieldA l = true ↔ latchA0 l < 2 * primeP := inField_iff _

theorem fieldAB_iff (l : Latch) :
    fieldAB l = true ↔ latchA0 l < 2 * primeP ∧ latchB0 l < 2 * primeP := by
  rw [fieldAB, Bool.and_eq_true, inField_iff, inField_iff]

theorem fieldPairA_iff (l : Latch) :
    fieldPairA l = true ↔ latchA0 l < 2 * primeP ∧ latchA1 l < 2 * primeP := by
  rw [fieldPairA, Bool.and_eq_true, inField_iff, inField_iff]

theorem fieldPairAB_iff (l : Latch) :
    fieldPairAB l = true ↔ (latchA0 l < 2 * primeP ∧ latchA1 l < 2 * primeP) ∧
      latchB0 l < 2 * primeP ∧ latchB1 l < 2 * primeP := by
  simp only [fieldPairAB, Bool.and_eq_true, inField_iff, and_assoc]

/-! ## The range of every field result (R110, R120) -/

/-- Both elements of a result are below m. -/
def Result.Below (m : Nat) (r : Result) : Prop :=
  (loHalf r.value).toNat < m ∧ (hiHalf r.value).toNat < m

theorem valueResult_below {m v : Nat} (h : v < m) : (valueResult v).Below m := by
  have hvalue : (valueResult v).value.toNat ≤ v := by
    rw [valueResult, BitVec.toNat_ofNat]
    exact Nat.mod_le _ _
  constructor
  · rw [loHalf_toNat]
    exact ((Nat.mod_le _ _).trans hvalue).trans_lt h
  · rw [hiHalf_toNat]
    exact ((Nat.div_le_self _ _).trans hvalue).trans_lt h

theorem pairResult_below {m c0 c1 : Nat} (h0 : c0 < m) (h1 : c1 < m) : (pairResult c0 c1).Below m := by
  simp only [Result.Below, pairResult, loHalf_append, hiHalf_append, BitVec.toNat_ofNat]
  exact ⟨(Nat.mod_le _ _).trans_lt h0, (Nat.mod_le _ _).trans_lt h1⟩

/-- A completion writes one half of the result's value to each destination register. -/
theorem elem_complete_dest (c : Command) (p : Pending) (s : State) (n : RegIx) (h : n ∈ destRegs c.dst) :
    (complete c p s).elem n = loHalf (resultsOf c p s.draws).value ∨
      (complete c p s).elem n = hiHalf (resultsOf c p s.draws).value := by
  obtain hd | ⟨⟨kind, m⟩, hd⟩ := Option.eq_none_or_eq_some c.dst <;> rw [hd] at h
  · cases h
  · cases kind with
    | elem =>
      obtain rfl := List.mem_singleton.mp h
      exact .inl (elem_complete_elem c p s n hd)
    | pair =>
      obtain ⟨hlo, hhi⟩ := elem_complete_pair c p s m hd
      obtain rfl | rfl := List.mem_pair.mp h
      · exact .inl hlo
      · exact .inr hhi

theorem elem_complete_lt {c : Command} {p : Pending} {m : Nat} (hl : c.legal p.latch = true)
    (hd : p.disturbed = false) (hr : (c.result p.latch).Below m) (s : State) {n : RegIx}
    (hn : n ∈ destRegs c.dst) : ((complete c p s).elem n).toNat < m := by
  obtain ⟨hlo, hhi⟩ := resultsOf_given c p s.draws hl hd ▸ hr
  rcases elem_complete_dest c p s n hn with h | h <;> rw [h]
  · exact hlo
  · exact hhi

/-- The rule of every GF(p) and GF(p²) command takes field elements to field elements (R110, R120). -/
theorem result_below_two_primeP {i : Instr} {l : Latch} (hop : 0x10 ≤ i.opcode.toNat)
    (hl : (commandOf i).legal l = true) : ((commandOf i).result l).Below (2 * primeP) := by
  cases i with
  | fpmul =>
    obtain ⟨ha, hb⟩ := (fieldAB_iff l).mp hl
    exact valueResult_below (montMul_lt ha hb)
  | fpsqr =>
    have ha := (fieldA_iff l).mp hl
    exact valueResult_below (montMul_lt ha ha)
  | fpinv => exact valueResult_below (fpInv_lt ((fieldA_iff l).mp (Bool.and_elim_left hl)))
  | fpadd =>
    obtain ⟨ha, hb⟩ := (fieldAB_iff l).mp hl
    exact valueResult_below (fpAdd_lt ha hb)
  | fpsub =>
    obtain ⟨ha, hb⟩ := (fieldAB_iff l).mp hl
    exact valueResult_below (fpSub_lt ha hb)
  | fpneg => exact valueResult_below (fpNeg_lt _)
  | fpdiv2 => exact valueResult_below (fpDiv2_lt ((fieldA_iff l).mp hl))
  | fpcorr => exact valueResult_below (lt_two_primeP (fpCorr_lt ((fieldA_iff l).mp hl)))
  | tomont => exact valueResult_below (toMont_lt ((fieldA_iff l).mp hl))
  | frommont => exact valueResult_below (lt_two_primeP (fromMont_lt ((fieldA_iff l).mp hl)))
  | fp2add =>
    obtain ⟨⟨ha0, ha1⟩, hb0, hb1⟩ := (fieldPairAB_iff l).mp hl
    exact pairResult_below (fpAdd_lt ha0 hb0) (fpAdd_lt ha1 hb1)
  | fp2sub =>
    obtain ⟨⟨ha0, ha1⟩, hb0, hb1⟩ := (fieldPairAB_iff l).mp hl
    exact pairResult_below (fpSub_lt ha0 hb0) (fpSub_lt ha1 hb1)
  | fp2neg => exact pairResult_below (fpNeg_lt _) (fpNeg_lt _)
  | fp2div2 =>
    obtain ⟨ha0, ha1⟩ := (fieldPairA_iff l).mp hl
    exact pairResult_below (fpDiv2_lt ha0) (fpDiv2_lt ha1)
  | fp2corr =>
    obtain ⟨ha0, ha1⟩ := (fieldPairA_iff l).mp hl
    exact pairResult_below (lt_two_primeP (fpCorr_lt ha0)) (lt_two_primeP (fpCorr_lt ha1))
  | fp2tomont =>
    obtain ⟨ha0, ha1⟩ := (fieldPairA_iff l).mp hl
    exact pairResult_below (toMont_lt ha0) (toMont_lt ha1)
  | fp2frommont =>
    obtain ⟨ha0, ha1⟩ := (fieldPairA_iff l).mp hl
    exact pairResult_below (lt_two_primeP (fromMont_lt ha0)) (lt_two_primeP (fromMont_lt ha1))
  | fp2mul =>
    obtain ⟨⟨ha0, ha1⟩, hb0, hb1⟩ := (fieldPairAB_iff l).mp hl
    exact pairResult_below (fp2MulLo_lt ha0 hb0 _ _) (fp2MulHi_lt ha0 ha1 hb0 hb1)
  | fp2sqr =>
    obtain ⟨ha0, ha1⟩ := (fieldPairA_iff l).mp hl
    exact pairResult_below (fp2SqrLo_lt ha0 ha1) (fp2SqrHi_lt ha0 ha1)
  | fp2inv =>
    obtain ⟨ha0, ha1⟩ := (fieldPairA_iff l).mp (Bool.and_elim_left hl)
    have hinv := fp2NormInv_lt ha0 ha1
    exact pairResult_below (montMul_lt ha0 hinv) (montMul_lt (fpNeg_lt _) hinv)
  | _ => exact absurd hop (of_decide_eq_false rfl)

/-- The rules of the correcting commands give canonical values (R115, R117, R125, R127). -/
theorem result_below_primeP {i : Instr} {l : Latch}
    (hop : i.opcode ∈ [0x1C#6, 0x1E#6, 0x24#6, 0x26#6]) (hl : (commandOf i).legal l = true) :
    ((commandOf i).result l).Below primeP := by
  cases i with
  | fpcorr => exact valueResult_below (fpCorr_lt ((fieldA_iff l).mp hl))
  | frommont => exact valueResult_below (fromMont_lt ((fieldA_iff l).mp hl))
  | fp2corr =>
    obtain ⟨ha0, ha1⟩ := (fieldPairA_iff l).mp hl
    exact pairResult_below (fpCorr_lt ha0) (fpCorr_lt ha1)
  | fp2frommont =>
    obtain ⟨ha0, ha1⟩ := (fieldPairA_iff l).mp hl
    exact pairResult_below (fromMont_lt ha0) (fromMont_lt ha1)
  | _ => exact absurd hop (of_decide_eq_false rfl)

/-- Settles O53: an undisturbed completion on a legal latch writes the rule's result. -/
theorem fieldResultsStayInRange : Obligations.FieldResultsStayInRange := by
  intro i s t p hp hi hd hl hop h
  cases (exec_pending i s p hp hi).symm.trans h
  rw [← destRegs_commandOf]
  exact ⟨fun n => elem_complete_lt hl hd (result_below_two_primeP hop hl) s,
    fun hcorr n => elem_complete_lt hl hd (result_below_primeP hcorr hl) s⟩

end Sys2Proof.Machine
end

section
/-! PROOFS. The GF(p²) element layer (45_fp2_element): its componentwise commands (O54, O55), its product,
square and inverse (O56 to O58), and the laws of the products (O59). -/

namespace Sys2Proof.Machine

/-! ## The rule of a command on pairs -/

/-- The rule of a command that leaves CARRY alone and writes a pair: if the latched sources are legal exactly
where `pre` holds and then result in the field elements `v0` and `v1` (R120), these are the destination's
components. -/
theorem ruleOf_pair {i : Instr} {srcs : List Operand} {rd : RegIx} (v0 v1 : State → Nat)
    {pre : State → Prop} {post : State → State → Prop}
    (hs : sourcesOf (commandOf i) = srcs) (hd : (commandOf i).dst = some (pairAt rd))
    (hc : ∀ l, ((commandOf i).result l).carry = none)
    (hlegal : ∀ s, (∀ o, o ∈ srcs → opWritten s o = true) →
      (pre s ↔ (commandOf i).legal (latchOf (commandOf i) s) = true))
    (hresult : ∀ s, (∀ o, o ∈ srcs → opWritten s o = true) →
      (commandOf i).result (latchOf (commandOf i) s) = pairResult (v0 s) (v1 s))
    (hv : ∀ s, pre s → v0 s < 2 * primeP ∧ v1 s < 2 * primeP)
    (hpost : ∀ s t, pre s → PairInField t rd → comp0 t rd = v0 s → comp1 t rd = v1 s → post s t) :
    RuleOf i (fieldsOf i) srcs [rd, rd + 1#6] false pre post := by
  refine ruleOf_command i _ _ _ _ _ _ rfl hs (by rw [hd]; exact destRegs_some _) (fun _ => hc) hlegal ?_
  intro s _ hsrc hp
  obtain ⟨hv0, hv1⟩ := hv s hp
  obtain ⟨h0, h1⟩ := afterCommand_comps _ s rd _ _ hd ((hlegal s hsrc).mp hp) (hresult s hsrc)
    (hv0.trans two_primeP_lt_montR) (hv1.trans two_primeP_lt_montR)
  exact hpost s _ hp ⟨h0 ▸ hv0, h1 ▸ hv1⟩ h0 h1

/-- The rule of a command with one pair source. -/
theorem ruleOf_pairUnary {i : Instr} {rd ra : RegIx} (legal : Nat → Nat → Bool) (v0 v1 : Nat → Nat → Nat)
    {pre : State → Prop} {post : State → State → Prop}
    (hi : commandOf i = ⟨i, some (pairAt rd), some (pairAt ra), none,
      fun l => legal (latchA0 l) (latchA1 l),
      fun l => pairResult (v0 (latchA0 l) (latchA1 l)) (v1 (latchA0 l) (latchA1 l))⟩)
    (hpre : ∀ s, pre s ↔ legal (comp0 s ra) (comp1 s ra) = true)
    (hv : ∀ s, pre s →
      v0 (comp0 s ra) (comp1 s ra) < 2 * primeP ∧ v1 (comp0 s ra) (comp1 s ra) < 2 * primeP)
    (hpost : ∀ s t, pre s → PairInField t rd → comp0 t rd = v0 (comp0 s ra) (comp1 s ra) →
      comp1 t rd = v1 (comp0 s ra) (comp1 s ra) → post s t) :
    RuleOf i (fieldsOf i) [pairAt ra] [rd, rd + 1#6] false pre post := by
  have ha (s : State) (hsrc : ∀ o, o ∈ [pairAt ra] → opWritten s o = true) :
      latchA0 (latchOf (commandOf i) s) = comp0 s ra ∧ latchA1 (latchOf (commandOf i) s) = comp1 s ra :=
    latchA_pair _ s ra (by rw [hi]) (hsrc _ (by simp))
  refine ruleOf_pair _ _ (by rw [hi]; rfl) (by rw [hi]) (fun _ => by rw [hi]; rfl)
    (fun s hsrc => ?_) (fun s hsrc => ?_) hv hpost
  · obtain ⟨ha0, ha1⟩ := ha s hsrc
    rw [hpre s, ← ha0, ← ha1, hi]
  · obtain ⟨ha0, ha1⟩ := ha s hsrc
    rw [← ha0, ← ha1, hi]

theorem pairInField_iff (s : State) (n : RegIx) :
    PairInField s n ↔ (inField (comp0 s n) && inField (comp1 s n)) = true := by
  rw [PairInField, Bool.and_eq_true, inField_iff, inField_iff]

/-- The rule of a command that takes one GF(p²) element to one. -/
theorem ruleOf_fp2Unary {i : Instr} {rd ra : RegIx} (v0 v1 : Nat → Nat → Nat)
    {post : State → State → Prop}
    (hi : commandOf i = ⟨i, some (pairAt rd), some (pairAt ra), none, fieldPairA,
      fun l => pairResult (v0 (latchA0 l) (latchA1 l)) (v1 (latchA0 l) (latchA1 l))⟩)
    (hlt : ∀ {a0 a1}, a0 < 2 * primeP → a1 < 2 * primeP → v0 a0 a1 < 2 * primeP ∧ v1 a0 a1 < 2 * primeP)
    (hpost : ∀ s t, PairInField s ra → PairInField t rd → comp0 t rd = v0 (comp0 s ra) (comp1 s ra) →
      comp1 t rd = v1 (comp0 s ra) (comp1 s ra) → post s t) :
    RuleOf i (fieldsOf i) [pairAt ra] [rd, rd + 1#6] false (fun s => PairInField s ra) post :=
  ruleOf_pairUnary (fun a0 a1 => inField a0 && inField a1) v0 v1 hi (pairInField_iff · ra)
    (fun _ ⟨ha0, ha1⟩ => hlt ha0 ha1) hpost

/-- The rule of a command that takes two GF(p²) elements to one. -/
theorem ruleOf_fp2Binary {i : Instr} {rd ra rb : RegIx} (v0 v1 : Nat → Nat → Nat → Nat → Nat)
    {post : State → State → Prop}
    (hi : commandOf i = ⟨i, some (pairAt rd), some (pairAt ra), some (pairAt rb), fieldPairAB,
      fun l => pairResult (v0 (latchA0 l) (latchA1 l) (latchB0 l) (latchB1 l))
        (v1 (latchA0 l) (latchA1 l) (latchB0 l) (latchB1 l))⟩)
    (hlt : ∀ {a0 a1 b0 b1}, a0 < 2 * primeP → a1 < 2 * primeP → b0 < 2 * primeP → b1 < 2 * primeP →
      v0 a0 a1 b0 b1 < 2 * primeP ∧ v1 a0 a1 b0 b1 < 2 * primeP)
    (hpost : ∀ s t, PairInField s ra → PairInField s rb → PairInField t rd →
      comp0 t rd = v0 (comp0 s ra) (comp1 s ra) (comp0 s rb) (comp1 s rb) →
      comp1 t rd = v1 (comp0 s ra) (comp1 s ra) (comp0 s rb) (comp1 s rb) → post s t) :
    RuleOf i (fieldsOf i) [pairAt ra, pairAt rb] [rd, rd + 1#6] false
      (fun s => PairInField s ra ∧ PairInField s rb) post := by
  have hlatch (s : State) (hsrc : ∀ o, o ∈ [pairAt ra, pairAt rb] → opWritten s o = true) :
      (latchA0 (latchOf (commandOf i) s) = comp0 s ra ∧ latchA1 (latchOf (commandOf i) s) = comp1 s ra) ∧
      latchB0 (latchOf (commandOf i) s) = comp0 s rb ∧ latchB1 (latchOf (commandOf i) s) = comp1 s rb :=
    ⟨latchA_pair _ s ra (by rw [hi]) (hsrc _ (by simp)),
      latchB_pair _ s rb (by rw [hi]) (hsrc _ (by simp))⟩
  refine ruleOf_pair
    (fun s => v0 (comp0 s ra) (comp1 s ra) (comp0 s rb) (comp1 s rb))
    (fun s => v1 (comp0 s ra) (comp1 s ra) (comp0 s rb) (comp1 s rb))
    (by rw [hi]; rfl) (by rw [hi]) (fun _ => by rw [hi]; rfl)
    (fun s hsrc => ?_) (fun s hsrc => ?_) ?_ ?_
  · obtain ⟨⟨ha0, ha1⟩, hb0, hb1⟩ := hlatch s hsrc
    rw [PairInField, PairInField, ← ha0, ← ha1, ← hb0, ← hb1, hi]
    exact (fieldPairAB_iff _).symm
  · obtain ⟨⟨ha0, ha1⟩, hb0, hb1⟩ := hlatch s hsrc
    rw [← ha0, ← ha1, ← hb0, ← hb1, hi]
  · rintro s ⟨⟨ha0, ha1⟩, hb0, hb1⟩
    exact hlt ha0 ha1 hb0 hb1
  · rintro s t ⟨ha, hb⟩
    exact hpost s t ha hb

/-! ## The componentwise commands (R121 to R127) -/

/-- The rule of a command that applies a function of GF(p) to each component: what relates the function's
value to its argument relates each component of the destination to the source's. -/
theorem ruleOf_fp2Map {i : Instr} {rd ra : RegIx} (v : Nat → Nat) (rel : Nat → Nat → Prop)
    (hi : commandOf i = ⟨i, some (pairAt rd), some (pairAt ra), none, fieldPairA,
      fun l => pairResult (v (latchA0 l)) (v (latchA1 l))⟩)
    (hlt : ∀ {a}, a < 2 * primeP → v a < 2 * primeP)
    (hrel : ∀ {a}, a < 2 * primeP → rel a (v a)) :
    RuleOf i (fieldsOf i) [pairAt ra] [rd, rd + 1#6] false (fun s => PairInField s ra)
      (fun s t => rel (comp0 s ra) (comp0 t rd) ∧ rel (comp1 s ra) (comp1 t rd)) := by
  refine ruleOf_fp2Unary (fun a0 _ => v a0) (fun _ a1 => v a1) hi
    (fun ha0 ha1 => ⟨hlt ha0, hlt ha1⟩) ?_
  rintro s t ⟨ha0, ha1⟩ - h0 h1
  rw [h0, h1]
  exact ⟨hrel ha0, hrel ha1⟩

/-- The same with two sources. -/
theorem ruleOf_fp2Map₂ {i : Instr} {rd ra rb : RegIx} (v : Nat → Nat → Nat) (rel : Nat → Nat → Nat → Prop)
    (hi : commandOf i = ⟨i, some (pairAt rd), some (pairAt ra), some (pairAt rb), fieldPairAB,
      fun l => pairResult (v (latchA0 l) (latchB0 l)) (v (latchA1 l) (latchB1 l))⟩)
    (hlt : ∀ {a b}, a < 2 * primeP → b < 2 * primeP → v a b < 2 * primeP)
    (hrel : ∀ {a b}, a < 2 * primeP → b < 2 * primeP → rel a b (v a b)) :
    RuleOf i (fieldsOf i) [pairAt ra, pairAt rb] [rd, rd + 1#6] false
      (fun s => PairInField s ra ∧ PairInField s rb)
      (fun s t => rel (comp0 s ra) (comp0 s rb) (comp0 t rd) ∧
        rel (comp1 s ra) (comp1 s rb) (comp1 t rd)) := by
  refine ruleOf_fp2Binary (fun a0 _ b0 _ => v a0 b0) (fun _ a1 _ b1 => v a1 b1) hi
    (fun ha0 ha1 hb0 hb1 => ⟨hlt ha0 hb0, hlt ha1 hb1⟩) ?_
  rintro s t ⟨ha0, ha1⟩ ⟨hb0, hb1⟩ - h0 h1
  rw [h0, h1]
  exact ⟨hrel ha0 hb0, hrel ha1 hb1⟩

/-- Settles O54: the sum and the difference of GF(p), once for each component. -/
theorem fp2addAndFp2subActComponentwise : Obligations.Fp2addAndFp2subActComponentwise := by
  intro rd ra rb
  constructor
  · exact ruleOf_fp2Map₂ fpAdd (fun a b c => c = (a + b) % (2 * primeP)) rfl fpAdd_lt fpAdd_eq_mod
  · exact ruleOf_fp2Map₂ fpSub (fun a b c => (c : Int) = ((a : Int) - b) % (2 * primeP : Nat)) rfl
      fpSub_lt fpSub_eq_emod

/-- Settles O55: the functions of FPNEG, FPDIV2, FPCORR, TOMONT and FROMMONT, once for each component. -/
theorem unaryFp2CommandsActComponentwise : Obligations.UnaryFp2CommandsActComponentwise := by
  intro rd ra
  refine ⟨?_, ?_, ?_, ?_, ?_⟩
  · exact ruleOf_fp2Map fpNeg (fun a c => c = (2 * primeP - a) % (2 * primeP)) rfl
      (fun _ => fpNeg_lt _) fun _ => rfl
  · exact ruleOf_fp2Map fpDiv2 (fun a c => c * 2 = a + primeP * (a % 2)) rfl
      fpDiv2_lt fun _ => fpDiv2_mul_two _
  · exact ruleOf_fp2Map fpCorr (fun a c => c = a % primeP) rfl
      (fun ha => lt_two_primeP (fpCorr_lt ha)) fpCorr_eq_mod
  · exact ruleOf_fp2Map toMont (fun a c => c = montMul a (montR * montR % primeP)) rfl
      toMont_lt fun _ => toMont_eq _
  · exact ruleOf_fp2Map fromMont (fun a c => c = montMul a 1 % primeP) rfl
      (fun ha => lt_two_primeP (fromMont_lt ha)) fromMont_eq_mod

/-! ## FP2MUL (R128) -/

/-- p R is 0 modulo R, so it leaves the multiplier of the reduction alone and divides to p. -/
theorem redc_add_primeP_mul_montR (u : Nat) : redc (u + primeP * montR) = redc u + primeP := by
  have hmul : montInv * (u + primeP * montR) % montR = montInv * u % montR := by
    rw [mul_add, ← mul_assoc, Nat.add_mul_mod_self_right]
  rw [redc, hmul, add_right_comm, Nat.add_mul_div_right _ _ montR_pos, redc]

theorem redcDiff_of_le {m0 m1 : Nat} (h : m1 ≤ m0) : redcDiff m0 m1 = redc (m0 - m1) := by
  rw [redcDiff, if_neg h.not_gt]

theorem redcDiff_of_lt {m0 m1 : Nat} (h : m0 < m1) :
    redcDiff m0 m1 = redc (m0 + primeP * montR - m1) := by
  rw [redcDiff, if_pos h]

/-- c0 is a0 b0 - a1 b1 in the Montgomery sense (R128). -/
theorem fp2MulLo_mul_add_modEq {a1 b1 : Nat} (ha1 : a1 < 2 * primeP) (hb1 : b1 < 2 * primeP) (a0 b0 : Nat) :
    fp2MulLo a0 a1 b0 b1 * montR + a1 * b1 ≡ a0 * b0 [MOD primeP] :=
  redcDiff_mul_add_modEq (mul_lt_primeP_mul_montR ha1 hb1)

/-- c1 is a0 b1 + a1 b0 in the Montgomery sense (R128). -/
theorem fp2MulHi_mul_modEq (a0 a1 b0 b1 : Nat) :
    fp2MulHi a0 a1 b0 b1 * montR ≡ a0 * b1 + a1 * b0 [MOD primeP] := by
  rw [fp2MulHi_eq]
  exact redc_mul_modEq _

/-- Settles O56: both components are reductions of arguments below p R. -/
theorem fp2mulIsTheKaratsubaProduct : Obligations.Fp2mulIsTheKaratsubaProduct := by
  refine ⟨redc_add_primeP_mul_montR, fun rd ra rb => ?_⟩
  refine ruleOf_fp2Binary fp2MulLo fp2MulHi rfl
    (fun ha0 ha1 hb0 hb1 => ⟨fp2MulLo_lt ha0 hb0 _ _, fp2MulHi_lt ha0 ha1 hb0 hb1⟩) ?_
  rintro s t ⟨-, ha1⟩ ⟨-, hb1⟩ ht h0 h1
  rw [h0, h1]
  exact ⟨ht, fp2MulHi_eq _ _ _ _, redcDiff_of_le, redcDiff_of_lt,
    fp2MulLo_mul_add_modEq ha1 hb1 _ _, fp2MulHi_mul_modEq _ _ _ _⟩

/-! ## FP2SQR (R129) -/

/-- c0 is a0^2 - a1^2 in the Montgomery sense: the difference d of R129's second factor has d + a1 ≡ a0. -/
theorem fp2SqrLo_mul_add_modEq {a1 : Nat} (ha1 : a1 < 2 * primeP) (a0 : Nat) :
    fp2SqrLo a0 a1 * montR + a1 * a1 ≡ a0 * a0 [MOD primeP] := by
  rw [fp2SqrLo]
  obtain ⟨d, hd⟩ : ∃ d, a0 + 4 * primeP = d + a1 := ⟨a0 + 4 * primeP - a1, by omega⟩
  have hmod : d + a1 ≡ a0 [MOD primeP] := by
    rw [← hd, Nat.add_mul_modulus_modEq_iff]
  rw [hd, Nat.add_sub_cancel]
  calc redc ((a0 + a1) * d) * montR + a1 * a1
      ≡ (a0 + a1) * d + a1 * a1 [MOD primeP] := (redc_mul_modEq _).add_right _
    _ = a0 * d + a1 * (d + a1) := by ring
    _ ≡ a0 * d + a1 * a0 [MOD primeP] := (hmod.mul_left a1).add_left _
    _ = a0 * (d + a1) := by ring
    _ ≡ a0 * a0 [MOD primeP] := hmod.mul_left a0

theorem fp2SqrHi_mul_modEq (a0 a1 : Nat) : fp2SqrHi a0 a1 * montR ≡ 2 * a0 * a1 [MOD primeP] := by
  rw [two_mul]
  exact redc_mul_modEq _

theorem fp2SqrLo_modEq_fp2MulLo {a1 : Nat} (ha1 : a1 < 2 * primeP) (a0 : Nat) :
    fp2SqrLo a0 a1 ≡ fp2MulLo a0 a1 a0 a1 [MOD primeP] := by
  have hsums := (fp2SqrLo_mul_add_modEq ha1 a0).trans (fp2MulLo_mul_add_modEq ha1 ha1 a0 a0).symm
  exact modEq_of_mul_montR hsums.add_right_cancel'

theorem fp2SqrHi_eq_fp2MulHi (a0 a1 : Nat) : fp2SqrHi a0 a1 = fp2MulHi a0 a1 a0 a1 := by
  rw [fp2SqrHi, fp2MulHi_eq, add_mul, mul_comm a1 a0]

/-- Settles O57: c0 meets FP2MUL's through their common value a0^2 - a1^2, c1 is FP2MUL's. -/
theorem fp2sqrIsTheComplexSquare : Obligations.Fp2sqrIsTheComplexSquare := by
  intro rd ra
  refine ruleOf_fp2Unary fp2SqrLo fp2SqrHi rfl
    (fun ha0 ha1 => ⟨fp2SqrLo_lt ha0 ha1, fp2SqrHi_lt ha0 ha1⟩) ?_
  rintro s t ⟨-, ha1⟩ ht h0 h1
  rw [h0, h1]
  exact ⟨ht, rfl, rfl, fp2SqrLo_mul_add_modEq ha1 _,
    fp2SqrHi_mul_modEq _ _, fp2SqrLo_modEq_fp2MulLo ha1 _, fp2SqrHi_eq_fp2MulHi _ _⟩

/-! ## FP2INV (R130) -/

/-- The inverted norm, with the sum as a residue modulo 2p. -/
theorem fp2NormInv_eq {a0 a1 : Nat} (ha0 : a0 < 2 * primeP) (ha1 : a1 < 2 * primeP) :
    fp2NormInv a0 a1 = fpInv ((montMul a0 a0 + montMul a1 a1) % (2 * primeP)) := by
  rw [fp2NormInv, montSqr_eq, montSqr_eq, fpAdd_eq_mod (montMul_lt ha0 ha0) (montMul_lt ha1 ha1)]

/-- Settles O58: both components are products with the inverted norm. -/
theorem fp2invInvertsTheNorm : Obligations.Fp2invInvertsTheNorm := by
  intro rd ra
  refine ruleOf_pairUnary
    (fun a0 a1 => inField a0 && inField a1 && !(a0 % primeP == 0 && a1 % primeP == 0))
    (fun a0 a1 => montMul a0 (fp2NormInv a0 a1)) (fun a0 a1 => montMul (fpNeg a1) (fp2NormInv a0 a1))
    rfl ?_ ?_ ?_
  · intro s
    rw [Bool.and_eq_true, ← pairInField_iff, Bool.not_eq_true', Bool.eq_false_iff, ne_eq,
      Bool.and_eq_true, beq_iff_eq, beq_iff_eq]
  · rintro s ⟨⟨ha0, ha1⟩, -⟩
    have hinv := fp2NormInv_lt ha0 ha1
    exact ⟨montMul_lt ha0 hinv, montMul_lt (fpNeg_lt _) hinv⟩
  · rintro s t ⟨⟨ha0, ha1⟩, -⟩ - h0 h1
    rw [fp2NormInv_eq ha0 ha1] at h0 h1
    exact ⟨_, _, rfl, rfl, h0, h1⟩

/-! ## The laws of the products (R120, R131) -/

theorem fp2MulLo_comm (a0 a1 b0 b1 : Nat) : fp2MulLo a0 a1 b0 b1 = fp2MulLo b0 b1 a0 a1 := by
  rw [fp2MulLo, fp2MulLo, mul_comm a0, mul_comm a1]

theorem fp2MulHi_comm (a0 a1 b0 b1 : Nat) : fp2MulHi a0 a1 b0 b1 = fp2MulHi b0 b1 a0 a1 := by
  rw [fp2MulHi_eq, fp2MulHi_eq, add_comm, mul_comm a1, mul_comm a0]

/-- Settles O59: the products of the components commute, and the reductions' arguments are below p R. -/
theorem fp2ProductLaws : Obligations.Fp2ProductLaws := fun a0 a1 b0 b1 ha0 ha1 hb0 hb1 =>
  ⟨fp2MulLo_comm a0 a1 b0 b1, fp2MulHi_comm a0 a1 b0 b1, fp2MulLo_lt ha0 hb0 a1 b1,
    fp2MulHi_lt ha0 ha1 hb0 hb1, fp2SqrLo_lt ha0 ha1, fp2SqrHi_lt ha0 ha1⟩

end Sys2Proof.Machine
end

section
/-! PROOFS. Command errors and the interrupt (60_exceptions): every step is answered (O10), the two command
errors (O13, O14), ERR with its first code (O31), DONE and IRQ (O32). -/

namespace Sys2Proof.Machine

/-! ## Every step is answered (R135) -/

theorem exec_answers (i : Instr) (s : State) : ∃ t, exec i s = .next t := by
  rcases exec_cases i s with ⟨-, -, e⟩ | ⟨-, -, e⟩ | ⟨p, -, -, e⟩ | ⟨p, -, -, e⟩ <;> exact ⟨_, e⟩

theorem clockCycle_answers (s : State) : ∃ t, clockCycle exec s = .next t := by
  rcases clockCycle_cases s with ⟨-, e⟩ | ⟨p, -, -, e⟩ | ⟨p, -, -, e⟩ <;> exact ⟨_, e⟩

theorem issue_answers (c : Word) (s : State) : ∃ t, issue exec c s = .next t := by
  rcases issue_cases c s with ⟨-, e⟩ | ⟨-, d, -, e⟩ | ⟨-, i, -, e⟩
  · exact ⟨_, e⟩
  · exact ⟨_, e⟩
  · exact e ▸ exec_answers i _

theorem hostAccess_answers (a : HostAccess) (s : State) : ∃ t, hostAccess exec a s = .next t := by
  rcases hostAccess_cases a s with ⟨w, off, e⟩ | ⟨off, e⟩ | ⟨c, e⟩ | ⟨off, v, e⟩
  · exact ⟨_, e⟩
  · exact ⟨_, e⟩
  · exact e ▸ issue_answers c _
  · exact ⟨_, e⟩

/-- Settles O10: whatever the next event is, the part of the step that takes it answers. -/
theorem everyStepAndCommandAnswersNext : Obligations.EveryStepAndCommandAnswersNext := by
  refine ⟨fun s => ?_, exec_answers⟩
  match h : s.host with
  | [] => exact step_noEvent s h ▸ clockCycle_answers s
  | .cycle :: es => exact step_cycle s es h ▸ clockCycle_answers _
  | .access a :: es => exact step_access s a es h ▸ hostAccess_answers a _
  | .reset :: es => exact ⟨_, step_reset s es h⟩

/-! ## A CMD write that runs nothing (R137, R138) -/

/-- A CMD write is answered and issued. -/
theorem step_writes_cmd {s : State} {c : Word} {es : List HostEvent} (h : NextWrites s cmdOffset c es) :
    step s = issue exec c (afterBus s es .accepted) :=
  step_access s _ es h

theorem busy_of_idle {s : State} (hp : s.pending = none) : s.busy = false := by
  simp [State.busy, hp]

theorem errorCode_eq (e : DecodeError) : errorCode e = if e = .illegalOpcode then 1#4 else 2#4 := by
  cases e <;> rfl

/-- Settles O13: an idle core issues the word, which is the command error its decoding gives. -/
theorem commandErrorIsReported : Obligations.CommandErrorIsReported := by
  intro s c es e hp h hd
  have hidle : (afterBus s es .accepted).busy ≠ true := ne_true_of_eq_false (busy_of_idle hp)
  rw [step_writes_cmd h, issue, if_neg hidle, hd, ← errorCode_eq]
  rfl

/-- Settles O14: a busy core turns the word away before it is decoded or recorded. -/
theorem cmdWriteWhileBusyIsRejected : Obligations.CmdWriteWhileBusyIsRejected := by
  intro s c es hb h
  have hbusy : (afterBus s es .accepted).busy = true := hb
  rw [step_writes_cmd h, issue, if_pos hbusy]
  rfl

/-- A CMD write that is issued while idle is an acceptance: its word decoded to a legal command (R72). -/
theorem eq_accept_of_issues {s t : State} {c : Word} {i : Instr} (hp : s.pending = none)
    (hd : decode c = .ok i) (h : exec i (s.issuing c) = .next t) :
    t = accept (commandOf i) (s.issuing c) :=
  Host.Outcome.next.inj (h.symm.trans (exec_idle i (s.issuing c) hp (acceptedWordHasOneReading c i hd).2))

/-! ## ERR and ERRCODE (R139) -/

theorem eq_of_locationAt_status {off : Offset} (h : locationAt off = .status) : off = 0x008#13 := by
  unfold locationAt at h
  simp only [] at h
  repeat' split at h
  all_goals cases h
  next h8 => exact BitVec.eq_of_toNat_eq h8

/-- A window write keeps ERR and ERRCODE, or it is a write of STATUS with bit 2 set and clears both. -/
theorem err_writeWindow (off : Offset) (v : Word) (s : State) :
    ((writeWindow off v s).err = s.err ∧ (writeWindow off v s).errCode = s.errCode) ∨
    ((writeWindow off v s).err = false ∧ (writeWindow off v s).errCode = 0#4 ∧
      off = 0x008#13 ∧ v.getLsbD 2 = true) := by
  rcases writeWindow_cases off v s with ⟨-, e⟩ | ⟨hl, e⟩ | ⟨n, w, -, e⟩ | e <;> rw [e]
  · exact .inl ⟨rfl, rfl⟩
  · cases hv : v.getLsbD 2 with
    | false => exact .inl (by simp [-BitVec.getLsbD_eq_getElem, hv])
    | true => exact .inr (by simp [-BitVec.getLsbD_eq_getElem, hv, eq_of_locationAt_status hl])
  · exact .inl ⟨writeElement_keeps State.err off n w v s (fun _ => rfl) fun _ _ _ _ _ => rfl,
      writeElement_keeps State.errCode off n w v s (fun _ => rfl) fun _ _ _ _ _ => rfl⟩
  · exact .inl ⟨rfl, rfl⟩

/-- The code of the error a CMD write of c raises: 3 while BUSY, else that of the word's decoding (R136). -/
def RaisesCode (s : State) (c : Word) (code : BitVec 4) : Prop :=
  (s.busy = true ∧ code = 3#4) ∨ (s.busy = false ∧ ∃ e, decode c = .error e ∧ code = errorCode e)

/-- What a step does to ERR and ERRCODE. -/
inductive ErrCase (s t : State) : Prop where
  | kept (he : t.err = s.err) (hc : t.errCode = s.errCode)
  | cleared (he : t.err = false) (hc : t.errCode = 0#4)
      (hby : (∃ v es, NextWrites s 0x008#13 v es ∧ v.getLsbD 2 = true) ∨ ∃ es, s.host = .reset :: es)
  | raised (c : Word) (es : List HostEvent) (code : BitVec 4) (h : NextWrites s cmdOffset c es)
      (hr : RaisesCode s c code) (he : t.err = true)
      (hc : t.errCode = if s.err then s.errCode else code)

theorem step_errCase {s t : State} (h : step s = .next t) : ErrCase s t := by
  cases step_cases s t h with
  | reset es hh => exact .cleared rfl rfl (.inr ⟨es, hh⟩)
  | completes p => exact .kept (complete_err _ p s.pop) (complete_errCode _ p s.pop)
  | reads off => exact .kept (readWindow_err off s.pop) (readWindow_errCode off s.pop)
  | writes off v es hh =>
    rcases err_writeWindow off v s.pop with ⟨he, hc⟩ | ⟨he, hc, rfl, hv⟩
    · exact .kept he hc
    · exact .cleared he hc (.inl ⟨v, es, hh, hv⟩)
  | rejects c es hh hb => exact .raised c es 3#4 hh (.inl ⟨hb, rfl⟩) rfl rfl
  | illegal c es hh hp e hd =>
    exact .raised c es (errorCode e) hh (.inr ⟨busy_of_idle hp, e, hd, rfl⟩) rfl rfl
  | issues c es hh hp i hd _ ht =>
    cases eq_accept_of_issues hp hd ht
    exact .kept (accept_err _ (s.issuing c)) (accept_errCode _ (s.issuing c))
  | _ => exact .kept rfl rfl

/-- Settles O31: of the ways a step treats ERR, none changes ERRCODE while ERR stays 1, and only a command
error sets ERR. -/
theorem errIsStickyWithFirstCode : Obligations.ErrIsStickyWithFirstCode := by
  refine fun s t h => ⟨fun hs => ?_, fun hs ht => ?_⟩
  · cases step_errCase h with
    | kept he hc => exact .inl ⟨he.trans hs, hc⟩
    | cleared he hc hby => exact .inr ⟨he, hc, hby⟩
    | raised c es code _ _ he hc => exact .inl ⟨he, by simpa [hs] using hc⟩
  · cases step_errCase h with
    | kept he => simp [he, hs] at ht
    | cleared he => simp [he] at ht
    | raised c es code hh hr _ hc =>
      obtain rfl : t.errCode = code := by simpa [hs] using hc
      refine ⟨c, es, hh, ?_⟩
      rcases hr with hbusy | ⟨hidle, e, hd, hcode⟩
      · exact .inl hbusy
      · cases e with
        | illegalOpcode => exact .inr (.inl ⟨hidle, hd, hcode⟩)
        | illegalField => exact .inr (.inr ⟨hidle, hd, hcode⟩)

/-! ## DONE and IRQ (R142) -/

theorem done_of_done_writeWindow {off : Offset} {v : Word} {s : State}
    (h : (writeWindow off v s).done = true) : s.done = true := by
  rcases writeWindow_cases off v s with ⟨-, e⟩ | ⟨-, e⟩ | ⟨n, w, -, e⟩ | e <;> rw [e] at h
  · exact h
  · exact Bool.and_elim_left h
  · exact (writeElement_keeps State.done off n w v s (fun _ => rfl) fun _ _ _ _ _ => rfl).symm.trans h
  · exact h

/-- Settles O32: of the cases of a step only a completion and a command error set DONE. -/
theorem doneComesFromCompletionOrCommandError : Obligations.DoneComesFromCompletionOrCommandError := by
  refine ⟨fun s => Bool.and_eq_true_iff, fun s t h hs ht => ?_⟩
  have kept {b : Bool} (hb : b = true → s.done = true) (ht : b = true) : False :=
    Bool.false_ne_true (hs.symm.trans (hb ht))
  cases step_cases s t h with
  | reset => exact absurd ht Bool.false_ne_true
  | completes p hp hr => exact .inl ⟨p, hp, hr, rfl⟩
  | reads off => exact (kept (readWindow_done off s.pop).symm.trans ht).elim
  | writes off v => exact (kept (done_of_done_writeWindow (s := s.pop)) ht).elim
  | illegal c es hh hp e hd => exact .inr ⟨c, es, e, hp, hh, hd⟩
  | issues c es _ hp i hd _ hexec =>
    cases eq_accept_of_issues hp hd hexec
    exact absurd ht Bool.false_ne_true
  | _ => exact (kept id ht).elim

end Sys2Proof.Machine
end

section
/-! PROOFS. Timing and control (70_reset_and_hazards R165, R166, R168): a step's control does not depend on
operand values (O35), and a pending command completes by itself (O18). -/

namespace Sys2Proof.Machine

/-! ## The control part of a state (R165) -/

/-- A state without its operand values: the fields SameControl compares. -/
structure Control where
  ie : Bool
  done : Bool
  err : Bool
  errCode : BitVec 4
  cmdLast : Word
  host : List HostEvent
  pending : Option (Instr × Nat)

/-- The control part of a state. -/
def State.control (s : State) : Control where
  ie := s.ie
  done := s.done
  err := s.err
  errCode := s.errCode
  cmdLast := s.cmdLast
  host := s.host
  pending := s.pending.map fun p => (p.instr, p.remaining)

theorem sameControl_iff (s s' : State) : SameControl s s' ↔ s.control = s'.control := by
  simp only [SameControl, State.control, Control.mk.injEq]

/-! ## The step of the control part: a machine of its own, which holds no operand value -/

/-- ERR and the first error's code (60_exceptions R139). -/
def Control.raiseError (c : Control) (code : BitVec 4) : Control :=
  { c with errCode := if c.err then c.errCode else code, err := true }

/-- A clock cycle (R166). -/
def Control.clockCycle (c : Control) : Control :=
  match c.pending with
  | none => c
  | some (i, r) =>
    if r ≤ 1 then { c with pending := none, done := true } else { c with pending := some (i, r - 1) }

/-- A CMD write (30_encoding R71, R72; 60_exceptions R137, R138). -/
def Control.issue (v : Word) (c : Control) : Control :=
  if c.pending.isSome then c.raiseError 3#4
  else
    match decode v with
    | .error e => { c.raiseError (errorCode e) with cmdLast := v, done := true }
    | .ok i =>
      { c with cmdLast := v, done := false, pending := some (i, Config.latency i.opcode i.sizeBit) }

/-- An aligned write of anything but CMD (20_memory R43). -/
def Control.writeWindow (off : Offset) (v : Word) (c : Control) : Control :=
  match locationAt off with
  | .ctrl => { c with ie := v.getLsbD 0 }
  | .status =>
    { c with
      done := c.done && !v.getLsbD 1
      err := c.err && !v.getLsbD 2
      errCode := if v.getLsbD 2 then 0#4 else c.errCode }
  | _ => c

/-- A host access (20_memory R46). -/
def Control.hostAccess (a : HostAccess) (c : Control) : Control :=
  match a with
  | .read _ _ => c
  | .write width off v =>
    if alignedWord width off then
      if off = cmdOffset then c.issue v else c.writeWindow off v
    else c

/-- The next event of the schedule; a clock cycle where there is none. -/
def Control.step (c : Control) : Control :=
  match c.host with
  | [] => c.clockCycle
  | .cycle :: es => { c with host := es }.clockCycle
  | .access a :: es => { c with host := es }.hostAccess a
  | .reset :: es => { State.reset.control with host := es }

/-! ## What an operation does to the control part, the control part alone decides -/

theorem control_accept (i : Instr) (s : State) :
    (accept (commandOf i) s).control =
      { s.control with done := false, pending := some (i, Config.latency i.opcode i.sizeBit) } := by
  simp [State.control]

theorem control_complete (c : Command) (p : Pending) (s : State) :
    (complete c p s).control = { s.control with pending := none, done := true } := by
  simp [State.control]

theorem control_disturb (s : State) : (disturb s).control = s.control := by
  simp [State.control, Function.comp_def]

theorem control_readWindow (off : Offset) (s : State) : (readWindow off s).control = s.control :=
  readWindow_keeps State.control off s fun _ _ _ _ => rfl

theorem control_writeElement (off : Offset) (n : RegIx) (w : Nat) (v : Word) (s : State) :
    (writeElement off n w v s).control = s.control :=
  writeElement_keeps State.control off n w v s control_disturb fun _ _ _ _ _ => rfl

theorem control_writeWindow (off : Offset) (v : Word) (s : State) :
    (writeWindow off v s).control = s.control.writeWindow off v := by
  unfold writeWindow Control.writeWindow
  cases locationAt off with
  | element n w => exact control_writeElement off n w v s
  | _ => rfl

theorem control_clockCycle {s t : State} (h : clockCycle exec s = .next t) :
    t.control = s.control.clockCycle := by
  rcases clockCycle_cases s with ⟨hp, e⟩ | ⟨p, hp, hr, e⟩ | ⟨p, hp, hr, e⟩ <;> cases e.symm.trans h
  · simp [Control.clockCycle, State.control, hp]
  · simp [Control.clockCycle, State.control, hp, Nat.not_le.mpr hr]
  · rw [control_complete]
    simp [Control.clockCycle, State.control, hp, hr]

theorem control_issue {v : Word} {s t : State} (h : issue exec v s = .next t) :
    t.control = s.control.issue v := by
  have hbusy : s.control.pending.isSome = s.busy := Option.isSome_map
  rcases issue_cases v s with ⟨hb, e⟩ | ⟨hb, d, hd, e⟩ | ⟨hb, i, hd, e⟩ <;> rw [e] at h
  · cases h
    rw [Control.issue, hbusy, if_pos hb]
    rfl
  · cases h
    rw [Control.issue, hbusy, if_neg (ne_true_of_eq_false hb), hd]
    rfl
  · have hp : s.pending = none := Option.isNone_iff_eq_none.mp (Option.isSome_eq_false_iff.mp hb)
    have hw : i.wellFormed = true := (acceptedWordHasOneReading v i hd).2
    cases (exec_idle i { s with cmdLast := v } hp hw).symm.trans h
    rw [control_accept, Control.issue, hbusy, if_neg (ne_true_of_eq_false hb), hd]
    rfl

theorem control_hostAccess {a : HostAccess} {s t : State} (h : hostAccess exec a s = .next t) :
    t.control = s.control.hostAccess a := by
  cases a with
  | read width off =>
    by_cases hal : alignedWord width off = true
    · cases (if_pos hal).symm.trans h
      exact control_readWindow off s
    · cases (if_neg hal).symm.trans h
      rfl
  | write width off v =>
    by_cases hal : alignedWord width off = true
    · by_cases hc : off = cmdOffset
      · simp only [hostAccess, Control.hostAccess, if_pos hal, if_pos hc] at h ⊢
        exact control_issue (s := respondAccepted s) h
      · simp only [hostAccess, Control.hostAccess, if_pos hal, if_neg hc] at h ⊢
        cases h
        exact control_writeWindow off v s
    · simp only [hostAccess, Control.hostAccess, if_neg hal] at h ⊢
      cases h
      rfl

/-- A step of the machine takes the control part one step, whatever the operand values are. -/
theorem control_step {s t : State} (h : step s = .next t) : t.control = s.control.step := by
  match hh : s.host with
  | [] =>
    rw [step_noEvent s hh] at h
    rw [Control.step, show s.control.host = _ from hh]
    exact control_clockCycle h
  | .cycle :: es =>
    rw [step_cycle s es hh] at h
    rw [Control.step, show s.control.host = _ from hh]
    exact control_clockCycle h
  | .access a :: es =>
    rw [step_access s a es hh] at h
    rw [Control.step, show s.control.host = _ from hh]
    exact control_hostAccess h
  | .reset :: es =>
    cases (step_reset s es hh).symm.trans h
    rw [Control.step, show s.control.host = _ from hh]
    rfl

/-- Settles O35: the next control part is a function of the control part alone. -/
theorem controlDoesNotDependOnOperandValues : Obligations.ControlDoesNotDependOnOperandValues := by
  intro s s' t t' hs h h'
  rw [sameControl_iff] at hs ⊢
  rw [control_step h, control_step h', hs]

/-! ## A pending command completes by itself (R166, R168) -/

/-- The state in which k more cycles of the pending command p have been counted down. -/
def State.counted (s : State) (p : Pending) (k : Nat) : State :=
  { s with pending := some { p with remaining := p.remaining - k } }

/-- While no event comes and more than one cycle is to go, a run counts the pending command's latency down. -/
theorem run_counts_noEvent {k m : Nat} {s : State} {p : Pending} (hp : s.pending = some p)
    (hk : k < p.remaining) (hh : s.host = []) : core.run (k + m) s = core.run m (s.counted p k) := by
  induction k generalizing s p with
  | zero => rw [State.counted, Nat.zero_add, Nat.sub_zero, ← hp]
  | succ k ih =>
    have hstep : step s = .next (s.counted p 1) :=
      (step_noEvent s hh).trans (clockCycle_count s p hp (by omega))
    have hrest := ih (s := s.counted p 1) rfl (Nat.lt_sub_of_add_lt hk) hh
    rw [Nat.add_right_comm, run_succ (k + m) s _ hstep, hrest]
    simp only [State.counted, Nat.sub_sub, Nat.add_comm 1 k]

/-- Settles O18: all cycles but the last count, and the last completes. -/
theorem pendingCommandEventuallyCompletes : Obligations.PendingCommandEventuallyCompletes := by
  intro s p hp hr hh
  refine ⟨?_, fun k hk => ⟨s.counted p k, run_counts_noEvent (m := 0) hp hk hh, rfl⟩⟩
  obtain ⟨k, hk⟩ : ∃ k, p.remaining = k + 1 := ⟨p.remaining - 1, by omega⟩
  have hlast : step (s.counted p k) = .next _ :=
    step_lastCycle rfl (show p.remaining - k ≤ 1 by omega) (.inl hh)
  have hrun := (run_counts_noEvent hp (by omega) hh).trans (run_succ 0 _ _ hlast)
  exact ⟨_, (congrArg (core.run · s) hk).trans hrun, rfl, rfl⟩

end Sys2Proof.Machine
end
